-- ==== Sys2Proof/Word.lean ====
section
/-! DEFINITION. The words the block moves: 32-bit register, command and event words, bytes of shared memory, 16-bit
lengths and indices, 64-bit physical addresses (spec/00_scope.md R8, R9; spec/20_memory.md R51, R58). -/

namespace Sys2Proof

/-- A 32-bit word of the register bus, the command port or a device event (R51, R103, R104). -/
abbrev Word := BitVec 32

/-- A byte of shared memory or of a data port (R55, R58). -/
abbrev Byte := BitVec 8

/-- A 16-bit field: a length, a descriptor index, a tail cursor (R22, R80, R103). -/
abbrev Half := BitVec 16

/-- A 64-bit physical address (R8). -/
abbrev PAddr := BitVec 64

end Sys2Proof
end

