-- ==== Sys2Proof/Config.lean ====
section
/-! DEFINITION. The parameters of a model instance (spec/00_scope.md R6), the reference instance, and the free values
the model draws (spec/00_scope.md R12). -/

namespace Sys2Proof

/-- How much order the device keeps (R216). -/
inductive DeviceOrder where
  /-- The device may complete any device-owned descriptor, in any order. -/
  | free
  /-- The device works in ring order from its head cursor. -/
  | ring
  deriving DecidableEq, Repr

/-- The parameters of R6, each fixed for the life of a model instance (R30). They stand in State as the field `cfg`,
which no step writes; statements hold for every value of them (log 1). -/
structure Params where
  /-- `N_TX`: descriptors in the TX ring. -/
  nTx : Nat
  /-- `N_RX`: descriptors in the RX ring. -/
  nRx : Nat
  /-- `MAX_TX`: capacity of a TX buffer in bytes. -/
  maxTx : Nat
  /-- `RXBUF`: size of an RX buffer in bytes, and capacity of the data-out port. -/
  rxBuf : Nat
  /-- `TXRING_PA`. -/
  txRingPa : PAddr
  /-- `RXRING_PA`. -/
  rxRingPa : PAddr
  /-- `TXBUF_PA(i)`: entry i is the address of TX buffer i (log 3). -/
  txBufPa : List PAddr
  /-- `RXBUF_PA(i)`: entry i is the address of RX buffer i (log 3). -/
  rxBufPa : List PAddr
  /-- `ATTACH_OK(w)`: the STATUS words it is true of. Every predicate on 32-bit words has such a list (log 3). -/
  attachOk : List Word
  /-- `TCTL_VAL`. -/
  tctlVal : Word
  /-- `TIPG_VAL`. -/
  tipgVal : Word
  /-- `RCTL_VAL`. -/
  rctlVal : Word
  /-- `EXTRA_ATTACH_WRITES`: (register index, value) pairs. -/
  extra : List (Nat × Word)
  /-- `DEVICE_ORDER`. -/
  order : DeviceOrder
  /-- `REG_COUNT`: registers in the register window. -/
  regCount : Nat
  deriving DecidableEq, Repr

/-- The spec's own identity string of the block (R1, D1). -/
def Config.identity : String := "DRA-yubo2014jos-v7"

/-- The STATUS words for which the reference instance's `ATTACH_OK` holds: OPEN in the spec (R6, D12), so uninterpreted
(log 2). -/
opaque Config.attachOk : List Word

/-- `TCTL_VAL` of the reference instance: OPEN in the spec (R6, D10), so uninterpreted (log 2). -/
opaque Config.tctlVal : Word

/-- `TIPG_VAL` of the reference instance: OPEN in the spec (R6, D10; R98 does not fix IPGR1), so uninterpreted (log 2). -/
opaque Config.tipgVal : Word

/-- FREE VALUE: the word the device returns to the n-th draw of a STATUS read (R190; log 11). -/
opaque Config.freeStatus : Nat → Word

/-- FREE VALUE: byte n of what no rule states: an RX buffer byte past the frame, the RX `errors` byte (R214), or a data
byte that a port was asked for and was not given (log 9, log 11). -/
opaque Config.freeByte : Nat → Byte

/-- FREE VALUE: a 16-bit field the device writes as it likes, RX `csum` and `special` (R214; log 11). -/
opaque Config.freeHalf : Nat → Half

/-- FREE VALUE: TX `status[7:1]` after DEV_TXDONE (R213; log 11). -/
opaque Config.freeTxStatus : Nat → BitVec 7

/-- FREE VALUE: RX `status[7:2]` after DEV_RXFILL (R214; log 11). -/
opaque Config.freeRxStatus : Nat → BitVec 6

/-- The reference instance, the one `State.reset` is made for (DESIGN CHOICE, log 2): the reference values of R6 and R98
and the addresses of spec/95_test_vectors.md's platform. -/
def Params.reference : Params where
  nTx := 64
  nRx := 64
  maxTx := 1518
  rxBuf := 2048
  txRingPa := 0x00100000#64
  rxRingPa := 0x00101000#64
  txBufPa := (List.range 64).map fun i => BitVec.ofNat 64 (0x00200000 + 0x800 * i)
  rxBufPa := (List.range 64).map fun i => BitVec.ofNat 64 (0x00300000 + 0x800 * i)
  attachOk := Config.attachOk
  tctlVal := Config.tctlVal
  tipgVal := Config.tipgVal
  rctlVal := 0x04008002#32
  extra := []
  order := .free
  regCount := 0x8000

end Sys2Proof
end

