-- ==== Sys2Proof/Syntax.lean ====
section
/-! DEFINITION. The instructions: the three commands of the caller and the two events of the device
(spec/opcode_table.json, spec/30_encoding.md R103, R104), and the form in which one of them is presented. -/

namespace Sys2Proof

/-- One constructor per row of spec/opcode_table.json. Every operand is an unsigned field (R105). -/
inductive Instr where
  /-- ATTACH (R191). -/
  | attach
  /-- TRANSMIT with its payload length LEN; the payload is on the data-in port (R150). -/
  | transmit (len : Half)
  /-- RECEIVE (R170). -/
  | receive
  /-- DEV_TXDONE for TX slot SLOT (R213). -/
  | devTxdone (slot : Half)
  /-- DEV_RXFILL for RX slot SLOT, with end-of-packet value E and deposited length L (R214). -/
  | devRxfill (slot : Half) (e : Bool) (l : Half)
  deriving DecidableEq, Repr

/-- One entry of the schedule: what an agent presents for one step (R65, R103, R104). -/
inductive Input where
  /-- A word the caller puts on the command port (R103). -/
  | command (w : Word)
  /-- The words that name one device event, and the data bytes that follow them (R104). -/
  | event (words : List Word) (data : List Byte)
  deriving DecidableEq, Repr

/-- The data bytes that come with an entry: only a device event has any (R104); a command's payload is on the data-in
port and is no part of the command stream (R103). -/
def Input.data : Input → List Byte
  | .command _ => []
  | .event _ data => data

end Sys2Proof
end

