-- ==== Sys2Proof/Machine/State.lean ====
section
/-! DEFINITION. The machine's state, whole (spec/10_state.md, spec/70_reset_and_hazards.md R260), its faults and
refusals, and the state after reset. -/

namespace Sys2Proof.Machine

/-- The lifecycle state, 2 bits (R21). -/
inductive Life where
  /-- 0: before ATTACH. -/
  | unattached
  /-- 1: after a successful ATTACH. -/
  | ready
  /-- 2: after UnsupportedFrame. -/
  | halted
  /-- 3: after AttachFailure. -/
  | failed
  deriving DecidableEq, Repr

/-- The reasons of R238. The spec says what a fault does (it is recorded and stops the engine), so the meanings TAKE it:
a next state whose `fault` holds the reason (log 4). None ends a step of the model. -/
inductive Fault where
  /-- Raised by TRANSMIT and RECEIVE in UNATTACHED. Safe (D20). -/
  | notAttached
  /-- Raised by ATTACH in READY. Safe (D20). -/
  | reAttach
  /-- Raised by a register access at an index ≥ REG_COUNT (R51): ATTACH's EXTRA_ATTACH_WRITES. Safe (D27). -/
  | regOutOfRange
  /-- Raised by TRANSMIT and RECEIVE at a slot ≥ N (R120); only in states no run reaches. Safe (D27). -/
  | slotOutOfRange
  /-- Raised by RECEIVE at a length > RXBUF (R170); only in states no run reaches. Safe. -/
  | deviceLengthOverflow
  /-- Raised by TRANSMIT and RECEIVE at a read of a byte of a ring or pool that holds no value (R27, R28, R238, R260); only
  in states no run reaches. Safe (D35). -/
  | unwrittenRead
  deriving DecidableEq, Repr

/-- The reasons of R239, and what the model itself refuses. The first two are recorded as the refused mark of the state
(log 6) and end no step. -/
inductive Refusal where
  /-- An instruction with no meaning yet. Safe. No arm of `exec` raises it. -/
  | notModelled (mnemonic : String)
  /-- A command word that spells no command (R108): marked by `step`. Safe (D24). -/
  | illegalCommand
  /-- An event that spells no event (R108): marked by `step`. Safe (D24). -/
  | illegalEvent
  /-- Parameters outside R7, R52 or R57: raised by `State.instantiate`. Safe (D7). -/
  | instanceNotAdmitted
  deriving DecidableEq, Repr

/-- One transaction on the register bus (R31, R100). -/
inductive RegOp where
  /-- `Rd(idx, value)`. -/
  | rd (idx : Nat) (value : Word)
  /-- `Wr(idx, value)`. -/
  | wr (idx : Nat) (value : Word)
  deriving DecidableEq, Repr

/-- An entry of RegLog: the transaction and the number of the command that made it (R31). -/
structure RegEntry where
  /-- The command's number. -/
  cmd : Nat
  /-- The transaction. -/
  op : RegOp
  deriving DecidableEq, Repr

/-- The whole state. INVENTORY.md's '## State' lists each field's rule and reset value. -/
structure State where
  /-- The parameters of the instance (R6); no step writes them (log 1). -/
  cfg : Params
  /-- `life` (R21). -/
  life : Life
  /-- `tx_tail`, u16 (R22). Until ATTACH writes it, TRANSMIT, its one reader, faults NotAttached before the read (R22, R236,
  R240), so no instruction's effect depends on the value it has at reset (log 12). -/
  txTail : Half
  /-- `rx_tail`, u16 (R23). Until ATTACH writes it, RECEIVE, its one reader, faults NotAttached before the read (R236, R240),
  so no instruction's effect depends on the value it has at reset (log 12). -/
  rxTail : Half
  /-- `result` (R24). -/
  result : Word
  /-- Shared DMA memory (R50 item 2, R52): rings and pools, as (address, byte) cells in rising order; an unlisted
  address holds no value (R260; log 13). -/
  mem : List Host.Cell
  /-- `RegShadow` (R31): (index, last value written) in rising order; an unlisted index has none. -/
  regShadow : List (Nat × Word)
  /-- `RegLog` (R31), oldest first. -/
  regLog : List RegEntry
  /-- `tx_head`, u16 (R32); ATTACH's write of TDH sets it. Under DEVICE_ORDER = free, which carries none, nothing reads or
  writes it (log 12). -/
  txHead : Half
  /-- `rx_head`, u16 (R32); ATTACH's write of RDH sets it. Under DEVICE_ORDER = free, which carries none, nothing reads or
  writes it (log 12). -/
  rxHead : Half
  /-- `TxWire` (R218), oldest first. -/
  txWire : List (List Byte)
  /-- `fault` (R33, R238). -/
  fault : Option Fault
  /-- The refusal mark (R33, R239): R33's Bool is `refused.isSome`; the reason is the first refusal's. -/
  refused : Option Refusal
  /-- `cmd_count` (R33). -/
  cmdCount : Nat
  /-- The payload-in port (R55): bytes presented and not consumed, next first. -/
  dataIn : List Byte
  /-- The payload-out port (R55): every byte handed to the caller, oldest first (log 10). -/
  dataOut : List Byte
  /-- The model's own: the schedule (R34, R65), next entry first (log 7). -/
  inputs : List Input
  /-- The model's own: the data bytes of the entry being taken (R104, R34; log 9). -/
  devData : List Byte
  /-- The model's own: how many free values have been drawn (log 11). -/
  draws : Nat
  deriving DecidableEq, Repr

/-- The reset state of an instance (R260): nothing attached, nothing written, nothing logged. -/
def State.resetWith (p : Params) : State where
  cfg := p
  life := .unattached
  txTail := 0#16
  rxTail := 0#16
  result := 0#32
  mem := []
  regShadow := []
  regLog := []
  txHead := 0#16
  rxHead := 0#16
  txWire := []
  fault := none
  refused := none
  cmdCount := 0
  dataIn := []
  dataOut := []
  inputs := []
  devData := []
  draws := 0

/-- The machine right after reset: R260 for the reference instance (log 2). -/
def State.reset : State := State.resetWith Params.reference

/-- The canonical form of memory: addresses strictly rising. No byte equals what an unlisted address reads as, which is
no value. -/
abbrev Memory.wf (m : List Host.Cell) : Prop := m.Pairwise (fun a b => a.1 < b.1)

/-- The canonical form of RegShadow: indices strictly rising. -/
abbrev Shadow.wf (m : List (Nat × Word)) : Prop := m.Pairwise (fun a b => a.1 < b.1)

end Sys2Proof.Machine
end

