-- ==== Sys2Proof/Decode.lean ====
section
/-! DEFINITION. The decoder, total on any words, rejecting by name (spec/30_encoding.md R103–R105, R108), the encoder
after it, the words of the opcode table as an input (spec/opcode_table.json), and the assembler line of R110. -/

namespace Sys2Proof

open Sys2Proof.Machine (Refusal)

/-! ### Operand fields (R103–R105) -/

/-- OP of a command word, EV of an event word: bits 3:0. -/
def fieldOp (w : Word) : BitVec 4 := w.extractLsb' 0 4

/-- LEN of a command word, SLOT of an event word: bits 31:16. -/
def fieldHigh (w : Word) : Half := w.extractLsb' 16 16

/-- L: bits 15:0 of DEV_RXFILL's second word. -/
def fieldLow (w : Word) : Half := w.extractLsb' 0 16

/-- E: bit 4 of an event word. -/
def fieldE (w : Word) : Bool := w.getLsbD 4

/-- The reserved bits 15:4 of a command word (R103). -/
def commandReserved (w : Word) : BitVec 12 := w.extractLsb' 4 12

/-- The reserved bits 15:5 of an event word (R104). -/
def eventReserved (w : Word) : BitVec 11 := w.extractLsb' 5 11

/-! ### Decoding -/

/-- The command a command word spells (R103), or the refusal of R108. -/
def decodeCommand (w : Word) : Except Refusal Instr :=
  if commandReserved w ≠ 0#12 then .error .illegalCommand
  else if fieldOp w = 0x1#4 then (if fieldHigh w = 0#16 then .ok .attach else .error .illegalCommand)
  else if fieldOp w = 0x2#4 then .ok (.transmit (fieldHigh w))
  else if fieldOp w = 0x3#4 then (if fieldHigh w = 0#16 then .ok .receive else .error .illegalCommand)
  else .error .illegalCommand

/-- The device event its words spell (R104), or the refusal of R108. EV alone tells the number of words; an event
presented with another number of words spells nothing (log 23). SLOT and L are held against the instance by
`Instr.wf`. -/
def decodeEvent : List Word → Except Refusal Instr
  | [w] =>
    if fieldOp w = 0x8#4 ∧ fieldE w = false ∧ eventReserved w = 0#11 then .ok (.devTxdone (fieldHigh w))
    else .error .illegalEvent
  | [w, w2] =>
    if fieldOp w = 0x9#4 ∧ eventReserved w = 0#11 ∧ fieldHigh w2 = 0#16 then
      .ok (.devRxfill (fieldHigh w) (fieldE w) (fieldLow w2))
    else .error .illegalEvent
  | _ => .error .illegalEvent

/-- The instruction an entry of the schedule spells. -/
def decodeInput : Input → Except Refusal Instr
  | .command w => decodeCommand w
  | .event words _ => decodeEvent words

/-! ### Encoding -/

/-- The words of an instruction (R103, R104). -/
def encode : Instr → List Word
  | .attach => [0x00000001#32]
  | .transmit len => [len ++ 0x0002#16]
  | .receive => [0x00000003#32]
  | .devTxdone slot => [slot ++ 0x0008#16]
  | .devRxfill slot e l => [slot ++ (0#11 ++ (BitVec.ofBool e ++ 0x9#4)), 0#16 ++ l]

/-- An instruction as its agent presents it: a command word for the engine's commands, an event with its data bytes for
the device's (opcode_table.json "agent"). A command takes its payload from the data-in port, not from here. -/
def encodeInput (i : Instr) (data : List Byte) : Input :=
  match i with
  | .attach => .command 0x00000001#32
  | .transmit len => .command (len ++ 0x0002#16)
  | .receive => .command 0x00000003#32
  | .devTxdone slot => .event (encode (.devTxdone slot)) data
  | .devRxfill slot e l => .event (encode (.devRxfill slot e l)) data

/-! ### The opcode table's words -/

/-- The input whose words are the bits `w`, numbered as opcode_table.json numbers them; bits at or above `nbits` are 0.
OP and EV never overlap: 8 and above name a device event (R104), below a command (R103). The data ports carry nothing. -/
def tableInput (nbits w : Nat) : Input :=
  let bits := w % 2 ^ nbits
  let w0 := BitVec.ofNat 32 bits
  let w1 := BitVec.ofNat 32 (bits >>> 32)
  if bits % 16 < 8 then .command w0
  else if bits % 16 = 9 then .event [w0, w1] []
  else .event [w0] []

/-- What the decoder reads from the table word `w`. -/
def decodeTableWord (nbits w : Nat) : Option Instr :=
  match decodeInput (tableInput nbits w) with
  | .ok i => some i
  | .error _ => none

/-! ### The assembler line of R110 -/

/-- A byte in two hexadecimal digits. -/
def hexByte (b : Byte) : String :=
  let digit := fun n => (("0123456789ABCDEF".toList).getD n '0').toString
  digit (b.toNat / 16) ++ digit (b.toNat % 16)

/-- A byte list as R110 writes it. -/
def asmBytes (data : List Byte) : String := "[" ++ ", ".intercalate (data.map hexByte) ++ "]"

/-- The line of R110 for an instruction and the bytes that go with it. -/
def asmLine (i : Instr) (data : List Byte) : String :=
  match i with
  | .attach => "ATTACH"
  | .transmit len => "TRANSMIT " ++ toString len.toNat ++ ", " ++ asmBytes data
  | .receive => "RECEIVE"
  | .devTxdone slot => "DEV_TXDONE " ++ toString slot.toNat
  | .devRxfill slot e l =>
    "DEV_RXFILL " ++ toString slot.toNat ++ ", " ++ toString l.toNat ++ ", eop=" ++ (if e then "1" else "0") ++ ", "
      ++ asmBytes data

end Sys2Proof
end

