-- ==== Sys2Proof/Machine/Flags.lean ====
section
/-! DEFINITION. The block's flags are bits of descriptor bytes (spec/10_state.md R26): their positions
(spec/30_encoding.md R81, R82, R85, R86), the accessors of spec/40_ring_arbiter.md R123, the descriptor states of R87,
the lifecycle code of R21, and the result codes and result word of R106 and R107. -/

namespace Sys2Proof.Machine

/-! ### Accessors on a status or command byte (R123) -/

/-- `is_done`: status bit 0, DD (R82, R85). -/
def isDone (status : Byte) : Bool := status.getLsbD 0

/-- `set_done`. -/
def setDone (status : Byte) : Byte := status ||| 0x01#8

/-- `clear_done`: used by TRANSMIT. -/
def clearDone (status : Byte) : Byte := status &&& 0xFE#8

/-- `is_eop`: RX status bit 1, EOP (R85). -/
def isEop (status : Byte) : Bool := status.getLsbD 1

/-- `clear_done_eop`: used by RECEIVE, one byte write (D32). -/
def clearDoneEop (status : Byte) : Byte := status &&& 0xFC#8

/-- `set_cmd_eop_rs`: TX command bits EOP (bit 0) and RS (bit 3) (R81). -/
def setCmdEopRs (cmd : Byte) : Byte := cmd ||| 0x09#8

/-! ### Named bits of the descriptor bytes -/

/-- The bits of the TX `cmd` byte (R81), by position. -/
def txCmdBits : List (Nat × String) :=
  [(0, "EOP"), (1, "IFCS"), (2, "IC"), (3, "RS"), (4, "RPS"), (5, "DEXT"), (6, "VLE"), (7, "IDE")]

/-- The named bits of the TX `status` byte (R82); bits 7:4 are reserved. -/
def txStatusBits : List (Nat × String) := [(0, "DD"), (1, "EC"), (2, "LC"), (3, "TU")]

/-- The named bits of the RX `status` byte (R85); bit 4 is reserved. -/
def rxStatusBits : List (Nat × String) :=
  [(0, "DD"), (1, "EOP"), (2, "IXSM"), (3, "VP"), (5, "TCPCS"), (6, "IPCS"), (7, "PIF")]

/-- The named bits of the RX `errors` byte (R86); bit 3 is reserved. No rule reads the byte. -/
def rxErrorBits : List (Nat × String) :=
  [(0, "CE"), (1, "SE"), (2, "SEQ"), (4, "CXE"), (5, "TCPE"), (6, "IPE"), (7, "RXE")]

/-! ### Descriptor states (R87) -/

/-- The states of a TX descriptor (R130). -/
inductive TxState where
  /-- Software-owned: available. -/
  | free
  /-- Device-owned: in flight. -/
  | queued
  deriving DecidableEq, Repr

/-- The states of an RX descriptor (R132). -/
inductive RxState where
  /-- Device-owned: waiting for a frame. -/
  | empty
  /-- Software-owned: a whole frame. -/
  | full
  /-- Software-owned: a fragment of a multi-descriptor frame. -/
  | frag
  deriving DecidableEq, Repr

/-- Who owns a descriptor (R126, R127). -/
inductive Owner where
  /-- The engine ("software" in the source). -/
  | software
  /-- The device. -/
  | device
  deriving DecidableEq, Repr

/-- The TX state a status byte encodes (R87). -/
def txStateOf (status : Byte) : TxState := if isDone status then .free else .queued

/-- The RX state a status byte encodes (R87). -/
def rxStateOf (status : Byte) : RxState :=
  if isDone status then (if isEop status then .full else .frag) else .empty

/-- The owner a status byte encodes, on either ring (R126, R127). -/
def ownerOf (status : Byte) : Owner := if isDone status then .software else .device

/-- The status byte DEV_TXDONE writes for the draw `s` (R213): `(s << 1) | 0x01`. -/
def txDoneStatus (s : BitVec 7) : Byte := s ++ 1#1

/-- The status byte DEV_RXFILL writes for the draw `s` (R214): `(s << 2) | (E << 1) | 0x01`. -/
def rxFillStatus (s : BitVec 6) (e : Bool) : Byte := s ++ (BitVec.ofBool e ++ 1#1)

/-! ### Lifecycle code and results -/

/-- The 2-bit code of a lifecycle state (R21). -/
def lifeCode : Life → BitVec 2
  | .unattached => 0#2
  | .ready => 1#2
  | .halted => 2#2
  | .failed => 3#2

/-- The result codes of R107. -/
inductive ResultCode where
  /-- 0x00. -/
  | ok
  /-- 0x01, TRANSMIT (R231). -/
  | packetTooLarge
  /-- 0x02, TRANSMIT (R232). -/
  | ringFull
  /-- 0x03, RECEIVE (R233). -/
  | noPacket
  /-- 0x04, RECEIVE (R234). -/
  | unsupportedFrame
  /-- 0x05, ATTACH (R235). -/
  | attachFailure
  deriving DecidableEq, Repr

/-- The number of a result code (R107). -/
def resultCode : ResultCode → Byte
  | .ok => 0x00#8
  | .packetTooLarge => 0x01#8
  | .ringFull => 0x02#8
  | .noPacket => 0x03#8
  | .unsupportedFrame => 0x04#8
  | .attachFailure => 0x05#8

/-- The result word (R106): RLEN in bits 31:16, zero in 15:8, CODE in 7:0. -/
def resultWord (c : ResultCode) (rlen : Half) : Word := rlen ++ (0#8 ++ resultCode c)

end Sys2Proof.Machine
end

