-- ==== Sys2Proof/Machine/Operands.lean ====
section
/-! DEFINITION. Where things stand: the register map (spec/30_encoding.md R95), ring-index arithmetic and addresses
(spec/40_ring_arbiter.md R120–R122), the descriptor layouts in bytes (spec/30_encoding.md R80, R84,
spec/20_memory.md R56), and the fields of the control words (R96, R97). -/

namespace Sys2Proof.Machine

/-! ### Register indices: byte offset / 4 (R51, R95) -/

def regCTRL : Nat := 0x000
def regSTATUS : Nat := 0x002
def regRCTL : Nat := 0x040
def regTCTL : Nat := 0x100
def regTIPG : Nat := 0x104
def regRDBAL : Nat := 0xA00
def regRDBAH : Nat := 0xA01
def regRDLEN : Nat := 0xA02
def regRDH : Nat := 0xA04
def regRDT : Nat := 0xA06
def regTDBAL : Nat := 0xE00
def regTDBAH : Nat := 0xE01
def regTDLEN : Nat := 0xE02
def regTDH : Nat := 0xE04
def regTDT : Nat := 0xE06

/-! ### Ring indices and addresses -/

/-- `next_N(i)` (R121): exact arithmetic, then mod N. -/
def nextIdx (n i : Nat) : Nat := (i + 1) % n

/-- The successor of a cursor as the u16 it is stored in (R22, R23). -/
def nextCursor (n : Nat) (c : Half) : Half := BitVec.ofNat 16 (nextIdx n c.toNat)

/-- Address of TX descriptor i (R52, R122). -/
def txDescAddr (p : Params) (i : Nat) : Nat := p.txRingPa.toNat + 16 * i

/-- Address of RX descriptor i (R52, R122). -/
def rxDescAddr (p : Params) (i : Nat) : Nat := p.rxRingPa.toNat + 16 * i

/-- `TXBUF_PA(i)` (R6, R122). -/
def txBufPa (p : Params) (i : Nat) : PAddr := p.txBufPa.getD i 0#64

/-- `RXBUF_PA(i)` (R6, R122). -/
def rxBufPa (p : Params) (i : Nat) : PAddr := p.rxBufPa.getD i 0#64

/-- Address of byte 0 of TX buffer i (R122). -/
def txBufAddr (p : Params) (i : Nat) : Nat := (txBufPa p i).toNat

/-- Address of byte 0 of RX buffer i (R122). -/
def rxBufAddr (p : Params) (i : Nat) : Nat := (rxBufPa p i).toNat

/-! ### Field offsets in a descriptor (R80, R84) -/

def offAddr : Nat := 0
def offLength : Nat := 8
def offTxCso : Nat := 10
def offTxCmd : Nat := 11
def offStatus : Nat := 12
def offTxCss : Nat := 13
def offSpecial : Nat := 14
def offRxCsum : Nat := 10
def offRxErrors : Nat := 13

/-! ### Byte order: little-endian (R56) -/

/-- The two bytes of a u16, least significant first. -/
def halfBytes (v : Half) : List Byte := [v.extractLsb' 0 8, v.extractLsb' 8 8]

/-- The eight bytes of a u64, least significant first. -/
def paddrBytes (v : PAddr) : List Byte :=
  [v.extractLsb' 0 8, v.extractLsb' 8 8, v.extractLsb' 16 8, v.extractLsb' 24 8,
   v.extractLsb' 32 8, v.extractLsb' 40 8, v.extractLsb' 48 8, v.extractLsb' 56 8]

/-- The u16 two bytes spell. -/
def halfOfBytes (b0 b1 : Byte) : Half := b1 ++ b0

/-- The u64 eight bytes spell. -/
def paddrOfBytes (b0 b1 b2 b3 b4 b5 b6 b7 : Byte) : PAddr :=
  (b7 ++ b6 ++ b5 ++ b4 ++ b3 ++ b2 ++ b1 ++ b0 : BitVec 64)

/-! ### Descriptors as records -/

/-- A TX descriptor (R27, R80). -/
structure TxDesc where
  addr : PAddr
  length : Half
  cso : Byte
  cmd : Byte
  status : Byte
  css : Byte
  special : Half
  deriving DecidableEq, Repr

/-- An RX descriptor (R28, R84). -/
structure RxDesc where
  addr : PAddr
  length : Half
  csum : Half
  status : Byte
  errors : Byte
  special : Half
  deriving DecidableEq, Repr

/-- The 16 bytes of a TX descriptor (R80). -/
def txDescBytes (d : TxDesc) : List Byte :=
  paddrBytes d.addr ++ halfBytes d.length ++ [d.cso, d.cmd, d.status, d.css] ++ halfBytes d.special

/-- The 16 bytes of an RX descriptor (R84). -/
def rxDescBytes (d : RxDesc) : List Byte :=
  paddrBytes d.addr ++ halfBytes d.length ++ halfBytes d.csum ++ [d.status, d.errors] ++ halfBytes d.special

/-- The TX descriptor 16 bytes spell (R80). -/
def txDescOfBytes : List Byte → Option TxDesc
  | [a0, a1, a2, a3, a4, a5, a6, a7, l0, l1, cso, cmd, st, css, s0, s1] =>
    some { addr := paddrOfBytes a0 a1 a2 a3 a4 a5 a6 a7, length := halfOfBytes l0 l1, cso := cso, cmd := cmd,
           status := st, css := css, special := halfOfBytes s0 s1 }
  | _ => none

/-- The RX descriptor 16 bytes spell (R84). -/
def rxDescOfBytes : List Byte → Option RxDesc
  | [a0, a1, a2, a3, a4, a5, a6, a7, l0, l1, c0, c1, st, er, s0, s1] =>
    some { addr := paddrOfBytes a0 a1 a2 a3 a4 a5 a6 a7, length := halfOfBytes l0 l1, csum := halfOfBytes c0 c1,
           status := st, errors := er, special := halfOfBytes s0 s1 }
  | _ => none

/-- What ATTACH makes of a TX descriptor bound to `a`: zeroed, bound, pre-marked done (R191, R192). -/
def txDescInit (a : PAddr) : TxDesc where
  addr := a
  length := 0#16
  cso := 0x00#8
  cmd := 0x00#8
  status := setDone 0x00#8
  css := 0x00#8
  special := 0#16

/-- What ATTACH makes of an RX descriptor bound to `a`: zeroed, bound, not done (R191, R192). -/
def rxDescInit (a : PAddr) : RxDesc where
  addr := a
  length := 0#16
  csum := 0#16
  status := 0x00#8
  errors := 0x00#8
  special := 0#16

/-! ### Fields of the device's registers (R96, R97); no rule of the block reads one -/

/-- TDBAL/RDBAL: bits 31:4 hold the low base, bits 3:0 are 0 (R96). -/
def ringBaseLowOk (w : Word) : Bool := decide (w.extractLsb' 0 4 = 0#4)

/-- TDLEN/RDLEN: bits 6:0 are 0 and bits 31:20 reserved, written 0 (R96). -/
def ringLenOk (w : Word) : Bool := decide (w.extractLsb' 0 7 = 0#7) && decide (w.extractLsb' 20 12 = 0#12)

/-- TDH/RDH/TDT/RDT: bits 31:16 reserved, written 0 (R96). -/
def ringIndexOk (w : Word) : Bool := decide (w.extractLsb' 16 16 = 0#16)

/-- The named fields of TCTL as (name, low bit, width) (R97). -/
def tctlFields : List (String × Nat × Nat) :=
  [("EN", 1, 1), ("PSP", 3, 1), ("CT", 4, 8), ("COLD", 12, 10), ("SWXOFF", 22, 1), ("RTLC", 24, 1)]

/-- The named fields of TIPG as (name, low bit, width) (R97). -/
def tipgFields : List (String × Nat × Nat) := [("IPGT", 0, 10), ("IPGR1", 10, 10), ("IPGR2", 20, 10)]

/-- The named fields of RCTL as (name, low bit, width) (R97). -/
def rctlFields : List (String × Nat × Nat) :=
  [("EN", 1, 1), ("SBP", 2, 1), ("UPE", 3, 1), ("MPE", 4, 1), ("LPE", 5, 1), ("LBM", 6, 2), ("RDMTS", 8, 2),
   ("MO", 12, 2), ("BAM", 15, 1), ("BSIZE", 16, 2), ("VFE", 18, 1), ("CFIEN", 19, 1), ("CFI", 20, 1), ("DPF", 22, 1),
   ("PMCF", 23, 1), ("BSEX", 25, 1), ("SECRC", 26, 1)]

end Sys2Proof.Machine
end

