-- ==== Sys2Proof/WellFormed.lean ====
section
/-! DEFINITION. Which model instances are admitted (spec/00_scope.md R6–R8, spec/20_memory.md R52, R57), what R97 asks of
`RCTL_VAL`, and which instructions spell a command or an event of an instance (spec/30_encoding.md R108). -/

namespace Sys2Proof

/-- R7: a ring length is in [8, 4096] and a multiple of 8. -/
def Params.ringLengthOk (n : Nat) : Bool := decide (8 ≤ n) && decide (n ≤ 4096) && decide (n % 8 = 0)

/-- The regions of shared memory as (base, size) pairs, in R52's order: the two rings, the TX pool, the RX pool. -/
def Params.regions (p : Params) : List (Nat × Nat) :=
  (p.txRingPa.toNat, 16 * p.nTx) :: (p.rxRingPa.toNat, 16 * p.nRx) ::
    (p.txBufPa.map (fun a => (a.toNat, p.maxTx)) ++ p.rxBufPa.map (fun a => (a.toNat, p.rxBuf)))

/-- Two regions share no byte (R52). -/
def regionsApart (a b : Nat × Nat) : Bool := decide (a.1 + a.2 ≤ b.1) || decide (b.1 + b.2 ≤ a.1)

/-- No region of the list shares a byte with a later one (R52). -/
def regionsDisjoint : List (Nat × Nat) → Bool
  | [] => true
  | r :: rs => rs.all (regionsApart r) && regionsDisjoint rs

/-- R6–R8, R52, R57, D7, D28, D39: the instances the spec admits. Any other is refused (`State.instantiate`, log 17). -/
def Params.admitted (p : Params) : Bool :=
  Params.ringLengthOk p.nTx && Params.ringLengthOk p.nRx &&
  decide (1 ≤ p.maxTx) && decide (p.maxTx ≤ 65535) && decide (1 ≤ p.rxBuf) && decide (p.rxBuf ≤ 65535) &&
  decide (p.txRingPa.toNat % 16 = 0) && decide (p.rxRingPa.toNat % 16 = 0) &&
  decide (p.txBufPa.length = p.nTx) && decide (p.rxBufPa.length = p.nRx) &&
  p.regions.all (fun r => decide (r.1 + r.2 ≤ 2 ^ 64)) && regionsDisjoint p.regions &&
  decide (0xE06 < p.regCount)

/-- The buffer size `RCTL_VAL` selects by BSIZE (bits 17:16) and BSEX (bit 25). R98 gives BSIZE = 00 as 2048 bytes; the
other sizes are the 8254x family's (PRESUMED, log 18). -/
def rctlBufferSize (rctl : Word) : Option Nat :=
  match rctl.getLsbD 25, (rctl.extractLsb' 16 2).toNat with
  | false, 0 => some 2048
  | false, 1 => some 1024
  | false, 2 => some 512
  | false, _ => some 256
  | true, 1 => some 16384
  | true, 2 => some 8192
  | true, 3 => some 4096
  | true, _ => none

/-- R97: `RCTL_VAL` sets BAM (bit 15) and SECRC (bit 26) and selects a buffer size equal to RXBUF. A duty of the platform
(R264), checked by no command; no instance is refused for it. -/
def Params.rctlMeets (p : Params) : Bool :=
  p.rctlVal.getLsbD 15 && p.rctlVal.getLsbD 26 && decide (rctlBufferSize p.rctlVal = some p.rxBuf)

/-- R264 item 4: what must hold of the parameters before ATTACH. -/
def Params.bootReady (p : Params) : Bool := p.admitted && p.rctlMeets

/-- R108: the ranges an event's operands must be in to spell an event of the instance. -/
def Instr.wf (p : Params) : Instr → Bool
  | .attach => true
  | .transmit _ => true
  | .receive => true
  | .devTxdone slot => decide (slot.toNat < p.nTx)
  | .devRxfill slot _ l => decide (slot.toNat < p.nRx) && decide (l.toNat ≤ p.rxBuf)

end Sys2Proof
end

