-- ==== Sys2Proof/Machine/Ops.lean ====
section
/-! DEFINITION. The named operations every meaning is written over: memory cells, register bus, data ports, draws,
descriptor fields, the lifecycle test of a command, TAKING A FAULT (spec/60_exceptions.md R238), returning a result
(R106), marking a refusal (R239), fetching the next entry of the schedule, and making an instance (spec/00_scope.md R7). -/

namespace Sys2Proof.Machine

/-! ### Cells: the canonical lists behind memory and RegShadow -/

/-- The value at an address; none where nothing is listed. -/
def cellRead {α : Type} : List (Nat × α) → Nat → Option α
  | [], _ => none
  | c :: m, a => if c.1 = a then some c.2 else cellRead m a

/-- The values at n addresses from a on; none if one of them holds no value. -/
def cellReadN {α : Type} (m : List (Nat × α)) (a : Nat) : Nat → Option (List α)
  | 0 => some []
  | n + 1 =>
    match cellRead m a, cellReadN m (a + 1) n with
    | some v, some vs => some (v :: vs)
    | _, _ => none

/-- Consecutive cells from address a on. -/
def cellRun {α : Type} (a : Nat) : List α → List (Nat × α)
  | [] => []
  | v :: vs => (a, v) :: cellRun (a + 1) vs

/-- Write consecutive values from address a on; the canonical order is kept. -/
def cellWrite {α : Type} (m : List (Nat × α)) (a : Nat) (vs : List α) : List (Nat × α) :=
  m.filter (fun c => decide (c.1 < a)) ++ cellRun a vs ++ m.filter (fun c => decide (a + vs.length ≤ c.1))

/-- Read-modify-write of one byte (R123); none if it holds no value. -/
def cellUpdate {α : Type} (m : List (Nat × α)) (a : Nat) (f : α → α) : Option (List (Nat × α)) :=
  match cellRead m a with
  | some v => some (cellWrite m a [f v])
  | none => none

/-! ### Faults, results, refusals -/

/-- Take a fault (R238): record its reason, once and for ever. Nothing is saved and control goes nowhere (R243), and no
operation returns from it (R244). After it no engine command takes a step (`admitAttach`, `admitRing`). -/
def State.raise (s : State) (f : Fault) : State := { s with fault := s.fault.or (some f) }

/-- Return a result to the caller: write the result word (R106, R24). -/
def State.ret (s : State) (c : ResultCode) (rlen : Half) : State := { s with result := resultWord c rlen }

/-- Mark the state refused (R239): once and for ever, and no other state changes. -/
def State.refuse (s : State) (r : Refusal) : State := { s with refused := s.refused.or (some r) }

/-- Start an engine command that takes a step (R33): count it. -/
def State.beginCommand (s : State) : State := { s with cmdCount := s.cmdCount + 1 }

/-- Enter a lifecycle state (R237). -/
def State.setLife (s : State) (l : Life) : State := { s with life := l }

/-- Replace shared memory. -/
def State.setMem (s : State) (m : List Host.Cell) : State := { s with mem := m }

/-! ### The lifecycle test, first action of every command (R236, R240) -/

/-- What the lifecycle says of a command. -/
inductive Admission where
  /-- The command executes. -/
  | executes
  /-- The command faults. -/
  | faults (f : Fault)
  /-- The command takes no step: nothing changes. -/
  | noStep
  deriving DecidableEq, Repr

/-- R236's column for ATTACH; after a fault no command takes a step (R238). -/
def admitAttach (s : State) : Admission :=
  if s.fault.isSome then .noStep
  else
    match s.life with
    | .unattached => .executes
    | .ready => .faults .reAttach
    | .halted => .noStep
    | .failed => .noStep

/-- R236's columns for TRANSMIT and RECEIVE; after a fault no command takes a step (R238). -/
def admitRing (s : State) : Admission :=
  if s.fault.isSome then .noStep
  else
    match s.life with
    | .unattached => .faults .notAttached
    | .ready => .executes
    | .halted => .noStep
    | .failed => .noStep

/-- Run an engine command as its admission says. A command with no step leaves the state as it is (R236; log 5); one that
takes a step is counted first, a faulting one too (R33). -/
def runCommand (adm : Admission) (body : State → State) (s : State) : State :=
  match adm with
  | .noStep => s
  | .faults f => s.beginCommand.raise f
  | .executes => body s.beginCommand

/-! ### The register bus (R11, R51, R70, R100) -/

/-- Append a transaction to RegLog with the number of the command that makes it (R31, R33). -/
def State.logReg (s : State) (op : RegOp) : State := { s with regLog := s.regLog ++ [⟨s.cmdCount, op⟩] }

/-- `RegRead(idx)` when the device answers `w`: one logged read, no side effect on block state (R60), or the fault of R51
and no transaction. -/
def regRead (idx : Nat) (w : Word) (s : State) : Except State State :=
  if idx < s.cfg.regCount then .ok (s.logReg (.rd idx w)) else .error (s.raise .regOutOfRange)

/-- The device's head cursors follow the writes of TDH and RDH, under ring order only (R32, R216; log 15). -/
def headAfter (order : DeviceOrder) (reg idx : Nat) (v : Word) (head : Half) : Half :=
  match order with
  | .free => head
  | .ring => if idx = reg then v.extractLsb' 0 16 else head

/-- What a register write does when its index is in the window: RegShadow, RegLog and, under ring, the heads. -/
def State.putReg (s : State) (idx : Nat) (v : Word) : State :=
  { s with
    regShadow := cellWrite s.regShadow idx [v]
    regLog := s.regLog ++ [⟨s.cmdCount, .wr idx v⟩]
    txHead := headAfter s.cfg.order regTDH idx v s.txHead
    rxHead := headAfter s.cfg.order regRDH idx v s.rxHead }

/-- `RegWrite(idx, v)`: one logged write, or the fault of R51 and no transaction. -/
def regWrite (idx : Nat) (v : Word) (s : State) : Except State State :=
  if idx < s.cfg.regCount then .ok (s.putReg idx v) else .error (s.raise .regOutOfRange)

/-- Register writes in order; the first that faults ends them, and those before it stay (R191 corner case, R238). -/
def regWriteAll : List (Nat × Word) → State → Except State State
  | [], s => .ok s
  | (idx, v) :: ws, s =>
    match regWrite idx v s with
    | .ok s' => regWriteAll ws s'
    | .error s' => .error s'

/-- `RegShadow[idx]` (R31). -/
def State.shadow (s : State) (idx : Nat) : Option Word := cellRead s.regShadow idx

/-! ### Draws and data ports -/

/-- Advance the draw counter by n (R12). -/
def State.drew (s : State) (n : Nat) : State := { s with draws := s.draws + n }

/-- The first n bytes of a port that holds `have_`; bytes it does not hold are free values, drawn from index `d` on
(log 9). -/
def takeBytes (have_ : List Byte) (n d : Nat) : List Byte :=
  have_.take n ++ (List.range (n - have_.length)).map (fun k => Config.freeByte (d + k))

/-- The bytes `PortIn(n)` gives (R11, R55). -/
def portInBytes (n : Nat) (s : State) : List Byte := takeBytes s.dataIn n s.draws

/-- The state after `PortIn(n)`: the bytes are consumed, the missing ones drawn. -/
def portIn (n : Nat) (s : State) : State :=
  { s with dataIn := s.dataIn.drop n, draws := s.draws + (n - s.dataIn.length) }

/-- `PortOut(bytes)` (R11, R55). -/
def portOut (bytes : List Byte) (s : State) : State := { s with dataOut := s.dataOut ++ bytes }

/-! ### Descriptor fields and buffers in shared memory (R27–R29, R52) -/

/-- `TxDesc[i].status`. -/
def State.txStatus (s : State) (i : Nat) : Option Byte := cellRead s.mem (txDescAddr s.cfg i + offStatus)

/-- `RxDesc[i].status`. -/
def State.rxStatus (s : State) (i : Nat) : Option Byte := cellRead s.mem (rxDescAddr s.cfg i + offStatus)

/-- A u16 field at an address, little-endian (R56). -/
def readHalf (m : List Host.Cell) (a : Nat) : Option Half :=
  match cellRead m a, cellRead m (a + 1) with
  | some b0, some b1 => some (halfOfBytes b0 b1)
  | _, _ => none

/-- `TxDesc[i].length`. -/
def State.txLength (s : State) (i : Nat) : Option Half := readHalf s.mem (txDescAddr s.cfg i + offLength)

/-- `RxDesc[i].length`. -/
def State.rxLength (s : State) (i : Nat) : Option Half := readHalf s.mem (rxDescAddr s.cfg i + offLength)

/-- `TxDesc[i]`, whole. -/
def State.txDesc (s : State) (i : Nat) : Option TxDesc :=
  (cellReadN s.mem (txDescAddr s.cfg i) 16).bind txDescOfBytes

/-- `RxDesc[i]`, whole. -/
def State.rxDesc (s : State) (i : Nat) : Option RxDesc :=
  (cellReadN s.mem (rxDescAddr s.cfg i) 16).bind rxDescOfBytes

/-- `TxBuf[i][0 : n]`; a buffer has no byte at or past MAX_TX (R29). -/
def State.txBufBytes (s : State) (i n : Nat) : Option (List Byte) :=
  if n ≤ s.cfg.maxTx then cellReadN s.mem (txBufAddr s.cfg i) n else none

/-- `RxBuf[i][0 : n]`; a buffer has no byte at or past RXBUF (R29). -/
def State.rxBufBytes (s : State) (i n : Nat) : Option (List Byte) :=
  if n ≤ s.cfg.rxBuf then cellReadN s.mem (rxBufAddr s.cfg i) n else none

/-! ### The schedule: fetching, refusing, making an instance -/

/-- The instruction an entry spells for the instance: decoded, and its operands in range (R108). -/
def admitInput (p : Params) (inp : Input) : Except Refusal Instr :=
  match decodeInput inp with
  | .error r => .error r
  | .ok i => if i.wf p then .ok i else .error .illegalEvent

/-- The next entry of the schedule, decoded; none when no agent presents one. -/
def fetch (s : State) : Option (Except Refusal Instr) :=
  match s.inputs with
  | [] => none
  | inp :: _ => some (admitInput s.cfg inp)

/-- Take the next entry off the schedule; its data bytes stand in `devData`. -/
def State.takeInput (s : State) : State :=
  match s.inputs with
  | [] => s
  | inp :: rest => { s with inputs := rest, devData := inp.data }

/-- Make the machine for an instance: its reset state, or the refusal of R7, R52 and R57, which is of the instance and no
fault at run time (log 17). -/
def State.instantiate (p : Params) : Host.Outcome State Fault Refusal :=
  if p.admitted then .next (State.resetWith p) else .refused .instanceNotAdmitted

end Sys2Proof.Machine
end

