-- ==== Sys2Proof/Machine/Attach.lean ====
section
/-! DEFINITION. ATTACH (spec/43_attach.md R190–R197). -/

namespace Sys2Proof.Machine

/-- Zero and bind TX slots 0 .. n-1 (R191, R192): the descriptor, then its buffer. -/
def initTx (p : Params) (m : List Host.Cell) : Nat → List Host.Cell
  | 0 => m
  | n + 1 =>
    cellWrite (cellWrite (initTx p m n) (txDescAddr p n) (txDescBytes (txDescInit (txBufPa p n))))
      (txBufAddr p n) (List.replicate p.maxTx 0x00#8)

/-- Zero and bind RX slots 0 .. n-1 (R191, R192). -/
def initRx (p : Params) (m : List Host.Cell) : Nat → List Host.Cell
  | 0 => m
  | n + 1 =>
    cellWrite (cellWrite (initRx p m n) (rxDescAddr p n) (rxDescBytes (rxDescInit (rxBufPa p n))))
      (rxBufAddr p n) (List.replicate p.rxBuf 0x00#8)

/-- Shared memory after both rings and both pools are made (R192). -/
def initMem (p : Params) (m : List Host.Cell) : List Host.Cell := initRx p (initTx p m p.nTx) p.nRx

/-- The twelve ring, TCTL and TIPG writes, in R191's order. -/
def ringWrites (p : Params) : List (Nat × Word) :=
  [(regTDBAL, p.txRingPa.extractLsb' 0 32), (regTDBAH, p.txRingPa.extractLsb' 32 32),
   (regTDLEN, BitVec.ofNat 32 (16 * p.nTx)), (regTDH, 0#32), (regTDT, 0#32),
   (regTCTL, p.tctlVal), (regTIPG, p.tipgVal),
   (regRDBAL, p.rxRingPa.extractLsb' 0 32), (regRDBAH, p.rxRingPa.extractLsb' 32 32),
   (regRDLEN, BitVec.ofNat 32 (16 * p.nRx)), (regRDH, 0#32), (regRDT, BitVec.ofNat 32 (p.nRx - 1))]

/-- Every register write of ATTACH, in R191's order: RCTL last, EXTRA_ATTACH_WRITES just before it. -/
def attachWrites (p : Params) : List (Nat × Word) := ringWrites p ++ p.extra ++ [(regRCTL, p.rctlVal)]

/-- The state once rings, pools and cursors are made and before the registers are programmed (R191). -/
def attachRings (s : State) : State :=
  { s with
    mem := initMem s.cfg s.mem
    txTail := 0#16
    rxTail := BitVec.ofNat 16 (s.cfg.nRx - 1) }

/-- ATTACH in UNATTACHED when the device answers the STATUS read with `w` (R190, R191). -/
def attachBody (w : Word) (s : State) : State :=
  match regRead regSTATUS w s with
  | .error s1 => s1
  | .ok s1 =>
    if w ∈ s.cfg.attachOk then
      match regWriteAll (attachWrites s.cfg) (attachRings s1) with
      | .error s2 => s2
      | .ok s2 => (s2.setLife .ready).ret .ok 0#16
    else (s1.setLife .failed).ret .attachFailure 0#16

/-- The STATUS read is one draw (R190; log 11). -/
def attachDraw (s : State) : State := attachBody (Config.freeStatus s.draws) (s.drew 1)

/-- ATTACH (R191). -/
def execAttach (s : State) : Host.Outcome State Fault Refusal := .next (runCommand (admitAttach s) attachDraw s)

end Sys2Proof.Machine
end

