-- ==== Sys2Proof/Machine/Device.lean ====
section
/-! DEFINITION. The device's events DEV_TXDONE and DEV_RXFILL (spec/44_device_agent.md R210–R220). -/

namespace Sys2Proof.Machine

/-- The device may step only when `life` is READY or HALTED (R212). -/
def deviceMayStep (s : State) : Bool :=
  match s.life with
  | .unattached => false
  | .ready => true
  | .halted => true
  | .failed => false

/-- Is the descriptor with this status byte device-owned (R126, R127)? A byte that holds no value is neither's (log 14). -/
def deviceOwns : Option Byte → Bool
  | some st => isDone st == false
  | none => false

/-- R216's conjunct: under ring, the slot is the head and the head differs from the tail register's value. -/
def orderAllows (order : DeviceOrder) (head : Half) (tailReg : Option Word) (slot : Half) : Bool :=
  match order with
  | .free => true
  | .ring => decide (head = slot) && decide (tailReg ≠ some (slot.setWidth 32))

/-- The head after a device step on slot i: advanced under ring, not carried under free (R213, R214, R32). -/
def headAdvance (order : DeviceOrder) (n : Nat) (head : Half) : Half :=
  match order with
  | .free => head
  | .ring => nextCursor n head

/-- The guard of DEV_TXDONE (R213). -/
def txDoneEnabled (slot : Half) (s : State) : Bool :=
  deviceMayStep s && decide (slot.toNat < s.cfg.nTx) && deviceOwns (s.txStatus slot.toNat) &&
    orderAllows s.cfg.order s.txHead (s.shadow regTDT) slot

/-- The guard of DEV_RXFILL (R214). -/
def rxFillEnabled (slot l : Half) (s : State) : Bool :=
  deviceMayStep s && decide (slot.toNat < s.cfg.nRx) && deviceOwns (s.rxStatus slot.toNat) &&
    decide (l.toNat ≤ s.cfg.rxBuf) && orderAllows s.cfg.order s.rxHead (s.shadow regRDT) slot

/-- The frame the device sends from TX slot i: `TxBuf[i][0 : TxDesc[i].length]` (R213, R218); none where a byte of it
holds no value. -/
def txFrame (s : State) (i : Nat) : Option (List Byte) :=
  match s.txLength i with
  | some n => s.txBufBytes i n.toNat
  | none => none

/-- The frame where `txFrame` has none: what memory holds, and a free value for a length or a byte that holds no value or
lies past the buffer. The event has no exception (R213), so it runs; no run reaches this case (log 14). -/
def txFrameDrawn (s : State) (i : Nat) : List Byte :=
  (List.range ((s.txLength i).getD (Config.freeHalf s.draws)).toNat).map fun k =>
    (if k < s.cfg.maxTx then cellRead s.mem (txBufAddr s.cfg i + k) else none).getD (Config.freeByte (s.draws + k))

/-- The device sends this frame from the slot: the frame to the wire, then the status byte with DD = 1 and bits 7:1 drawn,
under ring the head advanced (R213). `n` free values were drawn. -/
def txDoneWith (slot : Half) (frame : List Byte) (n : Nat) (s : State) : State :=
  { s with
    txWire := s.txWire ++ [frame]
    mem := cellWrite s.mem (txDescAddr s.cfg slot.toNat + offStatus) [txDoneStatus (Config.freeTxStatus s.draws)]
    txHead := headAdvance s.cfg.order s.cfg.nTx s.txHead
    draws := s.draws + n }

/-- DEV_TXDONE when enabled (R213). -/
def txDoneStep (slot : Half) (s : State) : State :=
  match txFrame s slot.toNat with
  | some frame => txDoneWith slot frame 1 s
  | none => txDoneWith slot (txFrameDrawn s slot.toNat) ((txFrameDrawn s slot.toNat).length + 1) s

/-- DEV_TXDONE (R213); not enabled, it is no step and no fault: nothing changes (log 5). -/
def execDevTxdone (slot : Half) (s : State) : Host.Outcome State Fault Refusal :=
  .next (if txDoneEnabled slot s then txDoneStep slot s else s)

/-- The RXBUF bytes DEV_RXFILL leaves in the buffer: L data bytes, then drawn ones (R214). Draw indices from `d` on; data
bytes the event did not bring take the same indices (log 9). -/
def rxFillBytes (data : List Byte) (l size d : Nat) : List Byte :=
  takeBytes data l d ++ (List.range (size - l)).map (fun k => Config.freeByte (d + l + k))

/-- Memory after DEV_RXFILL on slot i, every write in order and `status` last (R214, R68). -/
def rxFillMem (p : Params) (m : List Host.Cell) (i : Nat) (e : Bool) (l : Half) (data : List Byte) (d : Nat) :
    List Host.Cell :=
  let a := rxDescAddr p i
  let m1 := cellWrite m (rxBufAddr p i) (rxFillBytes data l.toNat p.rxBuf d)
  let m2 := cellWrite m1 (a + offLength) (halfBytes l)
  let m3 := cellWrite m2 (a + offRxCsum) (halfBytes (Config.freeHalf d))
  let m4 := cellWrite m3 (a + offRxErrors) [Config.freeByte (d + p.rxBuf)]
  let m5 := cellWrite m4 (a + offSpecial) (halfBytes (Config.freeHalf (d + 1)))
  cellWrite m5 (a + offStatus) [rxFillStatus (Config.freeRxStatus d) e]

/-- DEV_RXFILL when enabled (R214). -/
def rxFillStep (slot : Half) (e : Bool) (l : Half) (s : State) : State :=
  { s with
    mem := rxFillMem s.cfg s.mem slot.toNat e l s.devData s.draws
    rxHead := headAdvance s.cfg.order s.cfg.nRx s.rxHead
    draws := s.draws + (s.cfg.rxBuf + 2) }

/-- DEV_RXFILL (R214); not enabled, it is no step and no fault: nothing changes (log 5). -/
def execDevRxfill (slot : Half) (e : Bool) (l : Half) (s : State) : Host.Outcome State Fault Refusal :=
  .next (if rxFillEnabled slot l s then rxFillStep slot e l s else s)

end Sys2Proof.Machine
end

