-- ==== Sys2Proof/Machine/Receive.lean ====
section
/-! DEFINITION. RECEIVE (spec/42_receive.md R170–R177). -/

namespace Sys2Proof.Machine

/-- Hand out the n bytes of slot c, recycle the slot, make it the tail and ring the doorbell (R170). `st` is the status
byte the poll read. -/
def receiveDequeue (c : Nat) (st : Byte) (n : Half) (s : State) : State :=
  match s.rxBufBytes c n.toNat with
  | none => s.raise .unwrittenRead
  | some bytes =>
    let s1 := portOut bytes s
    let t := BitVec.ofNat 16 c
    match regWrite regRDT (t.setWidth 32)
        { s1 with mem := cellWrite s1.mem (rxDescAddr s1.cfg c + offStatus) [clearDoneEop st], rxTail := t } with
    | .error s' => s'
    | .ok s' => s'.ret .ok n

/-- RECEIVE at the candidate c: poll the status byte once, DD before EOP, then the length (R170, R69, R240). -/
def receiveCandidate (c : Nat) (s : State) : State :=
  if s.cfg.nRx ≤ c then s.raise .slotOutOfRange
  else
    match s.rxStatus c with
    | none => s.raise .unwrittenRead
    | some st =>
      if isDone st = false then s.ret .noPacket 0#16
      else if isEop st = false then (s.setLife .halted).ret .unsupportedFrame 0#16
      else
        match s.rxLength c with
        | none => s.raise .unwrittenRead
        | some n => if s.cfg.rxBuf < n.toNat then s.raise .deviceLengthOverflow else receiveDequeue c st n s

/-- RECEIVE in READY: the candidate is the slot after `rx_tail`, never `rx_tail` itself (R170, R173). -/
def receiveBody (s : State) : State := receiveCandidate (nextIdx s.cfg.nRx s.rxTail.toNat) s

/-- RECEIVE (R170). -/
def execReceive (s : State) : Host.Outcome State Fault Refusal := .next (runCommand (admitRing s) receiveBody s)

end Sys2Proof.Machine
end

