-- ==== Sys2Proof/Machine/Transmit.lean ====
section
/-! DEFINITION. TRANSMIT (spec/41_transmit.md R150–R157). -/

namespace Sys2Proof.Machine

/-- Memory after the payload and the `length` field of slot i are written (R150 steps 1 and 2). -/
def transmitFields (p : Params) (m : List Host.Cell) (i : Nat) (len : Half) (payload : List Byte) : List Host.Cell :=
  cellWrite (cellWrite m (txBufAddr p i) payload) (txDescAddr p i + offLength) (halfBytes len)

/-- Fill slot i, hand it to the device, advance the tail and ring the doorbell, in R67's order (R150). -/
def transmitEnqueue (i : Nat) (len : Half) (payload : List Byte) (s : State) : State :=
  let m1 := transmitFields s.cfg s.mem i len payload
  match cellUpdate m1 (txDescAddr s.cfg i + offTxCmd) setCmdEopRs with
  | none => (s.setMem m1).raise .unwrittenRead
  | some m2 =>
    match cellUpdate m2 (txDescAddr s.cfg i + offStatus) clearDone with
    | none => (s.setMem m2).raise .unwrittenRead
    | some m3 =>
      let t := BitVec.ofNat 16 (nextIdx s.cfg.nTx i)
      match regWrite regTDT (t.setWidth 32) { s with mem := m3, txTail := t } with
      | .error s' => s'
      | .ok s' => s'.ret .ok 0#16

/-- TRANSMIT at the tail slot i: poll the status byte once, and fill the slot if it is done (R150, R240). -/
def transmitSlot (i : Nat) (len : Half) (payload : List Byte) (s : State) : State :=
  if s.cfg.nTx ≤ i then s.raise .slotOutOfRange
  else
    match s.txStatus i with
    | none => s.raise .unwrittenRead
    | some st => if isDone st then transmitEnqueue i len payload s else s.ret .ringFull 0#16

/-- TRANSMIT once its payload is taken off the data-in port: the length check, then the tail slot (R150, R240). -/
def transmitChecked (len : Half) (payload : List Byte) (s : State) : State :=
  if s.cfg.maxTx < len.toNat then s.ret .packetTooLarge 0#16 else transmitSlot s.txTail.toNat len payload s

/-- TRANSMIT in READY: the payload is consumed on every returning path (R150). -/
def transmitBody (len : Half) (s : State) : State :=
  transmitChecked len (portInBytes len.toNat s) (portIn len.toNat s)

/-- TRANSMIT (R150). -/
def execTransmit (len : Half) (s : State) : Host.Outcome State Fault Refusal :=
  .next (runCommand (admitRing s) (transmitBody len) s)

end Sys2Proof.Machine
end

