-- ==== Sys2Proof/Machine/Dispatch.lean ====
section
/-! DEFINITION. One arm per instruction, each one call of its meaning (spec/opcode_table.json). -/

namespace Sys2Proof.Machine

def exec (i : Instr) (s : State) : Host.Outcome State Fault Refusal :=
  match i with
  | .attach => Sys2Proof.Machine.execAttach s
  | .transmit len => Sys2Proof.Machine.execTransmit len s
  | .receive => Sys2Proof.Machine.execReceive s
  | .devTxdone slot => Sys2Proof.Machine.execDevTxdone slot s
  | .devRxfill slot e l => Sys2Proof.Machine.execDevRxfill slot e l s

end Sys2Proof.Machine
end

