-- ==== Sys2Proof/Machine/Step.lean ====
section
/-! DEFINITION. One step of the machine: the next entry of the schedule, whole (spec/20_memory.md R65). -/

namespace Sys2Proof.Machine

/-- One step. With nothing presented the block does nothing (R250). An entry that spells nothing is refused before
anything else (R239, R240). Any other is taken off the schedule and executed. -/
def step (s : State) : Host.Outcome State Fault Refusal :=
  match fetch s with
  | none => .next s
  | some (.error r) => .next (s.takeInput.refuse r)
  | some (.ok i) => exec i s.takeInput

/-- `s` with the instruction whose table bits are `w` presented next (log 8). -/
def State.withFetchWord (s : State) (nbits w : Nat) : State := { s with inputs := tableInput nbits w :: s.inputs }

end Sys2Proof.Machine
end

