-- ==== Sys2Proof/Safety.lean ====
section
/-! DEFINITION. What counts as a good state and a safe run, in the terms the statements use: good end states
(spec/60_exceptions.md R253), the instances the spec admits (spec/00_scope.md R6–R8), words that fit a ring register
(spec/30_encoding.md R96), descriptor states and ownership (spec/40_ring_arbiter.md R126–R136), the invariants of
spec/10_state.md R35–R38, and a run of several instructions. -/

namespace Sys2Proof.Machine

/-- R253: a run's end state is good when `life` is READY, `fault` is none and `refused` is false. -/
def State.Good (s : State) : Prop := s.life = .ready ∧ s.fault = none ∧ s.refused = none

/-- The state admits TRANSMIT and RECEIVE (R236, R238). -/
def State.Running (s : State) : Prop := s.life = .ready ∧ s.fault = none

/-- The rings are registered with the device: `life` is READY or HALTED (R35–R38, R212). -/
def State.Attached (s : State) : Prop := s.life = .ready ∨ s.life = .halted

/-- The state of TX descriptor i (R130); none where its status byte holds no value. -/
def State.txState (s : State) (i : Nat) : Option TxState := (s.txStatus i).map txStateOf

/-- The state of RX descriptor i (R132); none where its status byte holds no value. -/
def State.rxState (s : State) (i : Nat) : Option RxState := (s.rxStatus i).map rxStateOf

/-- Address a is one of n bytes from b on. -/
def InRange (a b n : Nat) : Prop := b ≤ a ∧ a < b + n

/-- Address a belongs to TX slot i: to its descriptor or to its buffer (R120). -/
def InTxSlot (p : Params) (i a : Nat) : Prop := InRange a (txDescAddr p i) 16 ∨ InRange a (txBufAddr p i) p.maxTx

/-- Address a belongs to RX slot i: to its descriptor or to its buffer (R120). -/
def InRxSlot (p : Params) (i a : Nat) : Prop := InRange a (rxDescAddr p i) 16 ∨ InRange a (rxBufAddr p i) p.rxBuf

/-- The instances the spec admits, in its own words and slot by slot: R7 (ring lengths), R6 and D39 (buffer sizes, REG_COUNT,
one address per slot), R57 (ring alignment), R8 and D28 (no region past 2^64), R52 (no two regions share a byte). -/
def SpecAdmits (p : Params) : Prop :=
  (8 ≤ p.nTx ∧ p.nTx ≤ 4096 ∧ p.nTx % 8 = 0) ∧ (8 ≤ p.nRx ∧ p.nRx ≤ 4096 ∧ p.nRx % 8 = 0) ∧
  (1 ≤ p.maxTx ∧ p.maxTx ≤ 65535) ∧ (1 ≤ p.rxBuf ∧ p.rxBuf ≤ 65535) ∧ 0xE06 < p.regCount ∧
  p.txBufPa.length = p.nTx ∧ p.rxBufPa.length = p.nRx ∧ p.txRingPa.toNat % 16 = 0 ∧ p.rxRingPa.toNat % 16 = 0 ∧
  p.txRingPa.toNat + 16 * p.nTx ≤ 2 ^ 64 ∧ p.rxRingPa.toNat + 16 * p.nRx ≤ 2 ^ 64 ∧
  (∀ i, i < p.nTx → txBufAddr p i + p.maxTx ≤ 2 ^ 64) ∧ (∀ i, i < p.nRx → rxBufAddr p i + p.rxBuf ≤ 2 ^ 64) ∧
  ∀ a,
    ¬ (InRange a p.txRingPa.toNat (16 * p.nTx) ∧ InRange a p.rxRingPa.toNat (16 * p.nRx)) ∧
    (∀ i, i < p.nTx → InRange a (txBufAddr p i) p.maxTx →
      ¬ InRange a p.txRingPa.toNat (16 * p.nTx) ∧ ¬ InRange a p.rxRingPa.toNat (16 * p.nRx) ∧
      (∀ j, j < p.nTx → j ≠ i → ¬ InRange a (txBufAddr p j) p.maxTx) ∧
      ∀ j, j < p.nRx → ¬ InRange a (rxBufAddr p j) p.rxBuf) ∧
    ∀ i, i < p.nRx → InRange a (rxBufAddr p i) p.rxBuf →
      ¬ InRange a p.txRingPa.toNat (16 * p.nTx) ∧ ¬ InRange a p.rxRingPa.toNat (16 * p.nRx) ∧
      ∀ j, j < p.nRx → j ≠ i → ¬ InRange a (rxBufAddr p j) p.rxBuf

/-- R96: the word fits the fields of the ring register at this index: bits that must be 0 or are reserved are 0. Any word
fits another register. -/
def FitsRingRegister (idx : Nat) (w : Word) : Prop :=
  (idx = regTDBAL ∨ idx = regRDBAL → ringBaseLowOk w = true) ∧
  (idx = regTDLEN ∨ idx = regRDLEN → ringLenOk w = true) ∧
  (idx = regTDH ∨ idx = regRDH ∨ idx = regTDT ∨ idx = regRDT → ringIndexOk w = true)

/-- R38: both cursors are in range. -/
def State.TailsInRange (s : State) : Prop := s.txTail.toNat < s.cfg.nTx ∧ s.rxTail.toNat < s.cfg.nRx

/-- R35: every descriptor's `addr` field is its buffer's address. -/
def State.Bound (s : State) : Prop :=
  (∀ i, i < s.cfg.nTx → (s.txDesc i).map (·.addr) = some (txBufPa s.cfg i)) ∧
  (∀ i, i < s.cfg.nRx → (s.rxDesc i).map (·.addr) = some (rxBufPa s.cfg i))

/-- Every byte of the rings and pools holds a value (R260: ATTACH writes them all). -/
def State.Written (s : State) : Prop :=
  (∀ i a, i < s.cfg.nTx → InTxSlot s.cfg i a → (cellRead s.mem a).isSome) ∧
  (∀ i a, i < s.cfg.nRx → InRxSlot s.cfg i a → (cellRead s.mem a).isSome)

/-- Every `length` field fits its buffer (R83, R177). -/
def State.LengthsFit (s : State) : Prop :=
  (∀ i n, i < s.cfg.nTx → s.txLength i = some n → n.toNat ≤ s.cfg.maxTx) ∧
  (∀ i n, i < s.cfg.nRx → s.rxLength i = some n → n.toNat ≤ s.cfg.rxBuf)

/-- The invariant of the machine: an admitted instance, memory and RegShadow in canonical form, and, once attached, R35,
R38, written rings and pools, and lengths that fit. -/
def State.Inv (s : State) : Prop :=
  s.cfg.admitted = true ∧ Memory.wf s.mem ∧ Shadow.wf s.regShadow ∧
  (s.Attached → s.TailsInRange ∧ s.Bound ∧ s.Written ∧ s.LengthsFit)

/-- The platform's extra writes leave both tail registers alone. R36 needs it: an extra write to TDT or RDT would leave
RegShadow apart from the cursor (log 22). -/
def ExtraSparesTails (p : Params) : Prop := ∀ w ∈ p.extra, w.1 ≠ regTDT ∧ w.1 ≠ regRDT

/-- R36: RegShadow of the tail registers is the cursors. -/
def State.TailsMirrored (s : State) : Prop :=
  s.shadow regTDT = some (s.txTail.setWidth 32) ∧ s.shadow regRDT = some (s.rxTail.setWidth 32)

/-- R37: the slot at the RX tail is device-owned. -/
def State.RxTailDeviceOwned (s : State) : Prop :=
  ∃ st, s.rxStatus s.rxTail.toNat = some st ∧ isDone st = false

/-- R220: under ring order every TX slot is queued and the head equals the tail register. -/
def State.TxStuck (s : State) : Prop :=
  s.cfg.order = .ring ∧ s.Attached ∧ (∀ i, i < s.cfg.nTx → s.txState i = some .queued) ∧
  s.shadow regTDT = some (s.txHead.setWidth 32)

/-- The state right after a successful ATTACH as far as the TX ring goes (R135, R261). -/
def State.TxFresh (s : State) : Prop :=
  s.Running ∧ s.txTail = 0#16 ∧ ∀ i, i < s.cfg.nTx → s.txState i = some .free

/-- Execute instructions one after the other, with no device step between them. -/
def execAll : List Instr → State → Host.Outcome State Fault Refusal
  | [], s => .next s
  | i :: is, s =>
    match exec i s with
    | .next s' => execAll is s'
    | .fault f => .fault f
    | .refused r => .refused r

/-- Is the instruction an engine command (opcode_table.json "agent")? The others are device events. -/
def isCommand : Instr → Bool
  | .attach => true
  | .transmit _ => true
  | .receive => true
  | .devTxdone _ => false
  | .devRxfill _ _ _ => false

end Sys2Proof.Machine
end

