-- ==== Sys2Proof/Certificates/Slice0/Obligations.lean ====
section
/-! DEFINITION. The statements for the provers, from the numbered rules of spec/. Each docstring names the rules it
formalises and, where a clause rests on a choice of the model, the log entry. -/

open Sys2Proof Sys2Proof.Machine

/-! ### Encoding (spec/30_encoding.md) -/

/-- Words of spec/95_test_vectors.md 2.1 (DC-1, DC-2, DC-4, DC-7, DC-8, DC-12, DC-13, DC-16, DC-18, DC-19, DC-23, DC-24)
decode as their rows say (R103, R104, R108). -/
def Obligations.SpecWordsDecode : Prop :=
  decodeInput (.command 0x00000001#32) = .ok .attach ∧
  decodeInput (.command 0x00000003#32) = .ok .receive ∧
  decodeInput (.command 0x00040002#32) = .ok (.transmit 4#16) ∧
  decodeInput (.command 0xFFFF0002#32) = .ok (.transmit 65535#16) ∧
  decodeInput (.command 0x00000000#32) = .error .illegalCommand ∧
  decodeInput (.command 0x00008002#32) = .error .illegalCommand ∧
  decodeInput (.command 0x00010001#32) = .error .illegalCommand ∧
  decodeInput (.event [0x00070008#32] []) = .ok (.devTxdone 7#16) ∧
  decodeInput (.event [0x00000018#32] []) = .error .illegalEvent ∧
  decodeInput (.event [0x00000019#32, 0x00000003#32] [1#8, 2#8, 3#8]) = .ok (.devRxfill 0#16 true 3#16) ∧
  decodeInput (.event [0x00000019#32, 0x00010003#32] []) = .error .illegalEvent ∧
  decodeInput (.event [0x0000000A#32] []) = .error .illegalEvent

/-- Decoding an encoded instruction gives it back, for every instruction and every operand value (R103–R105). -/
def Obligations.DecodeOfEncode : Prop :=
  ∀ (i : Instr) (data : List Byte), decodeInput (encodeInput i data) = .ok i

/-- Each word has one meaning: an entry that decodes is the encoding of what it decodes to (R103, R104). -/
def Obligations.EncodeOfDecode : Prop :=
  ∀ (inp : Input) (i : Instr), decodeInput inp = .ok i → inp = encodeInput i inp.data

/-- R108, whole: which command words and which event words spell nothing, and that such a word is refused with nothing but
the refusal mark changed (the entry is off the schedule, the model's own field). -/
def Obligations.IllegalWordsAreRefused : Prop :=
  (∀ (p : Params) (w : Word), admitInput p (.command w) = .error .illegalCommand ↔
    (fieldOp w ≠ 0x1#4 ∧ fieldOp w ≠ 0x2#4 ∧ fieldOp w ≠ 0x3#4) ∨ commandReserved w ≠ 0#12 ∨
    ((fieldOp w = 0x1#4 ∨ fieldOp w = 0x3#4) ∧ fieldHigh w ≠ 0#16)) ∧
  (∀ (p : Params) (w : Word) (data : List Byte), fieldOp w ≠ 0x9#4 →
    (admitInput p (.event [w] data) = .error .illegalEvent ↔
      fieldOp w ≠ 0x8#4 ∨ eventReserved w ≠ 0#11 ∨ fieldE w = true ∨ p.nTx ≤ (fieldHigh w).toNat)) ∧
  (∀ (p : Params) (w w2 : Word) (data : List Byte), fieldOp w = 0x9#4 →
    (admitInput p (.event [w, w2] data) = .error .illegalEvent ↔
      eventReserved w ≠ 0#11 ∨ p.nRx ≤ (fieldHigh w).toNat ∨ p.rxBuf < (fieldLow w2).toNat ∨ fieldHigh w2 ≠ 0#16)) ∧
  (∀ (s : State) (inp : Input) (rest : List Input) (r : Refusal), s.inputs = inp :: rest →
    admitInput s.cfg inp = .error r →
    step s = .next { s with inputs := rest, devData := inp.data, refused := s.refused.or (some r) })

/-- R239: a word that spells nothing sets the refused mark and changes no other state; the mark is never cleared; the
reasons are IllegalCommand and IllegalEvent; a refused state is not good. The entry leaves the schedule and its data stand
in the latch, the model's own fields (log 7). -/
def Obligations.RefusalIsPermanent : Prop :=
  (∀ (p : Params) (inp : Input) (r : Refusal), admitInput p inp = .error r → r = .illegalCommand ∨ r = .illegalEvent) ∧
  (∀ (s : State) (inp : Input) (rest : List Input) (r : Refusal), s.inputs = inp :: rest →
    admitInput s.cfg inp = .error r → s.refused = none →
    step s = .next { s with inputs := rest, devData := inp.data, refused := some r }) ∧
  (∀ (s s' : State) (r : Refusal), s.refused = some r → step s = .next s' → s'.refused = some r) ∧
  (∀ s : State, s.refused.isSome → ¬ s.Good)

/-- The 16 bytes of a descriptor spell it, for every descriptor, and the bytes of two descriptors are those of vectors AT-9
and TX-11 (R80, R84, R56). -/
def Obligations.DescriptorLayout : Prop :=
  (∀ d : TxDesc, txDescOfBytes (txDescBytes d) = some d) ∧
  (∀ d : RxDesc, rxDescOfBytes (rxDescBytes d) = some d) ∧
  txDescBytes (txDescInit 0x00200800#64) =
    [0x00#8, 0x08#8, 0x20#8, 0#8, 0#8, 0#8, 0#8, 0#8, 0#8, 0#8, 0#8, 0#8, 0x01#8, 0#8, 0#8, 0#8] ∧
  txDescBytes { txDescInit 0x00200000#64 with length := 4#16, cmd := 0x09#8, status := 0#8 } =
    [0x00#8, 0x00#8, 0x20#8, 0#8, 0#8, 0#8, 0#8, 0#8, 0x04#8, 0#8, 0#8, 0x09#8, 0#8, 0#8, 0#8, 0#8]

/-- R121: the ring successor is i + 1, or 0 from the last slot, and a cursor in range stays in range. -/
def Obligations.RingSuccessor : Prop :=
  ∀ (n i : Nat), i < n → nextIdx n i = (if i < n - 1 then i + 1 else 0) ∧ nextIdx n i < n

/-- R123 and R87: the accessors change the bits they name and no others, and the descriptor state is what R87's table
says, for every byte. -/
def Obligations.AccessorsAndStates : Prop :=
  ∀ b : Byte,
    (∀ k, k < 8 → (clearDone b).getLsbD k = (b.getLsbD k && decide (k ≠ 0))) ∧
    (∀ k, k < 8 → (clearDoneEop b).getLsbD k = (b.getLsbD k && decide (k ≠ 0 ∧ k ≠ 1))) ∧
    (∀ k, k < 8 → (setDone b).getLsbD k = (b.getLsbD k || decide (k = 0))) ∧
    (∀ k, k < 8 → (setCmdEopRs b).getLsbD k = (b.getLsbD k || decide (k = 0 ∨ k = 3))) ∧
    (txStateOf b = .free ↔ b.getLsbD 0 = true) ∧ (txStateOf b = .queued ↔ b.getLsbD 0 = false) ∧
    (rxStateOf b = .empty ↔ b.getLsbD 0 = false) ∧
    (rxStateOf b = .full ↔ b.getLsbD 0 = true ∧ b.getLsbD 1 = true) ∧
    (rxStateOf b = .frag ↔ b.getLsbD 0 = true ∧ b.getLsbD 1 = false) ∧
    (ownerOf b = .software ↔ b.getLsbD 0 = true) ∧ (ownerOf b = .device ↔ b.getLsbD 0 = false)

/-- R96: what the block writes to its ring registers. In an admitted instance every word of ATTACH's ring writes fits its
register's fields and none is truncated; and whatever instruction executes, RegLog only grows, and every new `Wr` entry
fits its register's fields: ATTACH's bases, lengths, heads and tails, and the tails that TRANSMIT and RECEIVE write. The
premise on EXTRA_ATTACH_WRITES is the platform's duty: the block writes those words as they are given. -/
def Obligations.RingRegisterFields : Prop :=
  (∀ (p : Params) (w : Nat × Word), p.admitted = true → w ∈ ringWrites p →
    FitsRingRegister w.1 w.2 ∧ (w.1 = regTDLEN → w.2.toNat = 16 * p.nTx) ∧ (w.1 = regRDLEN → w.2.toNat = 16 * p.nRx) ∧
    (w.1 = regRDT → w.2.toNat = p.nRx - 1)) ∧
  (∀ (s s' : State) (i : Instr), s.cfg.admitted = true → (∀ w ∈ s.cfg.extra, FitsRingRegister w.1 w.2) →
    exec i s = .next s' → ∃ new : List RegEntry, s'.regLog = s.regLog ++ new ∧
      ∀ e ∈ new, ∀ (idx : Nat) (v : Word), e.op = .wr idx v → FitsRingRegister idx v)

/-! ### Steps, reset and instances -/

/-- When the next entry decodes to a well-formed instruction, step is exec of it, with the entry taken off the schedule
and its data bytes in the latch (R65; log 7). -/
def Obligations.StepRunsDecoded : Prop :=
  ∀ (s : State) (inp : Input) (rest : List Input) (i : Instr), s.inputs = inp :: rest → decodeInput inp = .ok i →
    i.wf s.cfg = true → step s = exec i { s with inputs := rest, devData := inp.data }

/-- With nothing presented the block does nothing (R250). -/
def Obligations.IdleStep : Prop :=
  ∀ s : State, s.inputs = [] → step s = .next s

/-- R260's table, for every instance: the reset value of every piece of state the spec gives. That the host's reset is the
reference instance's is the model's choice (log 2), and so are the empty ports (log 9, log 10) and the 0 of the four
cursors, for which the spec gives no value (log 12). -/
def Obligations.ResetValues : Prop :=
  State.reset = State.resetWith Params.reference ∧
  ∀ p : Params, let s := State.resetWith p
    s.life = .unattached ∧ lifeCode s.life = 0#2 ∧ s.txTail = 0#16 ∧ s.rxTail = 0#16 ∧
    s.result = 0x00000000#32 ∧
    (∀ i, s.txDesc i = none ∧ s.rxDesc i = none) ∧ (∀ a, cellRead s.mem a = none) ∧ (∀ idx, s.shadow idx = none) ∧
    s.regLog = [] ∧ s.txWire = [] ∧ s.txHead = 0#16 ∧ s.rxHead = 0#16 ∧
    s.fault = none ∧ s.refused = none ∧ s.cmdCount = 0 ∧ s.dataIn = [] ∧ s.dataOut = []

/-- An instance starts, in its reset state, when the spec admits it (R6, R7, R8, R52, R57, written out as SpecAdmits), and
every other instance is refused. The name of the refusal and the place where it is made are the model's (log 17). -/
def Obligations.OnlyAdmittedInstancesStart : Prop :=
  ∀ p : Params,
    (SpecAdmits p → State.instantiate p = .next (State.resetWith p)) ∧
    (¬ SpecAdmits p → State.instantiate p = .refused .instanceNotAdmitted)

/-- The invariant holds at reset, of the host's machine and of every admitted instance. -/
def Obligations.InvAtReset : Prop :=
  State.reset.Inv ∧ ∀ p : Params, p.admitted = true → (State.resetWith p).Inv

/-! ### Invariants every step keeps -/

/-- Every step keeps the invariant: the instance admitted, memory and RegShadow canonical, and once attached the cursors in
range (R38), every descriptor bound to its buffer (R35 in READY and HALTED; log 21), every byte of rings and pools
written, every length within its buffer. -/
def Obligations.StepKeepsInv : Prop :=
  ∀ s s' : State, s.Inv → step s = .next s' → s'.Inv

/-- No step changes a parameter (R6, R30), and every step keeps the canonical form of memory and of RegShadow, from any
state. -/
def Obligations.StepKeepsInstanceAndCanonicalForm : Prop :=
  ∀ s s' : State, step s = .next s' →
    s'.cfg = s.cfg ∧ (Memory.wf s.mem → Memory.wf s'.mem) ∧ (Shadow.wf s.regShadow → Shadow.wf s'.regShadow)

/-- R36: every step keeps RegShadow[TDT] and RegShadow[RDT] equal to the cursors, once attached, where the platform's extra
writes leave the tail registers alone (log 22). -/
def Obligations.StepKeepsTailMirror : Prop :=
  ∀ s s' : State, s.cfg.admitted = true → ExtraSparesTails s.cfg → (s.Attached → s.TailsMirrored) →
    step s = .next s' → s'.Attached → s'.TailsMirrored

/-- R37 under DEVICE_ORDER = ring: every step keeps the slot at the RX tail device-owned. -/
def Obligations.StepKeepsRxTailDeviceOwned : Prop :=
  ∀ s s' : State, s.Inv → ExtraSparesTails s.cfg → s.cfg.order = .ring →
    (s.Attached → s.TailsMirrored ∧ s.RxTailDeviceOwned) → step s = .next s' → s'.Attached → s'.RxTailDeviceOwned

/-- R37 under DEVICE_ORDER = free: not held. A step from a good state can break it. -/
def Obligations.RxTailNotHeldUnderFree : Prop :=
  ∃ s s' : State, s.Inv ∧ s.Good ∧ s.cfg.order = .free ∧ s.TailsMirrored ∧ s.RxTailDeviceOwned ∧
    step s = .next s' ∧ s'.Good ∧ ¬ s'.RxTailDeviceOwned

/-- R237: the only lifecycle transitions, and what makes each. -/
def Obligations.LifecycleTransitions : Prop :=
  ∀ s s' : State, step s = .next s' →
    s'.life = s.life ∨
    (s.life = .unattached ∧ s'.life = .ready ∧ fetch s = some (.ok .attach) ∧ s'.result = 0x00000000#32) ∨
    (s.life = .unattached ∧ s'.life = .failed ∧ fetch s = some (.ok .attach) ∧ s'.result = 0x00000005#32) ∨
    (s.life = .ready ∧ s'.life = .halted ∧ fetch s = some (.ok .receive) ∧ s'.result = 0x00000004#32)

/-- R238: a fault is never cleared or replaced, after it no engine command takes a step, and a faulted state is not good. -/
def Obligations.FaultIsPermanentAndStops : Prop :=
  (∀ (s s' : State) (f : Fault), s.fault = some f → step s = .next s' → s'.fault = some f) ∧
  (∀ (s : State) (i : Instr), s.fault.isSome → isCommand i = true → exec i s = .next s) ∧
  (∀ s : State, s.fault.isSome → ¬ s.Good)

/-- R238: from a state that meets the invariant only NotAttached, ReAttach and RegOutOfRange can be raised, each by the
command the rule names; the other three faults are unreachable. -/
def Obligations.OnlyReachableFaults : Prop :=
  ∀ s s' : State, s.Inv → s.fault = none → step s = .next s' →
    s'.fault = none ∨
    (s'.fault = some .notAttached ∧ s.life = .unattached ∧
      (fetch s = some (.ok .receive) ∨ ∃ len, fetch s = some (.ok (.transmit len)))) ∨
    (s'.fault = some .reAttach ∧ s.life = .ready ∧ fetch s = some (.ok .attach)) ∨
    (s'.fault = some .regOutOfRange ∧ s.life = .unattached ∧ fetch s = some (.ok .attach) ∧
      ∃ w ∈ s.cfg.extra, s.cfg.regCount ≤ w.1)

/-- R33: cmd_count counts exactly the engine commands that take a step, faulting ones included. -/
def Obligations.CommandCount : Prop :=
  ∀ s s' : State, step s = .next s' →
    ((∃ i, fetch s = some (.ok i) ∧ isCommand i = true ∧ s.fault = none ∧
        (s.life = .unattached ∨ s.life = .ready)) → s'.cmdCount = s.cmdCount + 1) ∧
    (¬ (∃ i, fetch s = some (.ok i) ∧ isCommand i = true ∧ s.fault = none ∧
        (s.life = .unattached ∨ s.life = .ready)) → s'.cmdCount = s.cmdCount)

/-! ### The lifecycle table (spec/60_exceptions.md) -/

/-- R236's table where a command or event does not execute: NotAttached is taken (the command counted, R33), no step
changes nothing (log 5), a device event is not enabled. ReAttach is the next statement's. -/
def Obligations.LifecycleTable : Prop :=
  (∀ (s : State) (len : Half), s.fault = none → s.life = .unattached →
    exec (.transmit len) s = .next { s with cmdCount := s.cmdCount + 1, fault := some .notAttached }) ∧
  (∀ s : State, s.fault = none → s.life = .unattached →
    exec .receive s = .next { s with cmdCount := s.cmdCount + 1, fault := some .notAttached }) ∧
  (∀ (s : State) (i : Instr), s.life = .halted ∨ s.life = .failed → isCommand i = true → exec i s = .next s) ∧
  (∀ (s : State) (i : Instr), s.life = .unattached ∨ s.life = .failed → isCommand i = false → exec i s = .next s)

/-- R262: a second ATTACH faults and does nothing else. -/
def Obligations.SecondAttachFaults : Prop :=
  ∀ s : State, s.Running → exec .attach s = .next { s with cmdCount := s.cmdCount + 1, fault := some .reAttach }

/-! ### ATTACH (spec/43_attach.md) -/

/-- ATTACH in UNATTACHED, when the drawn STATUS word passes and every extra write is in the window: it goes to READY with
the cursors, rings, pools and RegLog of R191, result OK, and nothing else of the state changed but RegShadow and, under
ring, the heads. The STATUS word is a free value (log 11). -/
def Obligations.AttachSucceeds : Prop :=
  ∀ s : State, s.life = .unattached → s.fault = none → s.cfg.admitted = true →
    Config.freeStatus s.draws ∈ s.cfg.attachOk → (∀ w ∈ s.cfg.extra, w.1 < s.cfg.regCount) →
    ∃ t : State, exec .attach s = .next t ∧ t.life = .ready ∧ t.result = 0x00000000#32 ∧ t.fault = none ∧
      t.txTail = 0#16 ∧ t.rxTail = BitVec.ofNat 16 (s.cfg.nRx - 1) ∧
      t.cmdCount = s.cmdCount + 1 ∧ t.draws = s.draws + 1 ∧ t.mem = initMem s.cfg s.mem ∧
      t.regLog = s.regLog ++ ([
        RegOp.rd 0x002 (Config.freeStatus s.draws),
        .wr 0xE00 (s.cfg.txRingPa.extractLsb' 0 32), .wr 0xE01 (s.cfg.txRingPa.extractLsb' 32 32),
        .wr 0xE02 (BitVec.ofNat 32 (16 * s.cfg.nTx)), .wr 0xE04 0#32, .wr 0xE06 0#32,
        .wr 0x100 s.cfg.tctlVal, .wr 0x104 s.cfg.tipgVal,
        .wr 0xA00 (s.cfg.rxRingPa.extractLsb' 0 32), .wr 0xA01 (s.cfg.rxRingPa.extractLsb' 32 32),
        .wr 0xA02 (BitVec.ofNat 32 (16 * s.cfg.nRx)), .wr 0xA04 0#32, .wr 0xA06 (BitVec.ofNat 32 (s.cfg.nRx - 1))]
        ++ s.cfg.extra.map (fun w : Nat × Word => RegOp.wr w.1 w.2) ++ [RegOp.wr 0x040 s.cfg.rctlVal]).map
          (fun op => RegEntry.mk (s.cmdCount + 1) op) ∧
      t.cfg = s.cfg ∧ t.txWire = s.txWire ∧ t.refused = s.refused ∧ t.dataIn = s.dataIn ∧ t.dataOut = s.dataOut ∧
      t.inputs = s.inputs ∧ t.devData = s.devData ∧
      (s.cfg.order = .free → t.txHead = s.txHead ∧ t.rxHead = s.rxHead)

/-- What RegShadow and, under ring, the heads hold right after a successful ATTACH (R261), with any EXTRA_ATTACH_WRITES:
RCTL's value always; each of the other twelve values where no extra write names its register; the last extra write to any
register but RCTL; what was there before anywhere else. Each head is 0 (R32, R216) where no extra write names its register,
and else the low 16 bits of the last one, which is the model's reading (log 15). -/
def Obligations.AttachShadow : Prop :=
  ∀ s t : State, s.life = .unattached → s.fault = none → s.cfg.admitted = true →
    (∀ w ∈ s.cfg.extra, w.1 < s.cfg.regCount) → Config.freeStatus s.draws ∈ s.cfg.attachOk →
    exec .attach s = .next t →
    let own : List (Nat × Word) := [
      (0xE00, s.cfg.txRingPa.extractLsb' 0 32), (0xE01, s.cfg.txRingPa.extractLsb' 32 32),
      (0xE02, BitVec.ofNat 32 (16 * s.cfg.nTx)), (0xE04, 0#32), (0xE06, 0#32),
      (0x100, s.cfg.tctlVal), (0x104, s.cfg.tipgVal),
      (0xA00, s.cfg.rxRingPa.extractLsb' 0 32), (0xA01, s.cfg.rxRingPa.extractLsb' 32 32),
      (0xA02, BitVec.ofNat 32 (16 * s.cfg.nRx)), (0xA04, 0#32), (0xA06, BitVec.ofNat 32 (s.cfg.nRx - 1))]
    t.shadow 0x040 = some s.cfg.rctlVal ∧
    (∀ r ∈ own, (∀ w ∈ s.cfg.extra, w.1 ≠ r.1) → t.shadow r.1 = some r.2) ∧
    (∀ (pre post : List (Nat × Word)) (idx : Nat) (v : Word), s.cfg.extra = pre ++ (idx, v) :: post →
      (∀ w ∈ post, w.1 ≠ idx) → idx ≠ 0x040 → t.shadow idx = some v) ∧
    (∀ idx, idx ≠ 0x040 → (∀ r ∈ own, r.1 ≠ idx) → (∀ w ∈ s.cfg.extra, w.1 ≠ idx) → t.shadow idx = s.shadow idx) ∧
    (s.cfg.order = .ring →
      ((∀ w ∈ s.cfg.extra, w.1 ≠ 0xE04) → t.txHead = 0#16) ∧
      ((∀ w ∈ s.cfg.extra, w.1 ≠ 0xA04) → t.rxHead = 0#16) ∧
      ∀ (pre post : List (Nat × Word)) (v : Word),
        (s.cfg.extra = pre ++ (0xE04, v) :: post → (∀ w ∈ post, w.1 ≠ 0xE04) →
          t.txHead = v.extractLsb' 0 16) ∧
        (s.cfg.extra = pre ++ (0xA04, v) :: post → (∀ w ∈ post, w.1 ≠ 0xA04) →
          t.rxHead = v.extractLsb' 0 16))

/-- R192, R194 (and the rings and pools of R261): right after a successful ATTACH every descriptor of both rings is zeroed, bound and marked, for all N
slots, and every buffer byte is 0. -/
def Obligations.AttachMakesRings : Prop :=
  ∀ s t : State, s.cfg.admitted = true → s.life = .unattached → exec .attach s = .next t → t.life = .ready →
    (∀ i, i < s.cfg.nTx →
      t.txDesc i = some { addr := txBufPa s.cfg i, length := 0#16, cso := 0x00#8, cmd := 0x00#8, status := 0x01#8,
                          css := 0x00#8, special := 0#16 } ∧
      t.txBufBytes i s.cfg.maxTx = some (List.replicate s.cfg.maxTx 0x00#8) ∧ t.txState i = some .free) ∧
    (∀ i, i < s.cfg.nRx →
      t.rxDesc i = some { addr := rxBufPa s.cfg i, length := 0#16, csum := 0#16, status := 0x00#8, errors := 0x00#8,
                          special := 0#16 } ∧
      t.rxBufBytes i s.cfg.rxBuf = some (List.replicate s.cfg.rxBuf 0x00#8) ∧ t.rxState i = some .empty)

/-- R190, R235: when the STATUS word fails, ATTACH returns AttachFailure, goes to FAILED and touches nothing else of the
spec's state but cmd_count and the one logged read. The STATUS word is a free value, and the draw counter that advances is
the model's own (log 11). -/
def Obligations.AttachFails : Prop :=
  ∀ s : State, s.life = .unattached → s.fault = none → s.cfg.admitted = true →
    Config.freeStatus s.draws ∉ s.cfg.attachOk →
    exec .attach s = .next { s with
      life := .failed
      result := 0x00000005#32
      cmdCount := s.cmdCount + 1
      draws := s.draws + 1
      regLog := s.regLog ++ [⟨s.cmdCount + 1, .rd 0x002 (Config.freeStatus s.draws)⟩] }

/-- R191's corner case (vector AT-7): an extra write outside the window faults, the writes before it stay, life stays
UNATTACHED, RCTL is not written and no result is returned. -/
def Obligations.AttachExtraOutOfWindow : Prop :=
  ∀ (s : State) (pre post : List (Nat × Word)) (idx : Nat) (v : Word), s.life = .unattached → s.fault = none →
    s.cfg.admitted = true → Config.freeStatus s.draws ∈ s.cfg.attachOk → s.cfg.extra = pre ++ (idx, v) :: post →
    (∀ w ∈ pre, w.1 < s.cfg.regCount) → s.cfg.regCount ≤ idx →
    ∃ t : State, exec .attach s = .next t ∧ t.fault = some .regOutOfRange ∧ t.life = .unattached ∧
      t.result = s.result ∧ t.cmdCount = s.cmdCount + 1 ∧ t.mem = initMem s.cfg s.mem ∧
      t.regLog = s.regLog ++ (RegOp.rd 0x002 (Config.freeStatus s.draws) ::
        (ringWrites s.cfg ++ pre).map (fun w : Nat × Word => RegOp.wr w.1 w.2)).map (fun op => RegEntry.mk (s.cmdCount + 1) op)

/-- Frame of ATTACH, on every path and from any state: every byte outside the slots reads as before, and the fields it does
not write are unchanged. -/
def Obligations.AttachFrame : Prop :=
  ∀ s t : State, exec .attach s = .next t →
    t.cfg = s.cfg ∧ t.txWire = s.txWire ∧ t.refused = s.refused ∧ t.dataIn = s.dataIn ∧ t.dataOut = s.dataOut ∧
    t.inputs = s.inputs ∧ t.devData = s.devData ∧ (s.cfg.order = .free → t.txHead = s.txHead ∧ t.rxHead = s.rxHead) ∧
    ∀ a, (∀ i, i < s.cfg.nTx → ¬ InTxSlot s.cfg i a) → (∀ i, i < s.cfg.nRx → ¬ InRxSlot s.cfg i a) →
      cellRead t.mem a = cellRead s.mem a

/-! ### TRANSMIT (spec/41_transmit.md) -/

/-- A packet is queued: the next state, whole (R150, writes in R67's order). Payload bytes the caller did not present are
free values (log 9). -/
def Obligations.TransmitQueues : Prop :=
  ∀ (s : State) (len t : Half) (c st : Byte), s.Running → s.cfg.admitted = true → s.txTail = t →
    t.toNat < s.cfg.nTx → s.txStatus t.toNat = some st → st.getLsbD 0 = true →
    cellRead s.mem (txDescAddr s.cfg t.toNat + 11) = some c → len.toNat ≤ s.cfg.maxTx →
    exec (.transmit len) s = .next { s with
      cmdCount := s.cmdCount + 1
      dataIn := s.dataIn.drop len.toNat
      draws := s.draws + (len.toNat - s.dataIn.length)
      mem := cellWrite (cellWrite (cellWrite (cellWrite s.mem
        (txBufAddr s.cfg t.toNat) (takeBytes s.dataIn len.toNat s.draws))
        (txDescAddr s.cfg t.toNat + 8) (halfBytes len))
        (txDescAddr s.cfg t.toNat + 11) [c ||| 0x09#8])
        (txDescAddr s.cfg t.toNat + 12) [st &&& 0xFE#8]
      txTail := BitVec.ofNat 16 ((t.toNat + 1) % s.cfg.nTx)
      regShadow := cellWrite s.regShadow 0xE06 [(BitVec.ofNat 16 ((t.toNat + 1) % s.cfg.nTx)).setWidth 32]
      regLog := s.regLog ++
        [⟨s.cmdCount + 1, .wr 0xE06 ((BitVec.ofNat 16 ((t.toNat + 1) % s.cfg.nTx)).setWidth 32)⟩]
      result := 0x00000000#32 }

/-- R152: what a successful TRANSMIT does. Exactly one descriptor becomes device-owned, the only buffer bytes that may
change are the first LEN of that slot's buffer, the tail advances by one modulo N_TX, and the doorbell is the one
transaction. -/
def Obligations.TransmitEffect : Prop :=
  ∀ (s s' : State) (len t : Half), s.Inv → s.Running → s.txTail = t → len.toNat ≤ s.cfg.maxTx →
    s.txState t.toNat = some .free → exec (.transmit len) s = .next s' →
    s'.txState t.toNat = some .queued ∧
    (∀ i, i < s.cfg.nTx → i ≠ t.toNat → s'.txState i = s.txState i) ∧
    (∀ i, i < s.cfg.nRx → s'.rxState i = s.rxState i) ∧
    (∀ i a, i < s.cfg.nTx → InRange a (txBufAddr s.cfg i) s.cfg.maxTx →
      ¬ InRange a (txBufAddr s.cfg t.toNat) len.toNat → cellRead s'.mem a = cellRead s.mem a) ∧
    (∀ i a, i < s.cfg.nRx → InRxSlot s.cfg i a → cellRead s'.mem a = cellRead s.mem a) ∧
    s'.txTail = BitVec.ofNat 16 ((t.toNat + 1) % s.cfg.nTx) ∧
    s'.regLog = s.regLog ++
      [⟨s'.cmdCount, .wr 0xE06 ((BitVec.ofNat 16 ((t.toNat + 1) % s.cfg.nTx)).setWidth 32)⟩]

/-- R150 and vector W1, read back: length, command bits, ownership bit and payload of the slot; addr, cso, css and special
as they were. -/
def Obligations.TransmitReadBack : Prop :=
  ∀ (s s' : State) (len t : Half) (d : TxDesc), s.Inv → s.Running → s.txTail = t → len.toNat ≤ s.cfg.maxTx →
    s.txDesc t.toNat = some d → isDone d.status = true → exec (.transmit len) s = .next s' →
    s'.txDesc t.toNat = some { d with length := len, cmd := d.cmd ||| 0x09#8, status := d.status &&& 0xFE#8 } ∧
    s'.txBufBytes t.toNat len.toNat = some (takeBytes s.dataIn len.toNat s.draws) ∧
    (len.toNat ≤ s.dataIn.length → takeBytes s.dataIn len.toNat s.draws = s.dataIn.take len.toNat) ∧
    s'.result = 0x00000000#32

/-- R231: PacketTooLarge, whatever the tail slot holds. The payload the caller presented is consumed; where it is shorter
than LEN the missing bytes are drawn, and the draw counter is the model's own (log 9). -/
def Obligations.TransmitTooLarge : Prop :=
  ∀ (s : State) (len : Half), s.Running → s.cfg.maxTx < len.toNat →
    exec (.transmit len) s = .next { s with
      cmdCount := s.cmdCount + 1
      dataIn := s.dataIn.drop len.toNat
      draws := s.draws + (len.toNat - s.dataIn.length)
      result := 0x00000001#32 }

/-- R232: RingFull. The payload the caller presented is consumed; where it is shorter than LEN the missing bytes are drawn,
and the draw counter is the model's own (log 9). -/
def Obligations.TransmitRingFull : Prop :=
  ∀ (s : State) (len t : Half) (st : Byte), s.Running → len.toNat ≤ s.cfg.maxTx → s.txTail = t →
    t.toNat < s.cfg.nTx → s.txStatus t.toNat = some st → st.getLsbD 0 = false →
    exec (.transmit len) s = .next { s with
      cmdCount := s.cmdCount + 1
      dataIn := s.dataIn.drop len.toNat
      draws := s.draws + (len.toNat - s.dataIn.length)
      result := 0x00000002#32 }

/-- R153: a TRANSMIT that does not return OK changes nothing but the result, the consumed payload and cmd_count. That a
short payload advances the draw counter is the model's (log 9). -/
def Obligations.FailedTransmitChangesNothing : Prop :=
  ∀ (s s' : State) (len : Half), s.Inv → s.Running → exec (.transmit len) s = .next s' → s'.result ≠ 0x00000000#32 →
    s' = { s with
      cmdCount := s.cmdCount + 1
      dataIn := s.dataIn.drop len.toNat
      draws := s.draws + (len.toNat - s.dataIn.length)
      result := s'.result }

/-- R151: a TRANSMIT that returns OK makes exactly one register transaction, Wr(TDT, new tail); one that does not makes
none. -/
def Obligations.TransmitRegisterTraffic : Prop :=
  ∀ (s s' : State) (len : Half), s.Inv → s.Running → exec (.transmit len) s = .next s' →
    (s'.result = 0x00000000#32 →
      s'.regLog = s.regLog ++ [⟨s.cmdCount + 1, .wr 0xE06 (s'.txTail.setWidth 32)⟩]) ∧
    (s'.result ≠ 0x00000000#32 → s'.regLog = s.regLog)

/-- R156: every TRANSMIT in READY returns in the same step with OK, PacketTooLarge or RingFull. -/
def Obligations.TransmitAlwaysReturns : Prop :=
  ∀ (s : State) (len : Half), s.Inv → s.Running → ∃ s' : State, exec (.transmit len) s = .next s' ∧ s'.Running ∧
    (s'.result = 0x00000000#32 ∨ s'.result = 0x00000001#32 ∨ s'.result = 0x00000002#32)

/-- Frame of TRANSMIT, on every path and from any state: every byte outside the first LEN of the tail slot's buffer and its
length, cmd and status fields reads as before, and the fields it does not write are unchanged. -/
def Obligations.TransmitFrame : Prop :=
  ∀ (s s' : State) (len : Half), exec (.transmit len) s = .next s' →
    s'.cfg = s.cfg ∧ s'.life = s.life ∧ s'.rxTail = s.rxTail ∧ s'.txHead = s.txHead ∧ s'.rxHead = s.rxHead ∧
    s'.txWire = s.txWire ∧ s'.refused = s.refused ∧ s'.dataOut = s.dataOut ∧ s'.inputs = s.inputs ∧
    s'.devData = s.devData ∧ (∀ idx, idx ≠ 0xE06 → s'.shadow idx = s.shadow idx) ∧
    ∀ a, ¬ InRange a (txBufAddr s.cfg s.txTail.toNat) len.toNat → ¬ InRange a (txDescAddr s.cfg s.txTail.toNat + 8) 2 →
      a ≠ txDescAddr s.cfg s.txTail.toNat + 11 → a ≠ txDescAddr s.cfg s.txTail.toNat + 12 →
      cellRead s'.mem a = cellRead s.mem a

/-! ### RECEIVE (spec/42_receive.md) -/

/-- A frame is taken from the candidate, the slot after the tail: the next state, whole (R170). -/
def Obligations.ReceiveTakesFrame : Prop :=
  ∀ (s : State) (t n : Half) (c : Nat) (st : Byte) (bytes : List Byte), s.Running → s.cfg.admitted = true →
    s.rxTail = t → c = (t.toNat + 1) % s.cfg.nRx → s.rxStatus c = some st → st.getLsbD 0 = true →
    st.getLsbD 1 = true → s.rxLength c = some n → n.toNat ≤ s.cfg.rxBuf →
    cellReadN s.mem (rxBufAddr s.cfg c) n.toNat = some bytes →
    exec .receive s = .next { s with
      cmdCount := s.cmdCount + 1
      dataOut := s.dataOut ++ bytes
      mem := cellWrite s.mem (rxDescAddr s.cfg c + 12) [st &&& 0xFC#8]
      rxTail := BitVec.ofNat 16 c
      regShadow := cellWrite s.regShadow 0xA06 [(BitVec.ofNat 16 c).setWidth 32]
      regLog := s.regLog ++ [⟨s.cmdCount + 1, .wr 0xA06 ((BitVec.ofNat 16 c).setWidth 32)⟩]
      result := (n ++ 0x0000#16 : BitVec 32) }

/-- R175: what a successful RECEIVE does. Exactly one descriptor goes back to the device, the tail is the candidate, the
doorbell is the one transaction, and the caller gets the `length` bytes of the candidate's buffer. -/
def Obligations.ReceiveEffect : Prop :=
  ∀ (s s' : State) (t : Half) (c : Nat), s.Inv → s.Running → s.rxTail = t → c = (t.toNat + 1) % s.cfg.nRx →
    s.rxState c = some .full → exec .receive s = .next s' →
    s'.rxState c = some .empty ∧
    (∀ i, i < s.cfg.nRx → i ≠ c → s'.rxState i = s.rxState i) ∧ (∀ i, i < s.cfg.nTx → s'.txState i = s.txState i) ∧
    s'.rxTail = BitVec.ofNat 16 c ∧
    s'.regLog = s.regLog ++ [⟨s'.cmdCount, .wr 0xA06 ((BitVec.ofNat 16 c).setWidth 32)⟩] ∧
    ∃ (n : Half) (bytes : List Byte), s.rxLength c = some n ∧ s.rxBufBytes c n.toNat = some bytes ∧
      bytes.length = n.toNat ∧ s'.dataOut = s.dataOut ++ bytes ∧ s'.result = (n ++ 0x0000#16 : BitVec 32)

/-- R233 and R172: NoPacket changes nothing but the result and cmd_count. -/
def Obligations.ReceiveNoPacket : Prop :=
  ∀ (s : State) (t : Half) (st : Byte), s.Running → s.rxTail = t → 0 < s.cfg.nRx →
    s.rxStatus ((t.toNat + 1) % s.cfg.nRx) = some st → st.getLsbD 0 = false →
    exec .receive s = .next { s with cmdCount := s.cmdCount + 1, result := 0x00000003#32 }

/-- R174: a fragment at the candidate halts the block and changes nothing but life, the result and cmd_count. -/
def Obligations.ReceiveUnsupportedFrame : Prop :=
  ∀ (s : State) (t : Half) (st : Byte), s.Running → s.rxTail = t → 0 < s.cfg.nRx →
    s.rxStatus ((t.toNat + 1) % s.cfg.nRx) = some st → st.getLsbD 0 = true → st.getLsbD 1 = false →
    exec .receive s = .next { s with life := .halted, cmdCount := s.cmdCount + 1, result := 0x00000004#32 }

/-- R170's guard: a length past RXBUF faults DeviceLengthOverflow, and no byte, register or cursor changes. -/
def Obligations.ReceiveLengthOverflow : Prop :=
  ∀ (s : State) (t n : Half) (st : Byte), s.Running → s.rxTail = t → 0 < s.cfg.nRx →
    s.rxStatus ((t.toNat + 1) % s.cfg.nRx) = some st → st.getLsbD 0 = true → st.getLsbD 1 = true →
    s.rxLength ((t.toNat + 1) % s.cfg.nRx) = some n → s.cfg.rxBuf < n.toNat →
    exec .receive s = .next { s with cmdCount := s.cmdCount + 1, fault := some .deviceLengthOverflow }

/-- R171: a RECEIVE that returns OK makes exactly one register transaction, Wr(RDT, new tail); one that returns NoPacket or
UnsupportedFrame makes none. -/
def Obligations.ReceiveRegisterTraffic : Prop :=
  ∀ s s' : State, s.Inv → s.Running → exec .receive s = .next s' →
    (s'.result.extractLsb' 0 8 = 0x00#8 →
      s'.regLog = s.regLog ++ [⟨s.cmdCount + 1, .wr 0xA06 (s'.rxTail.setWidth 32)⟩]) ∧
    (s'.result.extractLsb' 0 8 ≠ 0x00#8 → s'.regLog = s.regLog)

/-- R176: every RECEIVE in READY returns in the same step, with OK, NoPacket or UnsupportedFrame, and no fault. -/
def Obligations.ReceiveAlwaysReturns : Prop :=
  ∀ s : State, s.Inv → s.Running → ∃ s' : State, exec .receive s = .next s' ∧ s'.fault = none ∧
    (s'.result.extractLsb' 0 8 = 0x00#8 ∧ s'.life = .ready ∨ s'.result = 0x00000003#32 ∧ s'.life = .ready ∨
      s'.result = 0x00000004#32 ∧ s'.life = .halted)

/-- Frame of RECEIVE, on every path and from any state: every byte but the candidate's status byte reads as before, and the
fields it does not write are unchanged. -/
def Obligations.ReceiveFrame : Prop :=
  ∀ s s' : State, exec .receive s = .next s' →
    s'.cfg = s.cfg ∧ s'.txTail = s.txTail ∧ s'.txHead = s.txHead ∧ s'.rxHead = s.rxHead ∧ s'.txWire = s.txWire ∧
    s'.refused = s.refused ∧ s'.dataIn = s.dataIn ∧ s'.inputs = s.inputs ∧ s'.devData = s.devData ∧
    s'.draws = s.draws ∧ (∀ idx, idx ≠ 0xA06 → s'.shadow idx = s.shadow idx) ∧
    ∀ a, a ≠ rxDescAddr s.cfg ((s.rxTail.toNat + 1) % s.cfg.nRx) + 12 → cellRead s'.mem a = cellRead s.mem a

/-! ### The device's events (spec/44_device_agent.md) -/

/-- DEV_TXDONE when its guard holds (R213): the next state, whole. Bits 7:1 of the status byte are a free value (log 11). -/
def Obligations.TxdoneCompletes : Prop :=
  ∀ (s : State) (slot n : Half) (st : Byte) (frame : List Byte), s.life = .ready ∨ s.life = .halted →
    slot.toNat < s.cfg.nTx → s.txStatus slot.toNat = some st → st.getLsbD 0 = false →
    (s.cfg.order = .free ∨ s.txHead = slot ∧ s.shadow 0xE06 ≠ some (slot.setWidth 32)) →
    s.txLength slot.toNat = some n → n.toNat ≤ s.cfg.maxTx →
    cellReadN s.mem (txBufAddr s.cfg slot.toNat) n.toNat = some frame →
    exec (.devTxdone slot) s = .next { s with
      txWire := s.txWire ++ [frame]
      mem := cellWrite s.mem (txDescAddr s.cfg slot.toNat + 12)
        [((Config.freeTxStatus s.draws).setWidth 8 <<< 1) ||| 0x01#8]
      txHead := match s.cfg.order with
        | .free => s.txHead
        | .ring => BitVec.ofNat 16 ((slot.toNat + 1) % s.cfg.nTx)
      draws := s.draws + 1 }

/-- DEV_RXFILL when its guard holds (R214): the next state, whole, with the status byte written last (R68). The status bits
7:2, csum, errors, special and the bytes past L are free values (log 11). -/
def Obligations.RxfillDeposits : Prop :=
  ∀ (s : State) (slot l : Half) (e : Bool) (st : Byte), s.life = .ready ∨ s.life = .halted →
    slot.toNat < s.cfg.nRx → s.rxStatus slot.toNat = some st → st.getLsbD 0 = false → l.toNat ≤ s.cfg.rxBuf →
    (s.cfg.order = .free ∨ s.rxHead = slot ∧ s.shadow 0xA06 ≠ some (slot.setWidth 32)) →
    exec (.devRxfill slot e l) s = .next { s with
      mem := cellWrite (cellWrite (cellWrite (cellWrite (cellWrite (cellWrite s.mem
        (rxBufAddr s.cfg slot.toNat) (rxFillBytes s.devData l.toNat s.cfg.rxBuf s.draws))
        (rxDescAddr s.cfg slot.toNat + 8) (halfBytes l))
        (rxDescAddr s.cfg slot.toNat + 10) (halfBytes (Config.freeHalf s.draws)))
        (rxDescAddr s.cfg slot.toNat + 13) [Config.freeByte (s.draws + s.cfg.rxBuf)])
        (rxDescAddr s.cfg slot.toNat + 14) (halfBytes (Config.freeHalf (s.draws + 1))))
        (rxDescAddr s.cfg slot.toNat + 12)
        [((Config.freeRxStatus s.draws).setWidth 8 <<< 2) ||| (if e then 0x03#8 else 0x01#8)]
      rxHead := match s.cfg.order with
        | .free => s.rxHead
        | .ring => BitVec.ofNat 16 ((slot.toNat + 1) % s.cfg.nRx)
      draws := s.draws + (s.cfg.rxBuf + 2) }

/-- R214 read back: DD is 1, EOP is E, `length` is L, the first L buffer bytes are the event's (where it brought them all),
`addr` is as it was, and every byte outside the slot reads as before. -/
def Obligations.RxfillReadBack : Prop :=
  ∀ (s s' : State) (slot l : Half) (e : Bool), s.Inv → rxFillEnabled slot l s = true →
    exec (.devRxfill slot e l) s = .next s' →
    s'.rxState slot.toNat = some (if e then .full else .frag) ∧ s'.rxLength slot.toNat = some l ∧
    (l.toNat ≤ s.devData.length → s'.rxBufBytes slot.toNat l.toNat = some (s.devData.take l.toNat)) ∧
    (s'.rxDesc slot.toNat).map (·.addr) = (s.rxDesc slot.toNat).map (·.addr) ∧
    ∀ a, ¬ InRxSlot s.cfg slot.toNat a → cellRead s'.mem a = cellRead s.mem a

/-- A device event whose guard fails is no step and no fault: nothing changes (R213, R214; log 5). -/
def Obligations.DisabledEventChangesNothing : Prop :=
  (∀ (s : State) (slot : Half),
    (s.life = .unattached ∨ s.life = .failed ∨ s.cfg.nTx ≤ slot.toNat ∨
      (∃ st, s.txStatus slot.toNat = some st ∧ st.getLsbD 0 = true) ∨
      (s.cfg.order = .ring ∧ (s.txHead ≠ slot ∨ s.shadow 0xE06 = some (slot.setWidth 32)))) →
    exec (.devTxdone slot) s = .next s) ∧
  (∀ (s : State) (slot l : Half) (e : Bool),
    (s.life = .unattached ∨ s.life = .failed ∨ s.cfg.nRx ≤ slot.toNat ∨ s.cfg.rxBuf < l.toNat ∨
      (∃ st, s.rxStatus slot.toNat = some st ∧ st.getLsbD 0 = true) ∨
      (s.cfg.order = .ring ∧ (s.rxHead ≠ slot ∨ s.shadow 0xA06 = some (slot.setWidth 32)))) →
    exec (.devRxfill slot e l) s = .next s)

/-- R216: every event enabled under `ring` is enabled under `free` and does the same, heads apart. -/
def Obligations.RingEventsAreFreeEvents : Prop :=
  (∀ (s : State) (slot : Half), s.cfg.order = .ring → txDoneEnabled slot s = true →
    let f := { s with cfg := { s.cfg with order := .free } }
    txDoneEnabled slot f = true ∧ (txDoneStep slot f).mem = (txDoneStep slot s).mem ∧
      (txDoneStep slot f).txWire = (txDoneStep slot s).txWire ∧ (txDoneStep slot f).fault = (txDoneStep slot s).fault) ∧
  (∀ (s : State) (slot l : Half) (e : Bool), s.cfg.order = .ring → rxFillEnabled slot l s = true →
    let f := { s with cfg := { s.cfg with order := .free } }
    rxFillEnabled slot l f = true ∧ (rxFillStep slot e l f).mem = (rxFillStep slot e l s).mem)

/-- Frame of DEV_TXDONE and DEV_RXFILL, on every path and from any state: what they store, and that no cursor, result,
register, port, lifecycle state or count of the block changes (R215). DEV_TXDONE raises no fault from a state that meets
the invariant (log 14), DEV_RXFILL none at all. -/
def Obligations.DeviceFrame : Prop :=
  (∀ (s s' : State) (slot : Half), exec (.devTxdone slot) s = .next s' →
    s'.cfg = s.cfg ∧ s'.life = s.life ∧ s'.txTail = s.txTail ∧ s'.rxTail = s.rxTail ∧ s'.result = s.result ∧
    s'.regShadow = s.regShadow ∧ s'.regLog = s.regLog ∧ s'.rxHead = s.rxHead ∧ s'.refused = s.refused ∧
    s'.cmdCount = s.cmdCount ∧ s'.dataIn = s.dataIn ∧ s'.dataOut = s.dataOut ∧ s'.inputs = s.inputs ∧
    s'.devData = s.devData ∧ (s.Inv → s'.fault = s.fault) ∧
    ∀ a, a ≠ txDescAddr s.cfg slot.toNat + 12 → cellRead s'.mem a = cellRead s.mem a) ∧
  (∀ (s s' : State) (slot l : Half) (e : Bool), exec (.devRxfill slot e l) s = .next s' →
    s'.cfg = s.cfg ∧ s'.life = s.life ∧ s'.txTail = s.txTail ∧ s'.rxTail = s.rxTail ∧ s'.result = s.result ∧
    s'.regShadow = s.regShadow ∧ s'.regLog = s.regLog ∧ s'.txHead = s.txHead ∧ s'.txWire = s.txWire ∧
    s'.fault = s.fault ∧ s'.refused = s.refused ∧ s'.cmdCount = s.cmdCount ∧ s'.dataIn = s.dataIn ∧
    s'.dataOut = s.dataOut ∧ s'.inputs = s.inputs ∧ s'.devData = s.devData ∧
    ∀ a, ¬ InRange a (rxBufAddr s.cfg slot.toNat) s.cfg.rxBuf → ¬ InRange a (rxDescAddr s.cfg slot.toNat + 8) 8 →
      cellRead s'.mem a = cellRead s.mem a)

/-! ### State machines and ownership (spec/40_ring_arbiter.md) -/

/-- R130, R131: in every step of an attached block, a TX slot whose bytes change goes from free to queued by a TRANSMIT
that fits at the tail, or from queued to free by its DEV_TXDONE. -/
def Obligations.TxStateMachine : Prop :=
  ∀ (s s' : State) (k : Nat), s.Inv → s.Attached → k < s.cfg.nTx → step s = .next s' →
    (∀ a, InTxSlot s.cfg k a → cellRead s'.mem a = cellRead s.mem a) ∨
    (s.txState k = some .free ∧ s'.txState k = some .queued ∧ s.Running ∧
      ∃ len : Half, fetch s = some (.ok (.transmit len)) ∧ len.toNat ≤ s.cfg.maxTx ∧ s.txTail.toNat = k) ∨
    (s.txState k = some .queued ∧ s'.txState k = some .free ∧
      ∃ slot : Half, fetch s = some (.ok (.devTxdone slot)) ∧ slot.toNat = k)

/-- R132, R133: in every step of an attached block, an RX slot whose bytes change goes from empty to full or fragment by
its DEV_RXFILL, as E says, or from full to empty by a RECEIVE that has it as candidate. -/
def Obligations.RxStateMachine : Prop :=
  ∀ (s s' : State) (k : Nat), s.Inv → s.Attached → k < s.cfg.nRx → step s = .next s' →
    (∀ a, InRxSlot s.cfg k a → cellRead s'.mem a = cellRead s.mem a) ∨
    (s.rxState k = some .empty ∧ ∃ (slot l : Half) (e : Bool), fetch s = some (.ok (.devRxfill slot e l)) ∧
      slot.toNat = k ∧ s'.rxState k = some (if e then .full else .frag)) ∨
    (s.rxState k = some .full ∧ s'.rxState k = some .empty ∧ s.Running ∧ fetch s = some (.ok .receive) ∧
      k = (s.rxTail.toNat + 1) % s.cfg.nRx)

/-- R39, R136: a command writes no slot the device owns at the start of the step, and a device event writes no slot the
engine owns. -/
def Obligations.SingleWriter : Prop :=
  ∀ (s s' : State) (i : Instr), s.Inv → s.Attached → fetch s = some (.ok i) → step s = .next s' →
    (isCommand i = true →
      (∀ k a, k < s.cfg.nTx → s.txState k = some .queued → InTxSlot s.cfg k a → cellRead s'.mem a = cellRead s.mem a) ∧
      (∀ k a, k < s.cfg.nRx → s.rxState k = some .empty → InRxSlot s.cfg k a → cellRead s'.mem a = cellRead s.mem a)) ∧
    (isCommand i = false →
      (∀ k a, k < s.cfg.nTx → s.txState k = some .free → InTxSlot s.cfg k a → cellRead s'.mem a = cellRead s.mem a) ∧
      (∀ k a, k < s.cfg.nRx → s.rxState k = some .full ∨ s.rxState k = some .frag → InRxSlot s.cfg k a →
        cellRead s'.mem a = cellRead s.mem a))

/-- R135: from the state right after ATTACH, up to N_TX TRANSMITs in a row that fit all return OK and queue the slots in
order; after N_TX of them the tail is 0 again and the next one returns RING_FULL and changes no other state but cmd_count and
the consumed payload. That a short payload advances the draw counter is the model's (log 9). -/
def Obligations.TxRingCapacity : Prop :=
  ∀ (s : State) (lens : List Half), s.Inv → s.TxFresh → lens.length ≤ s.cfg.nTx →
    (∀ l ∈ lens, l.toNat ≤ s.cfg.maxTx) →
    ∃ s' : State, execAll (lens.map Instr.transmit) s = .next s' ∧ (lens ≠ [] → s'.result = 0x00000000#32) ∧
      s'.txTail = BitVec.ofNat 16 (lens.length % s.cfg.nTx) ∧
      (∀ i, i < s.cfg.nTx → s'.txState i = some (if i < lens.length then .queued else .free)) ∧
      (lens.length = s.cfg.nTx → ∀ len : Half, len.toNat ≤ s.cfg.maxTx →
        exec (.transmit len) s' = .next { s' with
          cmdCount := s'.cmdCount + 1
          dataIn := s'.dataIn.drop len.toNat
          draws := s'.draws + (len.toNat - s'.dataIn.length)
          result := 0x00000002#32 })

/-- R220: under ring order a full TX ring with TDT = TDH is stuck for ever: no DEV_TXDONE is enabled, every TRANSMIT that
fits returns RING_FULL, and every step keeps it so. -/
def Obligations.FullTxRingIsStuck : Prop :=
  ∀ s : State, s.Inv → s.TxStuck →
    (∀ slot : Half, txDoneEnabled slot s = false) ∧
    (s.Running → ∀ len : Half, len.toNat ≤ s.cfg.maxTx → ∃ s' : State,
      exec (.transmit len) s = .next s' ∧ s'.result = 0x00000002#32 ∧ s'.mem = s.mem ∧ s'.regLog = s.regLog) ∧
    ∀ s' : State, step s = .next s' → s'.TxStuck

/-- R265: TRANSMIT writes only TX state and TDT and its result depends only on TX state; RECEIVE writes only RX state and
RDT and its result depends only on RX state. -/
def Obligations.PipelinesAreIndependent : Prop :=
  (∀ (s s' : State) (len : Half), s.Inv → s.Running → exec (.transmit len) s = .next s' →
    s'.rxTail = s.rxTail ∧ s'.shadow regRDT = s.shadow regRDT ∧ s'.dataOut = s.dataOut ∧
    ∀ k a, k < s.cfg.nRx → InRxSlot s.cfg k a → cellRead s'.mem a = cellRead s.mem a) ∧
  (∀ s s' : State, s.Inv → s.Running → exec .receive s = .next s' →
    s'.txTail = s.txTail ∧ s'.shadow regTDT = s.shadow regTDT ∧ s'.dataIn = s.dataIn ∧
    ∀ k a, k < s.cfg.nTx → InTxSlot s.cfg k a → cellRead s'.mem a = cellRead s.mem a) ∧
  (∀ (s r s' r' : State) (len : Half), s.Inv → r.Inv → s.Running → r.Running → r.cfg = s.cfg → r.txTail = s.txTail →
    r.dataIn = s.dataIn → r.draws = s.draws →
    (∀ k a, k < s.cfg.nTx → InTxSlot s.cfg k a → cellRead r.mem a = cellRead s.mem a) →
    exec (.transmit len) s = .next s' → exec (.transmit len) r = .next r' →
    r'.result = s'.result ∧ r'.txTail = s'.txTail ∧ r'.dataIn = s'.dataIn ∧
    ∀ k a, k < s.cfg.nTx → InTxSlot s.cfg k a → cellRead r'.mem a = cellRead s'.mem a) ∧
  (∀ s r s' r' : State, s.Inv → r.Inv → s.Running → r.Running → r.cfg = s.cfg → r.rxTail = s.rxTail →
    r.dataOut = s.dataOut →
    (∀ k a, k < s.cfg.nRx → InRxSlot s.cfg k a → cellRead r.mem a = cellRead s.mem a) →
    exec .receive s = .next s' → exec .receive r = .next r' →
    r'.result = s'.result ∧ r'.rxTail = s'.rxTail ∧ r'.life = s'.life ∧ r'.dataOut = s'.dataOut ∧
    ∀ k a, k < s.cfg.nRx → InRxSlot s.cfg k a → cellRead r'.mem a = cellRead s'.mem a)
end

