-- ==== Sys2Proof/Laws/Bytes.lean ====
section
/-! SUPPORT. Bytes, descriptors and status bits: the layouts of spec/30_encoding.md R80 and R84 read back what they
write, and the accessors of spec/40_ring_arbiter.md R123 change only the bits they name. -/

namespace Sys2Proof.Laws

open Sys2Proof.Machine

@[simp] theorem halfBytes_length (v : Half) : (halfBytes v).length = 2 := rfl

@[simp] theorem paddrBytes_length (v : PAddr) : (paddrBytes v).length = 8 := rfl

@[simp] theorem txDescBytes_length (d : TxDesc) : (txDescBytes d).length = 16 := rfl

@[simp] theorem rxDescBytes_length (d : RxDesc) : (rxDescBytes d).length = 16 := rfl

theorem halfOfBytes_halfBytes (v : Half) : halfOfBytes (v.extractLsb' 0 8) (v.extractLsb' 8 8) = v := by
  unfold halfOfBytes
  apply BitVec.eq_of_getLsbD_eq
  intro i hi
  rw [BitVec.getLsbD_append]
  by_cases h : i < 8
  · simp [h]
  · simp [h, show i - 8 < 8 by omega, show 8 + (i - 8) = i by omega]

theorem paddrOfBytes_paddrBytes (v : PAddr) :
    paddrOfBytes (v.extractLsb' 0 8) (v.extractLsb' 8 8) (v.extractLsb' 16 8) (v.extractLsb' 24 8)
      (v.extractLsb' 32 8) (v.extractLsb' 40 8) (v.extractLsb' 48 8) (v.extractLsb' 56 8) = v := by
  unfold paddrOfBytes
  apply BitVec.eq_of_getLsbD_eq
  intro i hi
  simp only [BitVec.getLsbD_append, BitVec.getLsbD_extractLsb']
  by_cases h : i < 8
  · simp [h]
  by_cases h1 : i < 16
  · simp [h, show i - 8 < 8 by omega, show 8 + (i - 8) = i by omega]
  by_cases h2 : i < 24
  · simp [h, show ¬ i - 8 < 8 by omega, show i - 8 - 8 < 8 by omega, show 16 + (i - 8 - 8) = i by omega]
  interval_cases i <;> simp

/-- A TX descriptor's bytes spell it (R80). -/
theorem txDescOfBytes_txDescBytes (d : TxDesc) : txDescOfBytes (txDescBytes d) = some d := by
  cases d
  simp [txDescBytes, txDescOfBytes, paddrBytes, halfBytes, halfOfBytes_halfBytes, paddrOfBytes_paddrBytes]

/-- An RX descriptor's bytes spell it (R84). -/
theorem rxDescOfBytes_rxDescBytes (d : RxDesc) : rxDescOfBytes (rxDescBytes d) = some d := by
  cases d
  simp [rxDescBytes, rxDescOfBytes, paddrBytes, halfBytes, halfOfBytes_halfBytes, paddrOfBytes_paddrBytes]

/-! ### Status bits -/

theorem isDone_clearDone (b : Byte) : isDone (clearDone b) = false := by
  simp [isDone, clearDone]

theorem isDone_clearDoneEop (b : Byte) : isDone (clearDoneEop b) = false := by
  simp [isDone, clearDoneEop]

theorem isEop_clearDoneEop (b : Byte) : isEop (clearDoneEop b) = false := by
  simp [isEop, clearDoneEop]

theorem isDone_txDoneStatus (s : BitVec 7) : isDone (txDoneStatus s) = true := by
  unfold isDone txDoneStatus
  rw [BitVec.getLsbD_append]
  simp

theorem isDone_rxFillStatus (s : BitVec 6) (e : Bool) : isDone (rxFillStatus s e) = true := by
  unfold isDone rxFillStatus
  rw [BitVec.getLsbD_append, BitVec.getLsbD_append]
  simp

theorem isEop_rxFillStatus (s : BitVec 6) (e : Bool) : isEop (rxFillStatus s e) = e := by
  unfold isEop rxFillStatus
  rw [BitVec.getLsbD_append, BitVec.getLsbD_append]
  cases e <;> simp

@[simp] theorem takeBytes_length (have_ : List Byte) (n d : Nat) : (takeBytes have_ n d).length = n := by
  simp only [takeBytes, List.length_append, List.length_take, List.length_map, List.length_range]
  omega

/-- A port that holds enough bytes gives exactly those (R55). -/
theorem takeBytes_of_le (have_ : List Byte) (n d : Nat) (h : n ≤ have_.length) : takeBytes have_ n d = have_.take n := by
  simp [takeBytes, show n - have_.length = 0 by omega]

@[simp] theorem rxFillBytes_length (data : List Byte) (l size d : Nat) (h : l ≤ size) :
    (rxFillBytes data l size d).length = size := by
  simp only [rxFillBytes, List.length_append, takeBytes_length, List.length_map, List.length_range]
  omega

@[simp] theorem portInBytes_length (n : Nat) (s : State) : (portInBytes n s).length = n := by
  simp [portInBytes]

end Sys2Proof.Laws
end

