-- ==== Sys2Proof/Laws/Memory.lean ====
section
/-! SUPPORT. The laws of the canonical cell lists behind memory and RegShadow: read after write, and that every
operation keeps the canonical form. -/

namespace Sys2Proof.Laws

open Sys2Proof.Machine

variable {α : Type}

/-! ### Reading -/

@[simp] theorem cellRead_nil (a : Nat) : cellRead ([] : List (Nat × α)) a = none := rfl

theorem cellRead_append (m n : List (Nat × α)) (a : Nat) :
    cellRead (m ++ n) a = (cellRead m a).or (cellRead n a) := by
  induction m with
  | nil => simp
  | cons c m ih =>
    by_cases h : c.1 = a
    · simp [cellRead, h]
    · simp [cellRead, h, ih]

theorem cellRead_filter_pos (m : List (Nat × α)) (f : Nat → Bool) (a : Nat) (h : f a = true) :
    cellRead (m.filter (fun c => f c.1)) a = cellRead m a := by
  induction m with
  | nil => rfl
  | cons c m ih =>
    by_cases hf : f c.1 = true
    · simp only [List.filter_cons, hf, if_true, cellRead, ih]
    · have hne : c.1 ≠ a := fun e => hf (e ▸ h)
      simp [hf, cellRead, hne, ih]

theorem cellRead_filter_neg (m : List (Nat × α)) (f : Nat → Bool) (a : Nat) (h : f a = false) :
    cellRead (m.filter (fun c => f c.1)) a = none := by
  induction m with
  | nil => rfl
  | cons c m ih =>
    by_cases hf : f c.1 = true
    · have hne : c.1 ≠ a := fun e => by simp [e, h] at hf
      simp [hf, cellRead, hne, ih]
    · simp [hf, ih]

theorem cellRead_run (vs : List α) (a b : Nat) :
    cellRead (cellRun a vs) b = if a ≤ b then vs[b - a]? else none := by
  induction vs generalizing a with
  | nil => simp [cellRun]
  | cons v vs ih =>
    simp only [cellRun, cellRead, ih]
    by_cases h : a = b
    · simp [h]
    · by_cases h1 : a + 1 ≤ b
      · have h2 : b - a = b - (a + 1) + 1 := by omega
        simp [h, h1, show a ≤ b by omega, h2]
      · simp [h, h1, show ¬ a ≤ b by omega]

/-- A read after a write: inside the written bytes the value written, elsewhere what was there. -/
theorem cellRead_write (m : List (Nat × α)) (a b : Nat) (vs : List α) :
    cellRead (cellWrite m a vs) b = if a ≤ b ∧ b < a + vs.length then vs[b - a]? else cellRead m b := by
  unfold cellWrite
  rw [cellRead_append, cellRead_append, cellRead_run]
  by_cases h1 : b < a
  · rw [cellRead_filter_pos m (fun k => decide (k < a)) b (by simpa using h1),
      cellRead_filter_neg m (fun k => decide (a + vs.length ≤ k)) b (by simp; omega)]
    simp [show ¬ a ≤ b by omega]
  · rw [cellRead_filter_neg m (fun k => decide (k < a)) b (by simpa using h1)]
    by_cases h2 : b < a + vs.length
    · rw [cellRead_filter_neg m (fun k => decide (a + vs.length ≤ k)) b (by simpa using h2)]
      simp [show a ≤ b by omega, h2]
    · rw [cellRead_filter_pos m (fun k => decide (a + vs.length ≤ k)) b (by simp; omega)]
      have h3 : vs[b - a]? = none := by simp; omega
      simp [show a ≤ b by omega, h2, h3]

/-- A write leaves every address outside its bytes alone. -/
theorem cellRead_write_other (m : List (Nat × α)) (a b : Nat) (vs : List α) (h : b < a ∨ a + vs.length ≤ b) :
    cellRead (cellWrite m a vs) b = cellRead m b := by
  rw [cellRead_write, if_neg (by omega)]

/-- A write of n values is read back from its k-th address. -/
theorem cellRead_write_self (m : List (Nat × α)) (a k : Nat) (vs : List α) (h : k < vs.length) :
    cellRead (cellWrite m a vs) (a + k) = vs[k]? := by
  rw [cellRead_write, if_pos (by omega)]
  congr 1
  omega

@[simp] theorem cellRead_write_one (m : List (Nat × α)) (a : Nat) (v : α) :
    cellRead (cellWrite m a [v]) a = some v := by
  simpa using cellRead_write_self m a 0 [v] (by simp)

/-! ### The canonical form -/

theorem cellRun_ge (vs : List α) (a : Nat) (c : Nat × α) (h : c ∈ cellRun a vs) : a ≤ c.1 ∧ c.1 < a + vs.length := by
  induction vs generalizing a with
  | nil => simp [cellRun] at h
  | cons v vs ih =>
    simp only [cellRun, List.mem_cons] at h
    rcases h with rfl | h
    · simp
    · have := ih (a + 1) h
      simp only [List.length_cons]
      omega

theorem cellRun_sorted (vs : List α) (a : Nat) : (cellRun a vs).Pairwise (fun c d => c.1 < d.1) := by
  induction vs generalizing a with
  | nil => exact List.Pairwise.nil
  | cons v vs ih =>
    refine List.Pairwise.cons (fun d hd => ?_) (ih (a + 1))
    have := cellRun_ge vs (a + 1) d hd
    simp only
    omega

/-- Every write keeps the canonical form. -/
theorem cellWrite_sorted (m : List (Nat × α)) (a : Nat) (vs : List α) (h : m.Pairwise (fun c d => c.1 < d.1)) :
    (cellWrite m a vs).Pairwise (fun c d => c.1 < d.1) := by
  unfold cellWrite
  rw [List.pairwise_append, List.pairwise_append]
  refine ⟨⟨h.filter _, cellRun_sorted vs a, fun c hc d hd => ?_⟩, h.filter _, fun c hc d hd => ?_⟩
  · have h1 := (List.mem_filter.mp hc).2
    have h2 := cellRun_ge vs a d hd
    simp only [decide_eq_true_eq] at h1
    omega
  · have h1 := (List.mem_filter.mp hd).2
    simp only [decide_eq_true_eq] at h1
    rcases List.mem_append.mp hc with hc | hc
    · have h2 := (List.mem_filter.mp hc).2
      simp only [decide_eq_true_eq] at h2
      omega
    · have h2 := cellRun_ge vs a c hc
      omega

/-! ### Reading several values -/

theorem cellReadN_eq_some (m : List (Nat × α)) (a n : Nat) (vs : List α) :
    cellReadN m a n = some vs ↔ vs.length = n ∧ ∀ k, k < n → cellRead m (a + k) = vs[k]? := by
  induction n generalizing a vs with
  | zero =>
    simp only [cellReadN, Option.some.injEq]
    constructor
    · rintro rfl; simp
    · rintro ⟨h, -⟩; exact (List.length_eq_zero_iff.mp h).symm
  | succ n ih =>
    constructor
    · intro h
      simp only [cellReadN] at h
      split at h
      · next v ws hv hw =>
        cases h
        obtain ⟨hl, hk⟩ := (ih (a + 1) ws).mp hw
        refine ⟨by simp [hl], fun k hk' => ?_⟩
        cases k with
        | zero => simpa using hv
        | succ k =>
          have := hk k (by omega)
          simpa [show a + 1 + k = a + (k + 1) by omega] using this
      · cases h
    · rintro ⟨hl, hk⟩
      cases vs with
      | nil => simp at hl
      | cons v vs =>
        have h0 := hk 0 (by omega)
        have h1 : cellReadN m (a + 1) n = some vs := by
          refine (ih (a + 1) vs).mpr ⟨by simpa using hl, fun k hk' => ?_⟩
          have := hk (k + 1) (by omega)
          simpa [show a + 1 + k = a + (k + 1) by omega] using this
        simp only [Nat.add_zero, List.getElem?_cons_zero] at h0
        simp [cellReadN, h0, h1]

/-- Values that all exist can be read at once. -/
theorem cellReadN_isSome (m : List (Nat × α)) (a n : Nat) (h : ∀ k, k < n → (cellRead m (a + k)).isSome) :
    ∃ vs, cellReadN m a n = some vs := by
  induction n generalizing a with
  | zero => exact ⟨[], rfl⟩
  | succ n ih =>
    obtain ⟨v, hv⟩ := Option.isSome_iff_exists.mp (h 0 (by omega))
    obtain ⟨vs, hvs⟩ := ih (a + 1) (fun k hk => by
      have := h (k + 1) (by omega)
      rwa [show a + 1 + k = a + (k + 1) by omega])
    refine ⟨v :: vs, ?_⟩
    simp only [Nat.add_zero] at hv
    simp [cellReadN, hv, hvs]

/-- Two memories that agree on n addresses read the same there. -/
theorem cellReadN_congr (m m' : List (Nat × α)) (a n : Nat)
    (h : ∀ k, k < n → cellRead m (a + k) = cellRead m' (a + k)) : cellReadN m a n = cellReadN m' a n := by
  induction n generalizing a with
  | zero => rfl
  | succ n ih =>
    have h0 := h 0 (by omega)
    have h1 := ih (a + 1) (fun k hk => by
      have := h (k + 1) (by omega)
      rwa [show a + (k + 1) = a + 1 + k by omega] at this)
    simp only [Nat.add_zero] at h0
    simp [cellReadN, h0, h1]

/-- What a write wrote is read back whole. -/
theorem cellReadN_write_self (m : List (Nat × α)) (a : Nat) (vs : List α) :
    cellReadN (cellWrite m a vs) a vs.length = some vs :=
  (cellReadN_eq_some _ _ _ _).mpr ⟨rfl, fun k hk => cellRead_write_self m a k vs hk⟩

/-- A write elsewhere does not touch what is read. -/
theorem cellReadN_write_other (m : List (Nat × α)) (a b n : Nat) (vs : List α)
    (h : b + n ≤ a ∨ a + vs.length ≤ b) : cellReadN (cellWrite m a vs) b n = cellReadN m b n :=
  cellReadN_congr _ _ _ _ fun k hk => cellRead_write_other m a (b + k) vs (by omega)

/-! ### Updating one value -/

/-- All an update can do. -/
theorem cellUpdate_eq_some (m m' : List (Nat × α)) (a : Nat) (f : α → α) :
    cellUpdate m a f = some m' ↔ ∃ v, cellRead m a = some v ∧ m' = cellWrite m a [f v] := by
  unfold cellUpdate
  constructor
  · intro h
    split at h
    · next v hv => exact ⟨v, hv, (Option.some.inj h).symm⟩
    · cases h
  · rintro ⟨v, hv, rfl⟩
    simp [hv]

theorem cellUpdate_of_read (m : List (Nat × α)) (a : Nat) (f : α → α) (v : α) (h : cellRead m a = some v) :
    cellUpdate m a f = some (cellWrite m a [f v]) := by
  simp [cellUpdate, h]

/-- Every update keeps the canonical form. -/
theorem cellUpdate_sorted (m m' : List (Nat × α)) (a : Nat) (f : α → α) (h : m.Pairwise (fun c d => c.1 < d.1))
    (hu : cellUpdate m a f = some m') : m'.Pairwise (fun c d => c.1 < d.1) := by
  obtain ⟨v, -, rfl⟩ := (cellUpdate_eq_some m m' a f).mp hu
  exact cellWrite_sorted m a _ h

end Sys2Proof.Laws
end

