-- ==== Sys2Proof/Laws/Params.lean ====
section
/-! SUPPORT. What an admitted instance guarantees (spec/00_scope.md R6–R8, spec/20_memory.md R52, R57): ranges, and that
no two slots share a byte. -/

namespace Sys2Proof.Laws

open Sys2Proof.Machine

/-- Two regions share no byte. -/
def Apart (a b : Nat × Nat) : Prop := a.1 + a.2 ≤ b.1 ∨ b.1 + b.2 ≤ a.1

theorem regionsDisjoint_pairwise (l : List (Nat × Nat)) (h : regionsDisjoint l = true) : l.Pairwise Apart := by
  induction l with
  | nil => exact List.Pairwise.nil
  | cons r rs ih =>
    simp only [regionsDisjoint, Bool.and_eq_true, List.all_eq_true] at h
    refine List.Pairwise.cons (fun b hb => ?_) (ih h.2)
    simpa [regionsApart, Apart] using h.1 b hb

/-- The ranges an admitted instance keeps. -/
theorem admitted_ranges {p : Params} (h : p.admitted = true) :
    8 ≤ p.nTx ∧ p.nTx ≤ 4096 ∧ 8 ≤ p.nRx ∧ p.nRx ≤ 4096 ∧ 1 ≤ p.maxTx ∧ p.maxTx ≤ 65535 ∧ 1 ≤ p.rxBuf ∧
      p.rxBuf ≤ 65535 ∧ p.txBufPa.length = p.nTx ∧ p.rxBufPa.length = p.nRx ∧ 0xE06 < p.regCount := by
  simp only [Params.admitted, Params.ringLengthOk, Bool.and_eq_true, decide_eq_true_eq] at h
  omega

/-- What an admitted instance's ring lengths and bases satisfy for the ring registers (R7, R57). -/
theorem admitted_alignment {p : Params} (h : p.admitted = true) :
    p.nTx % 8 = 0 ∧ p.nRx % 8 = 0 ∧ p.txRingPa.toNat % 16 = 0 ∧ p.rxRingPa.toNat % 16 = 0 := by
  simp only [Params.admitted, Params.ringLengthOk, Bool.and_eq_true, decide_eq_true_eq] at h
  omega

theorem admitted_pairwise {p : Params} (h : p.admitted = true) : p.regions.Pairwise Apart := by
  simp only [Params.admitted, Bool.and_eq_true] at h
  exact regionsDisjoint_pairwise _ h.1.2

theorem txBufPa_mem {p : Params} (h : p.admitted = true) {i : Nat} (hi : i < p.nTx) : txBufPa p i ∈ p.txBufPa := by
  have hl := (admitted_ranges h).2.2.2.2.2.2.2.2.1
  have hi' : i < p.txBufPa.length := by omega
  simp [txBufPa, List.getD_eq_getElem?_getD, hi']

theorem rxBufPa_mem {p : Params} (h : p.admitted = true) {i : Nat} (hi : i < p.nRx) : rxBufPa p i ∈ p.rxBufPa := by
  have hl := (admitted_ranges h).2.2.2.2.2.2.2.2.2.1
  have hi' : i < p.rxBufPa.length := by omega
  simp [rxBufPa, List.getD_eq_getElem?_getD, hi']

/-- Every pair of regions of an admitted instance, by name. -/
theorem admitted_apart {p : Params} (h : p.admitted = true) :
    (p.txRingPa.toNat + 16 * p.nTx ≤ p.rxRingPa.toNat ∨ p.rxRingPa.toNat + 16 * p.nRx ≤ p.txRingPa.toNat) ∧
    (∀ i, i < p.nTx → p.txRingPa.toNat + 16 * p.nTx ≤ txBufAddr p i ∨ txBufAddr p i + p.maxTx ≤ p.txRingPa.toNat) ∧
    (∀ i, i < p.nRx → p.txRingPa.toNat + 16 * p.nTx ≤ rxBufAddr p i ∨ rxBufAddr p i + p.rxBuf ≤ p.txRingPa.toNat) ∧
    (∀ i, i < p.nTx → p.rxRingPa.toNat + 16 * p.nRx ≤ txBufAddr p i ∨ txBufAddr p i + p.maxTx ≤ p.rxRingPa.toNat) ∧
    (∀ i, i < p.nRx → p.rxRingPa.toNat + 16 * p.nRx ≤ rxBufAddr p i ∨ rxBufAddr p i + p.rxBuf ≤ p.rxRingPa.toNat) ∧
    (∀ i j, i < p.nTx → j < p.nRx →
      txBufAddr p i + p.maxTx ≤ rxBufAddr p j ∨ rxBufAddr p j + p.rxBuf ≤ txBufAddr p i) := by
  have hp := admitted_pairwise h
  simp only [Params.regions, List.pairwise_cons, List.pairwise_append] at hp
  obtain ⟨h1, h2, -, -, h5⟩ := hp
  have inTx : ∀ i, i < p.nTx → ((txBufAddr p i, p.maxTx) : Nat × Nat) ∈ p.txBufPa.map (fun a => (a.toNat, p.maxTx)) :=
    fun i hi => List.mem_map.mpr ⟨_, txBufPa_mem h hi, rfl⟩
  have inRx : ∀ i, i < p.nRx → ((rxBufAddr p i, p.rxBuf) : Nat × Nat) ∈ p.rxBufPa.map (fun a => (a.toNat, p.rxBuf)) :=
    fun i hi => List.mem_map.mpr ⟨_, rxBufPa_mem h hi, rfl⟩
  refine ⟨h1 _ (List.mem_cons_self ..), fun i hi => ?_, fun i hi => ?_, fun i hi => ?_, fun i hi => ?_, fun i j hi hj => ?_⟩
  · exact h1 _ (List.mem_cons_of_mem _ (List.mem_append_left _ (inTx i hi)))
  · exact h1 _ (List.mem_cons_of_mem _ (List.mem_append_right _ (inRx i hi)))
  · exact h2 _ (List.mem_append_left _ (inTx i hi))
  · exact h2 _ (List.mem_append_right _ (inRx i hi))
  · exact h5 _ (inTx i hi) _ (inRx j hj)

/-- Buffers of one pool share no byte. -/
theorem admitted_pools_apart {p : Params} (h : p.admitted = true) :
    (∀ i j, i < p.nTx → j < p.nTx → i ≠ j →
      txBufAddr p i + p.maxTx ≤ txBufAddr p j ∨ txBufAddr p j + p.maxTx ≤ txBufAddr p i) ∧
    (∀ i j, i < p.nRx → j < p.nRx → i ≠ j →
      rxBufAddr p i + p.rxBuf ≤ rxBufAddr p j ∨ rxBufAddr p j + p.rxBuf ≤ rxBufAddr p i) := by
  have hp := admitted_pairwise h
  have hr := admitted_ranges h
  simp only [Params.regions, List.pairwise_cons, List.pairwise_append, List.pairwise_map] at hp
  obtain ⟨-, -, h3, h4, -⟩ := hp
  rw [List.pairwise_iff_getElem] at h3 h4
  have eTx : ∀ i (hi : i < p.txBufPa.length), txBufAddr p i = p.txBufPa[i].toNat := fun i hi => by
    simp [txBufAddr, txBufPa, List.getD_eq_getElem?_getD, hi]
  have eRx : ∀ i (hi : i < p.rxBufPa.length), rxBufAddr p i = p.rxBufPa[i].toNat := fun i hi => by
    simp [rxBufAddr, rxBufPa, List.getD_eq_getElem?_getD, hi]
  constructor
  · intro i j hi hj hne
    have hi' : i < p.txBufPa.length := by omega
    have hj' : j < p.txBufPa.length := by omega
    rw [eTx i hi', eTx j hj']
    rcases Nat.lt_or_gt_of_ne hne with hlt | hlt
    · exact h3 i j hi' hj' hlt
    · exact (h3 j i hj' hi' hlt).symm
  · intro i j hi hj hne
    have hi' : i < p.rxBufPa.length := by omega
    have hj' : j < p.rxBufPa.length := by omega
    rw [eRx i hi', eRx j hj']
    rcases Nat.lt_or_gt_of_ne hne with hlt | hlt
    · exact h4 i j hi' hj' hlt
    · exact (h4 j i hj' hi' hlt).symm

/-- No region of an admitted instance reaches past the address space (R8, D28). -/
theorem admitted_bounds {p : Params} (h : p.admitted = true) :
    p.txRingPa.toNat + 16 * p.nTx ≤ 2 ^ 64 ∧ p.rxRingPa.toNat + 16 * p.nRx ≤ 2 ^ 64 ∧
    (∀ i, i < p.nTx → txBufAddr p i + p.maxTx ≤ 2 ^ 64) ∧ (∀ i, i < p.nRx → rxBufAddr p i + p.rxBuf ≤ 2 ^ 64) := by
  have hb := h
  simp only [Params.admitted, Bool.and_eq_true, List.all_eq_true, decide_eq_true_eq] at hb
  have hb := hb.1.1.2
  refine ⟨hb _ (List.mem_cons_self ..), hb _ (List.mem_cons_of_mem _ (List.mem_cons_self ..)), fun i hi => ?_, fun i hi => ?_⟩
  · exact hb (txBufAddr p i, p.maxTx) (List.mem_cons_of_mem _ (List.mem_cons_of_mem _ (List.mem_append_left _
      (List.mem_map.mpr ⟨_, txBufPa_mem h hi, rfl⟩))))
  · exact hb (rxBufAddr p i, p.rxBuf) (List.mem_cons_of_mem _ (List.mem_cons_of_mem _ (List.mem_append_right _
      (List.mem_map.mpr ⟨_, rxBufPa_mem h hi, rfl⟩))))

/-! ### No two slots share a byte (R52, R122) -/

theorem txSlot_txSlot {p : Params} (h : p.admitted = true) {i j a : Nat} (hi : i < p.nTx) (hj : j < p.nTx)
    (hne : i ≠ j) (ha : InTxSlot p i a) : ¬ InTxSlot p j a := by
  have h1 := (admitted_apart h).2.1 i hi
  have h2 := (admitted_apart h).2.1 j hj
  have h3 := (admitted_pools_apart h).1 i j hi hj hne
  simp only [InTxSlot, InRange, txDescAddr] at *
  omega

theorem rxSlot_rxSlot {p : Params} (h : p.admitted = true) {i j a : Nat} (hi : i < p.nRx) (hj : j < p.nRx)
    (hne : i ≠ j) (ha : InRxSlot p i a) : ¬ InRxSlot p j a := by
  have h1 := (admitted_apart h).2.2.2.2.1 i hi
  have h2 := (admitted_apart h).2.2.2.2.1 j hj
  have h3 := (admitted_pools_apart h).2 i j hi hj hne
  simp only [InRxSlot, InRange, rxDescAddr] at *
  omega

theorem txSlot_rxSlot {p : Params} (h : p.admitted = true) {i j a : Nat} (hi : i < p.nTx) (hj : j < p.nRx)
    (ha : InTxSlot p i a) : ¬ InRxSlot p j a := by
  have h1 := (admitted_apart h).1
  have h2 := (admitted_apart h).2.2.1 j hj
  have h3 := (admitted_apart h).2.2.2.1 i hi
  have h4 := (admitted_apart h).2.2.2.2.2 i j hi hj
  simp only [InTxSlot, InRxSlot, InRange, rxDescAddr, txDescAddr] at *
  omega

/-- A slot's descriptor and its buffer share no byte. -/
theorem txDesc_txBuf {p : Params} (h : p.admitted = true) {i : Nat} (hi : i < p.nTx) :
    txDescAddr p i + 16 ≤ txBufAddr p i ∨ txBufAddr p i + p.maxTx ≤ txDescAddr p i := by
  have h1 := (admitted_apart h).2.1 i hi
  simp only [txDescAddr]
  omega

theorem rxDesc_rxBuf {p : Params} (h : p.admitted = true) {i : Nat} (hi : i < p.nRx) :
    rxDescAddr p i + 16 ≤ rxBufAddr p i ∨ rxBufAddr p i + p.rxBuf ≤ rxDescAddr p i := by
  have h1 := (admitted_apart h).2.2.2.2.1 i hi
  simp only [rxDescAddr]
  omega

end Sys2Proof.Laws
end

