-- ==== Sys2Proof/Laws/State.lean ====
section
/-! SUPPORT. One lemma per field per update of the state, so that no later proof unfolds a record update. -/

namespace Sys2Proof.Laws

open Sys2Proof.Machine

variable (s : State)

/-! ### taking a fault -/

@[simp] theorem raise_cfg (f : Fault) : (s.raise f).cfg = s.cfg := rfl
@[simp] theorem raise_life (f : Fault) : (s.raise f).life = s.life := rfl
@[simp] theorem raise_txTail (f : Fault) : (s.raise f).txTail = s.txTail := rfl
@[simp] theorem raise_rxTail (f : Fault) : (s.raise f).rxTail = s.rxTail := rfl
@[simp] theorem raise_result (f : Fault) : (s.raise f).result = s.result := rfl
@[simp] theorem raise_mem (f : Fault) : (s.raise f).mem = s.mem := rfl
@[simp] theorem raise_regShadow (f : Fault) : (s.raise f).regShadow = s.regShadow := rfl
@[simp] theorem raise_regLog (f : Fault) : (s.raise f).regLog = s.regLog := rfl
@[simp] theorem raise_txHead (f : Fault) : (s.raise f).txHead = s.txHead := rfl
@[simp] theorem raise_rxHead (f : Fault) : (s.raise f).rxHead = s.rxHead := rfl
@[simp] theorem raise_txWire (f : Fault) : (s.raise f).txWire = s.txWire := rfl
@[simp] theorem raise_fault (f : Fault) : (s.raise f).fault = s.fault.or (some f) := rfl
@[simp] theorem raise_refused (f : Fault) : (s.raise f).refused = s.refused := rfl
@[simp] theorem raise_cmdCount (f : Fault) : (s.raise f).cmdCount = s.cmdCount := rfl
@[simp] theorem raise_dataIn (f : Fault) : (s.raise f).dataIn = s.dataIn := rfl
@[simp] theorem raise_dataOut (f : Fault) : (s.raise f).dataOut = s.dataOut := rfl
@[simp] theorem raise_inputs (f : Fault) : (s.raise f).inputs = s.inputs := rfl
@[simp] theorem raise_devData (f : Fault) : (s.raise f).devData = s.devData := rfl
@[simp] theorem raise_draws (f : Fault) : (s.raise f).draws = s.draws := rfl

/-! ### returning a result -/

@[simp] theorem ret_cfg (c : ResultCode) (n : Half) : (s.ret c n).cfg = s.cfg := rfl
@[simp] theorem ret_life (c : ResultCode) (n : Half) : (s.ret c n).life = s.life := rfl
@[simp] theorem ret_txTail (c : ResultCode) (n : Half) : (s.ret c n).txTail = s.txTail := rfl
@[simp] theorem ret_rxTail (c : ResultCode) (n : Half) : (s.ret c n).rxTail = s.rxTail := rfl
@[simp] theorem ret_result (c : ResultCode) (n : Half) : (s.ret c n).result = resultWord c n := rfl
@[simp] theorem ret_mem (c : ResultCode) (n : Half) : (s.ret c n).mem = s.mem := rfl
@[simp] theorem ret_regShadow (c : ResultCode) (n : Half) : (s.ret c n).regShadow = s.regShadow := rfl
@[simp] theorem ret_regLog (c : ResultCode) (n : Half) : (s.ret c n).regLog = s.regLog := rfl
@[simp] theorem ret_txHead (c : ResultCode) (n : Half) : (s.ret c n).txHead = s.txHead := rfl
@[simp] theorem ret_rxHead (c : ResultCode) (n : Half) : (s.ret c n).rxHead = s.rxHead := rfl
@[simp] theorem ret_txWire (c : ResultCode) (n : Half) : (s.ret c n).txWire = s.txWire := rfl
@[simp] theorem ret_fault (c : ResultCode) (n : Half) : (s.ret c n).fault = s.fault := rfl
@[simp] theorem ret_refused (c : ResultCode) (n : Half) : (s.ret c n).refused = s.refused := rfl
@[simp] theorem ret_cmdCount (c : ResultCode) (n : Half) : (s.ret c n).cmdCount = s.cmdCount := rfl
@[simp] theorem ret_dataIn (c : ResultCode) (n : Half) : (s.ret c n).dataIn = s.dataIn := rfl
@[simp] theorem ret_dataOut (c : ResultCode) (n : Half) : (s.ret c n).dataOut = s.dataOut := rfl
@[simp] theorem ret_inputs (c : ResultCode) (n : Half) : (s.ret c n).inputs = s.inputs := rfl
@[simp] theorem ret_devData (c : ResultCode) (n : Half) : (s.ret c n).devData = s.devData := rfl
@[simp] theorem ret_draws (c : ResultCode) (n : Half) : (s.ret c n).draws = s.draws := rfl

/-! ### marking a refusal -/

@[simp] theorem refuse_cfg (r : Refusal) : (s.refuse r).cfg = s.cfg := rfl
@[simp] theorem refuse_life (r : Refusal) : (s.refuse r).life = s.life := rfl
@[simp] theorem refuse_txTail (r : Refusal) : (s.refuse r).txTail = s.txTail := rfl
@[simp] theorem refuse_rxTail (r : Refusal) : (s.refuse r).rxTail = s.rxTail := rfl
@[simp] theorem refuse_result (r : Refusal) : (s.refuse r).result = s.result := rfl
@[simp] theorem refuse_mem (r : Refusal) : (s.refuse r).mem = s.mem := rfl
@[simp] theorem refuse_regShadow (r : Refusal) : (s.refuse r).regShadow = s.regShadow := rfl
@[simp] theorem refuse_regLog (r : Refusal) : (s.refuse r).regLog = s.regLog := rfl
@[simp] theorem refuse_txHead (r : Refusal) : (s.refuse r).txHead = s.txHead := rfl
@[simp] theorem refuse_rxHead (r : Refusal) : (s.refuse r).rxHead = s.rxHead := rfl
@[simp] theorem refuse_txWire (r : Refusal) : (s.refuse r).txWire = s.txWire := rfl
@[simp] theorem refuse_fault (r : Refusal) : (s.refuse r).fault = s.fault := rfl
@[simp] theorem refuse_refused (r : Refusal) : (s.refuse r).refused = s.refused.or (some r) := rfl
@[simp] theorem refuse_cmdCount (r : Refusal) : (s.refuse r).cmdCount = s.cmdCount := rfl
@[simp] theorem refuse_dataIn (r : Refusal) : (s.refuse r).dataIn = s.dataIn := rfl
@[simp] theorem refuse_dataOut (r : Refusal) : (s.refuse r).dataOut = s.dataOut := rfl
@[simp] theorem refuse_inputs (r : Refusal) : (s.refuse r).inputs = s.inputs := rfl
@[simp] theorem refuse_devData (r : Refusal) : (s.refuse r).devData = s.devData := rfl
@[simp] theorem refuse_draws (r : Refusal) : (s.refuse r).draws = s.draws := rfl

/-! ### starting a command -/

@[simp] theorem beginCommand_cfg : (s.beginCommand).cfg = s.cfg := rfl
@[simp] theorem beginCommand_life : (s.beginCommand).life = s.life := rfl
@[simp] theorem beginCommand_txTail : (s.beginCommand).txTail = s.txTail := rfl
@[simp] theorem beginCommand_rxTail : (s.beginCommand).rxTail = s.rxTail := rfl
@[simp] theorem beginCommand_result : (s.beginCommand).result = s.result := rfl
@[simp] theorem beginCommand_mem : (s.beginCommand).mem = s.mem := rfl
@[simp] theorem beginCommand_regShadow : (s.beginCommand).regShadow = s.regShadow := rfl
@[simp] theorem beginCommand_regLog : (s.beginCommand).regLog = s.regLog := rfl
@[simp] theorem beginCommand_txHead : (s.beginCommand).txHead = s.txHead := rfl
@[simp] theorem beginCommand_rxHead : (s.beginCommand).rxHead = s.rxHead := rfl
@[simp] theorem beginCommand_txWire : (s.beginCommand).txWire = s.txWire := rfl
@[simp] theorem beginCommand_fault : (s.beginCommand).fault = s.fault := rfl
@[simp] theorem beginCommand_refused : (s.beginCommand).refused = s.refused := rfl
@[simp] theorem beginCommand_cmdCount : (s.beginCommand).cmdCount = s.cmdCount + 1 := rfl
@[simp] theorem beginCommand_dataIn : (s.beginCommand).dataIn = s.dataIn := rfl
@[simp] theorem beginCommand_dataOut : (s.beginCommand).dataOut = s.dataOut := rfl
@[simp] theorem beginCommand_inputs : (s.beginCommand).inputs = s.inputs := rfl
@[simp] theorem beginCommand_devData : (s.beginCommand).devData = s.devData := rfl
@[simp] theorem beginCommand_draws : (s.beginCommand).draws = s.draws := rfl

/-! ### entering a lifecycle state -/

@[simp] theorem setLife_cfg (l : Life) : (s.setLife l).cfg = s.cfg := rfl
@[simp] theorem setLife_life (l : Life) : (s.setLife l).life = l := rfl
@[simp] theorem setLife_txTail (l : Life) : (s.setLife l).txTail = s.txTail := rfl
@[simp] theorem setLife_rxTail (l : Life) : (s.setLife l).rxTail = s.rxTail := rfl
@[simp] theorem setLife_result (l : Life) : (s.setLife l).result = s.result := rfl
@[simp] theorem setLife_mem (l : Life) : (s.setLife l).mem = s.mem := rfl
@[simp] theorem setLife_regShadow (l : Life) : (s.setLife l).regShadow = s.regShadow := rfl
@[simp] theorem setLife_regLog (l : Life) : (s.setLife l).regLog = s.regLog := rfl
@[simp] theorem setLife_txHead (l : Life) : (s.setLife l).txHead = s.txHead := rfl
@[simp] theorem setLife_rxHead (l : Life) : (s.setLife l).rxHead = s.rxHead := rfl
@[simp] theorem setLife_txWire (l : Life) : (s.setLife l).txWire = s.txWire := rfl
@[simp] theorem setLife_fault (l : Life) : (s.setLife l).fault = s.fault := rfl
@[simp] theorem setLife_refused (l : Life) : (s.setLife l).refused = s.refused := rfl
@[simp] theorem setLife_cmdCount (l : Life) : (s.setLife l).cmdCount = s.cmdCount := rfl
@[simp] theorem setLife_dataIn (l : Life) : (s.setLife l).dataIn = s.dataIn := rfl
@[simp] theorem setLife_dataOut (l : Life) : (s.setLife l).dataOut = s.dataOut := rfl
@[simp] theorem setLife_inputs (l : Life) : (s.setLife l).inputs = s.inputs := rfl
@[simp] theorem setLife_devData (l : Life) : (s.setLife l).devData = s.devData := rfl
@[simp] theorem setLife_draws (l : Life) : (s.setLife l).draws = s.draws := rfl

/-! ### replacing memory -/

@[simp] theorem setMem_cfg (m : List Host.Cell) : (s.setMem m).cfg = s.cfg := rfl
@[simp] theorem setMem_life (m : List Host.Cell) : (s.setMem m).life = s.life := rfl
@[simp] theorem setMem_txTail (m : List Host.Cell) : (s.setMem m).txTail = s.txTail := rfl
@[simp] theorem setMem_rxTail (m : List Host.Cell) : (s.setMem m).rxTail = s.rxTail := rfl
@[simp] theorem setMem_result (m : List Host.Cell) : (s.setMem m).result = s.result := rfl
@[simp] theorem setMem_mem (m : List Host.Cell) : (s.setMem m).mem = m := rfl
@[simp] theorem setMem_regShadow (m : List Host.Cell) : (s.setMem m).regShadow = s.regShadow := rfl
@[simp] theorem setMem_regLog (m : List Host.Cell) : (s.setMem m).regLog = s.regLog := rfl
@[simp] theorem setMem_txHead (m : List Host.Cell) : (s.setMem m).txHead = s.txHead := rfl
@[simp] theorem setMem_rxHead (m : List Host.Cell) : (s.setMem m).rxHead = s.rxHead := rfl
@[simp] theorem setMem_txWire (m : List Host.Cell) : (s.setMem m).txWire = s.txWire := rfl
@[simp] theorem setMem_fault (m : List Host.Cell) : (s.setMem m).fault = s.fault := rfl
@[simp] theorem setMem_refused (m : List Host.Cell) : (s.setMem m).refused = s.refused := rfl
@[simp] theorem setMem_cmdCount (m : List Host.Cell) : (s.setMem m).cmdCount = s.cmdCount := rfl
@[simp] theorem setMem_dataIn (m : List Host.Cell) : (s.setMem m).dataIn = s.dataIn := rfl
@[simp] theorem setMem_dataOut (m : List Host.Cell) : (s.setMem m).dataOut = s.dataOut := rfl
@[simp] theorem setMem_inputs (m : List Host.Cell) : (s.setMem m).inputs = s.inputs := rfl
@[simp] theorem setMem_devData (m : List Host.Cell) : (s.setMem m).devData = s.devData := rfl
@[simp] theorem setMem_draws (m : List Host.Cell) : (s.setMem m).draws = s.draws := rfl

/-! ### logging a transaction -/

@[simp] theorem logReg_cfg (o : RegOp) : (s.logReg o).cfg = s.cfg := rfl
@[simp] theorem logReg_life (o : RegOp) : (s.logReg o).life = s.life := rfl
@[simp] theorem logReg_txTail (o : RegOp) : (s.logReg o).txTail = s.txTail := rfl
@[simp] theorem logReg_rxTail (o : RegOp) : (s.logReg o).rxTail = s.rxTail := rfl
@[simp] theorem logReg_result (o : RegOp) : (s.logReg o).result = s.result := rfl
@[simp] theorem logReg_mem (o : RegOp) : (s.logReg o).mem = s.mem := rfl
@[simp] theorem logReg_regShadow (o : RegOp) : (s.logReg o).regShadow = s.regShadow := rfl
@[simp] theorem logReg_regLog (o : RegOp) : (s.logReg o).regLog = s.regLog ++ [⟨s.cmdCount, o⟩] := rfl
@[simp] theorem logReg_txHead (o : RegOp) : (s.logReg o).txHead = s.txHead := rfl
@[simp] theorem logReg_rxHead (o : RegOp) : (s.logReg o).rxHead = s.rxHead := rfl
@[simp] theorem logReg_txWire (o : RegOp) : (s.logReg o).txWire = s.txWire := rfl
@[simp] theorem logReg_fault (o : RegOp) : (s.logReg o).fault = s.fault := rfl
@[simp] theorem logReg_refused (o : RegOp) : (s.logReg o).refused = s.refused := rfl
@[simp] theorem logReg_cmdCount (o : RegOp) : (s.logReg o).cmdCount = s.cmdCount := rfl
@[simp] theorem logReg_dataIn (o : RegOp) : (s.logReg o).dataIn = s.dataIn := rfl
@[simp] theorem logReg_dataOut (o : RegOp) : (s.logReg o).dataOut = s.dataOut := rfl
@[simp] theorem logReg_inputs (o : RegOp) : (s.logReg o).inputs = s.inputs := rfl
@[simp] theorem logReg_devData (o : RegOp) : (s.logReg o).devData = s.devData := rfl
@[simp] theorem logReg_draws (o : RegOp) : (s.logReg o).draws = s.draws := rfl

/-! ### a register write in the window -/

@[simp] theorem putReg_cfg (i : Nat) (v : Word) : (s.putReg i v).cfg = s.cfg := rfl
@[simp] theorem putReg_life (i : Nat) (v : Word) : (s.putReg i v).life = s.life := rfl
@[simp] theorem putReg_txTail (i : Nat) (v : Word) : (s.putReg i v).txTail = s.txTail := rfl
@[simp] theorem putReg_rxTail (i : Nat) (v : Word) : (s.putReg i v).rxTail = s.rxTail := rfl
@[simp] theorem putReg_result (i : Nat) (v : Word) : (s.putReg i v).result = s.result := rfl
@[simp] theorem putReg_mem (i : Nat) (v : Word) : (s.putReg i v).mem = s.mem := rfl
@[simp] theorem putReg_regShadow (i : Nat) (v : Word) : (s.putReg i v).regShadow = cellWrite s.regShadow i [v] := rfl
@[simp] theorem putReg_regLog (i : Nat) (v : Word) : (s.putReg i v).regLog = s.regLog ++ [⟨s.cmdCount, .wr i v⟩] := rfl
@[simp] theorem putReg_txHead (i : Nat) (v : Word) : (s.putReg i v).txHead = headAfter s.cfg.order regTDH i v s.txHead := rfl
@[simp] theorem putReg_rxHead (i : Nat) (v : Word) : (s.putReg i v).rxHead = headAfter s.cfg.order regRDH i v s.rxHead := rfl
@[simp] theorem putReg_txWire (i : Nat) (v : Word) : (s.putReg i v).txWire = s.txWire := rfl
@[simp] theorem putReg_fault (i : Nat) (v : Word) : (s.putReg i v).fault = s.fault := rfl
@[simp] theorem putReg_refused (i : Nat) (v : Word) : (s.putReg i v).refused = s.refused := rfl
@[simp] theorem putReg_cmdCount (i : Nat) (v : Word) : (s.putReg i v).cmdCount = s.cmdCount := rfl
@[simp] theorem putReg_dataIn (i : Nat) (v : Word) : (s.putReg i v).dataIn = s.dataIn := rfl
@[simp] theorem putReg_dataOut (i : Nat) (v : Word) : (s.putReg i v).dataOut = s.dataOut := rfl
@[simp] theorem putReg_inputs (i : Nat) (v : Word) : (s.putReg i v).inputs = s.inputs := rfl
@[simp] theorem putReg_devData (i : Nat) (v : Word) : (s.putReg i v).devData = s.devData := rfl
@[simp] theorem putReg_draws (i : Nat) (v : Word) : (s.putReg i v).draws = s.draws := rfl

/-! ### drawing -/

@[simp] theorem drew_cfg (n : Nat) : (s.drew n).cfg = s.cfg := rfl
@[simp] theorem drew_life (n : Nat) : (s.drew n).life = s.life := rfl
@[simp] theorem drew_txTail (n : Nat) : (s.drew n).txTail = s.txTail := rfl
@[simp] theorem drew_rxTail (n : Nat) : (s.drew n).rxTail = s.rxTail := rfl
@[simp] theorem drew_result (n : Nat) : (s.drew n).result = s.result := rfl
@[simp] theorem drew_mem (n : Nat) : (s.drew n).mem = s.mem := rfl
@[simp] theorem drew_regShadow (n : Nat) : (s.drew n).regShadow = s.regShadow := rfl
@[simp] theorem drew_regLog (n : Nat) : (s.drew n).regLog = s.regLog := rfl
@[simp] theorem drew_txHead (n : Nat) : (s.drew n).txHead = s.txHead := rfl
@[simp] theorem drew_rxHead (n : Nat) : (s.drew n).rxHead = s.rxHead := rfl
@[simp] theorem drew_txWire (n : Nat) : (s.drew n).txWire = s.txWire := rfl
@[simp] theorem drew_fault (n : Nat) : (s.drew n).fault = s.fault := rfl
@[simp] theorem drew_refused (n : Nat) : (s.drew n).refused = s.refused := rfl
@[simp] theorem drew_cmdCount (n : Nat) : (s.drew n).cmdCount = s.cmdCount := rfl
@[simp] theorem drew_dataIn (n : Nat) : (s.drew n).dataIn = s.dataIn := rfl
@[simp] theorem drew_dataOut (n : Nat) : (s.drew n).dataOut = s.dataOut := rfl
@[simp] theorem drew_inputs (n : Nat) : (s.drew n).inputs = s.inputs := rfl
@[simp] theorem drew_devData (n : Nat) : (s.drew n).devData = s.devData := rfl
@[simp] theorem drew_draws (n : Nat) : (s.drew n).draws = s.draws + n := rfl

/-! ### taking payload -/

@[simp] theorem portIn_cfg (n : Nat) : (portIn n s).cfg = s.cfg := rfl
@[simp] theorem portIn_life (n : Nat) : (portIn n s).life = s.life := rfl
@[simp] theorem portIn_txTail (n : Nat) : (portIn n s).txTail = s.txTail := rfl
@[simp] theorem portIn_rxTail (n : Nat) : (portIn n s).rxTail = s.rxTail := rfl
@[simp] theorem portIn_result (n : Nat) : (portIn n s).result = s.result := rfl
@[simp] theorem portIn_mem (n : Nat) : (portIn n s).mem = s.mem := rfl
@[simp] theorem portIn_regShadow (n : Nat) : (portIn n s).regShadow = s.regShadow := rfl
@[simp] theorem portIn_regLog (n : Nat) : (portIn n s).regLog = s.regLog := rfl
@[simp] theorem portIn_txHead (n : Nat) : (portIn n s).txHead = s.txHead := rfl
@[simp] theorem portIn_rxHead (n : Nat) : (portIn n s).rxHead = s.rxHead := rfl
@[simp] theorem portIn_txWire (n : Nat) : (portIn n s).txWire = s.txWire := rfl
@[simp] theorem portIn_fault (n : Nat) : (portIn n s).fault = s.fault := rfl
@[simp] theorem portIn_refused (n : Nat) : (portIn n s).refused = s.refused := rfl
@[simp] theorem portIn_cmdCount (n : Nat) : (portIn n s).cmdCount = s.cmdCount := rfl
@[simp] theorem portIn_dataIn (n : Nat) : (portIn n s).dataIn = s.dataIn.drop n := rfl
@[simp] theorem portIn_dataOut (n : Nat) : (portIn n s).dataOut = s.dataOut := rfl
@[simp] theorem portIn_inputs (n : Nat) : (portIn n s).inputs = s.inputs := rfl
@[simp] theorem portIn_devData (n : Nat) : (portIn n s).devData = s.devData := rfl
@[simp] theorem portIn_draws (n : Nat) : (portIn n s).draws = s.draws + (n - s.dataIn.length) := rfl

/-! ### handing bytes out -/

@[simp] theorem portOut_cfg (b : List Byte) : (portOut b s).cfg = s.cfg := rfl
@[simp] theorem portOut_life (b : List Byte) : (portOut b s).life = s.life := rfl
@[simp] theorem portOut_txTail (b : List Byte) : (portOut b s).txTail = s.txTail := rfl
@[simp] theorem portOut_rxTail (b : List Byte) : (portOut b s).rxTail = s.rxTail := rfl
@[simp] theorem portOut_result (b : List Byte) : (portOut b s).result = s.result := rfl
@[simp] theorem portOut_mem (b : List Byte) : (portOut b s).mem = s.mem := rfl
@[simp] theorem portOut_regShadow (b : List Byte) : (portOut b s).regShadow = s.regShadow := rfl
@[simp] theorem portOut_regLog (b : List Byte) : (portOut b s).regLog = s.regLog := rfl
@[simp] theorem portOut_txHead (b : List Byte) : (portOut b s).txHead = s.txHead := rfl
@[simp] theorem portOut_rxHead (b : List Byte) : (portOut b s).rxHead = s.rxHead := rfl
@[simp] theorem portOut_txWire (b : List Byte) : (portOut b s).txWire = s.txWire := rfl
@[simp] theorem portOut_fault (b : List Byte) : (portOut b s).fault = s.fault := rfl
@[simp] theorem portOut_refused (b : List Byte) : (portOut b s).refused = s.refused := rfl
@[simp] theorem portOut_cmdCount (b : List Byte) : (portOut b s).cmdCount = s.cmdCount := rfl
@[simp] theorem portOut_dataIn (b : List Byte) : (portOut b s).dataIn = s.dataIn := rfl
@[simp] theorem portOut_dataOut (b : List Byte) : (portOut b s).dataOut = s.dataOut ++ b := rfl
@[simp] theorem portOut_inputs (b : List Byte) : (portOut b s).inputs = s.inputs := rfl
@[simp] theorem portOut_devData (b : List Byte) : (portOut b s).devData = s.devData := rfl
@[simp] theorem portOut_draws (b : List Byte) : (portOut b s).draws = s.draws := rfl

/-! ### ATTACH's rings and cursors -/

@[simp] theorem attachRings_cfg : (attachRings s).cfg = s.cfg := rfl
@[simp] theorem attachRings_life : (attachRings s).life = s.life := rfl
@[simp] theorem attachRings_txTail : (attachRings s).txTail = 0#16 := rfl
@[simp] theorem attachRings_rxTail : (attachRings s).rxTail = BitVec.ofNat 16 (s.cfg.nRx - 1) := rfl
@[simp] theorem attachRings_result : (attachRings s).result = s.result := rfl
@[simp] theorem attachRings_mem : (attachRings s).mem = initMem s.cfg s.mem := rfl
@[simp] theorem attachRings_regShadow : (attachRings s).regShadow = s.regShadow := rfl
@[simp] theorem attachRings_regLog : (attachRings s).regLog = s.regLog := rfl
@[simp] theorem attachRings_txHead : (attachRings s).txHead = s.txHead := rfl
@[simp] theorem attachRings_rxHead : (attachRings s).rxHead = s.rxHead := rfl
@[simp] theorem attachRings_txWire : (attachRings s).txWire = s.txWire := rfl
@[simp] theorem attachRings_fault : (attachRings s).fault = s.fault := rfl
@[simp] theorem attachRings_refused : (attachRings s).refused = s.refused := rfl
@[simp] theorem attachRings_cmdCount : (attachRings s).cmdCount = s.cmdCount := rfl
@[simp] theorem attachRings_dataIn : (attachRings s).dataIn = s.dataIn := rfl
@[simp] theorem attachRings_dataOut : (attachRings s).dataOut = s.dataOut := rfl
@[simp] theorem attachRings_inputs : (attachRings s).inputs = s.inputs := rfl
@[simp] theorem attachRings_devData : (attachRings s).devData = s.devData := rfl
@[simp] theorem attachRings_draws : (attachRings s).draws = s.draws := rfl

/-! ### an enabled DEV_TXDONE -/

@[simp] theorem txDoneWith_cfg (i : Half) (f : List Byte) (n : Nat) : (txDoneWith i f n s).cfg = s.cfg := rfl
@[simp] theorem txDoneWith_life (i : Half) (f : List Byte) (n : Nat) : (txDoneWith i f n s).life = s.life := rfl
@[simp] theorem txDoneWith_txTail (i : Half) (f : List Byte) (n : Nat) : (txDoneWith i f n s).txTail = s.txTail := rfl
@[simp] theorem txDoneWith_rxTail (i : Half) (f : List Byte) (n : Nat) : (txDoneWith i f n s).rxTail = s.rxTail := rfl
@[simp] theorem txDoneWith_result (i : Half) (f : List Byte) (n : Nat) : (txDoneWith i f n s).result = s.result := rfl
@[simp] theorem txDoneWith_mem (i : Half) (f : List Byte) (n : Nat) : (txDoneWith i f n s).mem =
    cellWrite s.mem (txDescAddr s.cfg i.toNat + offStatus) [txDoneStatus (Config.freeTxStatus s.draws)] := rfl
@[simp] theorem txDoneWith_regShadow (i : Half) (f : List Byte) (n : Nat) : (txDoneWith i f n s).regShadow = s.regShadow := rfl
@[simp] theorem txDoneWith_regLog (i : Half) (f : List Byte) (n : Nat) : (txDoneWith i f n s).regLog = s.regLog := rfl
@[simp] theorem txDoneWith_txHead (i : Half) (f : List Byte) (n : Nat) : (txDoneWith i f n s).txHead =
    headAdvance s.cfg.order s.cfg.nTx s.txHead := rfl
@[simp] theorem txDoneWith_rxHead (i : Half) (f : List Byte) (n : Nat) : (txDoneWith i f n s).rxHead = s.rxHead := rfl
@[simp] theorem txDoneWith_txWire (i : Half) (f : List Byte) (n : Nat) : (txDoneWith i f n s).txWire = s.txWire ++ [f] := rfl
@[simp] theorem txDoneWith_fault (i : Half) (f : List Byte) (n : Nat) : (txDoneWith i f n s).fault = s.fault := rfl
@[simp] theorem txDoneWith_refused (i : Half) (f : List Byte) (n : Nat) : (txDoneWith i f n s).refused = s.refused := rfl
@[simp] theorem txDoneWith_cmdCount (i : Half) (f : List Byte) (n : Nat) : (txDoneWith i f n s).cmdCount = s.cmdCount := rfl
@[simp] theorem txDoneWith_dataIn (i : Half) (f : List Byte) (n : Nat) : (txDoneWith i f n s).dataIn = s.dataIn := rfl
@[simp] theorem txDoneWith_dataOut (i : Half) (f : List Byte) (n : Nat) : (txDoneWith i f n s).dataOut = s.dataOut := rfl
@[simp] theorem txDoneWith_inputs (i : Half) (f : List Byte) (n : Nat) : (txDoneWith i f n s).inputs = s.inputs := rfl
@[simp] theorem txDoneWith_devData (i : Half) (f : List Byte) (n : Nat) : (txDoneWith i f n s).devData = s.devData := rfl
@[simp] theorem txDoneWith_draws (i : Half) (f : List Byte) (n : Nat) : (txDoneWith i f n s).draws = s.draws + n := rfl

/-! ### an enabled DEV_RXFILL -/

@[simp] theorem rxFillStep_cfg (i : Half) (e : Bool) (l : Half) : (rxFillStep i e l s).cfg = s.cfg := by
  simp only [rxFillStep]
@[simp] theorem rxFillStep_life (i : Half) (e : Bool) (l : Half) : (rxFillStep i e l s).life = s.life := by
  simp only [rxFillStep]
@[simp] theorem rxFillStep_txTail (i : Half) (e : Bool) (l : Half) : (rxFillStep i e l s).txTail = s.txTail := by
  simp only [rxFillStep]
@[simp] theorem rxFillStep_rxTail (i : Half) (e : Bool) (l : Half) : (rxFillStep i e l s).rxTail = s.rxTail := by
  simp only [rxFillStep]
@[simp] theorem rxFillStep_result (i : Half) (e : Bool) (l : Half) : (rxFillStep i e l s).result = s.result := by
  simp only [rxFillStep]
@[simp] theorem rxFillStep_mem (i : Half) (e : Bool) (l : Half) : (rxFillStep i e l s).mem = rxFillMem s.cfg s.mem i.toNat e l s.devData s.draws := by
  simp only [rxFillStep]
@[simp] theorem rxFillStep_regShadow (i : Half) (e : Bool) (l : Half) : (rxFillStep i e l s).regShadow = s.regShadow := by
  simp only [rxFillStep]
@[simp] theorem rxFillStep_regLog (i : Half) (e : Bool) (l : Half) : (rxFillStep i e l s).regLog = s.regLog := by
  simp only [rxFillStep]
@[simp] theorem rxFillStep_txHead (i : Half) (e : Bool) (l : Half) : (rxFillStep i e l s).txHead = s.txHead := by
  simp only [rxFillStep]
@[simp] theorem rxFillStep_rxHead (i : Half) (e : Bool) (l : Half) : (rxFillStep i e l s).rxHead = headAdvance s.cfg.order s.cfg.nRx s.rxHead := by
  simp only [rxFillStep]
@[simp] theorem rxFillStep_txWire (i : Half) (e : Bool) (l : Half) : (rxFillStep i e l s).txWire = s.txWire := by
  simp only [rxFillStep]
@[simp] theorem rxFillStep_fault (i : Half) (e : Bool) (l : Half) : (rxFillStep i e l s).fault = s.fault := by
  simp only [rxFillStep]
@[simp] theorem rxFillStep_refused (i : Half) (e : Bool) (l : Half) : (rxFillStep i e l s).refused = s.refused := by
  simp only [rxFillStep]
@[simp] theorem rxFillStep_cmdCount (i : Half) (e : Bool) (l : Half) : (rxFillStep i e l s).cmdCount = s.cmdCount := by
  simp only [rxFillStep]
@[simp] theorem rxFillStep_dataIn (i : Half) (e : Bool) (l : Half) : (rxFillStep i e l s).dataIn = s.dataIn := by
  simp only [rxFillStep]
@[simp] theorem rxFillStep_dataOut (i : Half) (e : Bool) (l : Half) : (rxFillStep i e l s).dataOut = s.dataOut := by
  simp only [rxFillStep]
@[simp] theorem rxFillStep_inputs (i : Half) (e : Bool) (l : Half) : (rxFillStep i e l s).inputs = s.inputs := by
  simp only [rxFillStep]
@[simp] theorem rxFillStep_devData (i : Half) (e : Bool) (l : Half) : (rxFillStep i e l s).devData = s.devData := by
  simp only [rxFillStep]
@[simp] theorem rxFillStep_draws (i : Half) (e : Bool) (l : Half) : (rxFillStep i e l s).draws = s.draws + (s.cfg.rxBuf + 2) := by
  simp only [rxFillStep]

end Sys2Proof.Laws
end

