-- ==== Sys2Proof/Laws/Ops.lean ====
section
/-! SUPPORT. One lemma per shared operation that says once all it can do: stores to memory, register writes, the
lifecycle test, fetching, and one step. -/

namespace Sys2Proof.Laws

open Sys2Proof.Machine

/-! ### What a store can do -/

/-- Memory goes from m to m' by stores at addresses where P holds: the canonical form is kept, every other byte reads as
before, and no byte loses its value. -/
structure MemStep (m m' : List Host.Cell) (P : Nat → Prop) : Prop where
  wf : Memory.wf m → Memory.wf m'
  same : ∀ a, ¬ P a → cellRead m' a = cellRead m a
  kept : ∀ a, (cellRead m a).isSome → (cellRead m' a).isSome

theorem MemStep.refl (m : List Host.Cell) (P : Nat → Prop) : MemStep m m P := ⟨id, fun _ _ => rfl, fun _ => id⟩

theorem MemStep.trans {m m' m'' : List Host.Cell} {P : Nat → Prop} (h : MemStep m m' P) (h' : MemStep m' m'' P) :
    MemStep m m'' P :=
  ⟨fun w => h'.wf (h.wf w), fun a ha => (h'.same a ha).trans (h.same a ha), fun a ha => h'.kept a (h.kept a ha)⟩

theorem MemStep.mono {m m' : List Host.Cell} {P Q : Nat → Prop} (h : MemStep m m' P) (hpq : ∀ a, P a → Q a) :
    MemStep m m' Q :=
  ⟨h.wf, fun a ha => h.same a fun hp => ha (hpq a hp), h.kept⟩

/-- One write stores at its own bytes. -/
theorem memStep_write (m : List Host.Cell) (a : Nat) (vs : List Byte) (P : Nat → Prop)
    (h : ∀ b, a ≤ b → b < a + vs.length → P b) : MemStep m (cellWrite m a vs) P := by
  refine ⟨fun w => cellWrite_sorted m a vs w, fun b hb => ?_, fun b hb => ?_⟩
  · refine cellRead_write_other m a b vs ?_
    by_contra hc
    exact hb (h b (by omega) (by omega))
  · rw [cellRead_write]
    split
    · next hr =>
      have : b - a < vs.length := by omega
      simp [this]
    · exact hb

/-- One byte update stores at that byte. -/
theorem memStep_update {m m' : List Host.Cell} {a : Nat} {f : Byte → Byte} (P : Nat → Prop) (h : P a)
    (hu : cellUpdate m a f = some m') : MemStep m m' P := by
  obtain ⟨v, -, rfl⟩ := (cellUpdate_eq_some m m' a f).mp hu
  refine memStep_write m a [f v] P fun b h1 h2 => ?_
  have : b = a := by simp only [List.length_singleton] at h2; omega
  exact this ▸ h

/-! ### The register bus -/

/-- Every register the block's own rules use is in an admitted instance's window (R51). -/
theorem regWrite_admitted {s : State} {idx : Nat} {v : Word} (h : s.cfg.admitted = true) (hi : idx ≤ 0xE06) :
    regWrite idx v s = .ok (s.putReg idx v) := by
  have := admitted_ranges h
  unfold regWrite
  rw [if_pos (by omega)]

theorem regRead_admitted {s : State} {idx : Nat} {w : Word} (h : s.cfg.admitted = true) (hi : idx ≤ 0xE06) :
    regRead idx w s = .ok (s.logReg (.rd idx w)) := by
  have := admitted_ranges h
  unfold regRead
  rw [if_pos (by omega)]

theorem putReg_shadow_same (s : State) (idx : Nat) (v : Word) : (s.putReg idx v).shadow idx = some v := by
  simp [State.shadow]

theorem putReg_shadow_other (s : State) (idx j : Nat) (v : Word) (h : j ≠ idx) :
    (s.putReg idx v).shadow j = s.shadow j := by
  unfold State.shadow
  rw [putReg_regShadow, cellRead_write_other _ _ _ _ (by simp only [List.length_singleton]; omega)]

/-- Every field but RegShadow, RegLog, the heads and the fault is the same in both states. -/
def SameButRegs (s s' : State) : Prop :=
  s'.cfg = s.cfg ∧ s'.life = s.life ∧ s'.txTail = s.txTail ∧ s'.rxTail = s.rxTail ∧ s'.result = s.result ∧
  s'.mem = s.mem ∧ s'.txWire = s.txWire ∧ s'.refused = s.refused ∧ s'.cmdCount = s.cmdCount ∧ s'.dataIn = s.dataIn ∧
  s'.dataOut = s.dataOut ∧ s'.inputs = s.inputs ∧ s'.devData = s.devData ∧ s'.draws = s.draws

/-- The writes as RegLog entries of command n. -/
def wrLog (n : Nat) (ws : List (Nat × Word)) : List RegEntry := ws.map fun w => ⟨n, .wr w.1 w.2⟩

/-- The state after register writes that are all in the window. -/
def putRegAll : List (Nat × Word) → State → State
  | [], s => s
  | (i, v) :: ws, s => putRegAll ws (s.putReg i v)

/-- All a run of register writes can do: every write is in the window and made, or the first one out of it faults and
those before it are made (R191, R238). -/
theorem regWriteAll_cases (ws : List (Nat × Word)) (s : State) :
    ((∀ w ∈ ws, w.1 < s.cfg.regCount) ∧ regWriteAll ws s = .ok (putRegAll ws s)) ∨
    (∃ pre i v post, ws = pre ++ (i, v) :: post ∧ (∀ w ∈ pre, w.1 < s.cfg.regCount) ∧ s.cfg.regCount ≤ i ∧
      regWriteAll ws s = .error ((putRegAll pre s).raise .regOutOfRange)) := by
  induction ws generalizing s with
  | nil => exact .inl ⟨by simp, rfl⟩
  | cons w ws ih =>
    obtain ⟨i, v⟩ := w
    by_cases hi : i < s.cfg.regCount
    · have hw : regWrite i v s = .ok (s.putReg i v) := by simp [regWrite, hi]
      rcases ih (s.putReg i v) with ⟨h1, h2⟩ | ⟨pre, j, u, post, h1, h2, h3, h4⟩
      · refine .inl ⟨?_, ?_⟩
        · intro w hw'
          rcases List.mem_cons.mp hw' with rfl | hm
          · exact hi
          · simpa using h1 w hm
        · simp only [regWriteAll, hw, h2, putRegAll]
      · refine .inr ⟨(i, v) :: pre, j, u, post, by simp [h1], ?_, by simpa using h3, ?_⟩
        · intro w hw'
          rcases List.mem_cons.mp hw' with rfl | hm
          · exact hi
          · simpa using h2 w hm
        · simp only [regWriteAll, hw, h4, putRegAll]
    · refine .inr ⟨[], i, v, ws, rfl, by simp, by omega, ?_⟩
      simp [regWriteAll, regWrite, hi, putRegAll]

theorem putRegAll_append (ws us : List (Nat × Word)) (s : State) :
    putRegAll (ws ++ us) s = putRegAll us (putRegAll ws s) := by
  induction ws generalizing s with
  | nil => rfl
  | cons w ws ih => exact ih _

theorem putRegAll_same (ws : List (Nat × Word)) (s : State) :
    SameButRegs s (putRegAll ws s) ∧ (putRegAll ws s).fault = s.fault := by
  induction ws generalizing s with
  | nil => simp [putRegAll, SameButRegs]
  | cons w ws ih =>
    have := ih (s.putReg w.1 w.2)
    simpa [putRegAll, SameButRegs] using this

theorem putRegAll_regLog (ws : List (Nat × Word)) (s : State) :
    (putRegAll ws s).regLog = s.regLog ++ wrLog s.cmdCount ws := by
  induction ws generalizing s with
  | nil => simp [putRegAll, wrLog]
  | cons w ws ih =>
    have := ih (s.putReg w.1 w.2)
    simpa [putRegAll, wrLog] using this

theorem putRegAll_shadow_wf (ws : List (Nat × Word)) (s : State) (h : Shadow.wf s.regShadow) :
    Shadow.wf (putRegAll ws s).regShadow := by
  induction ws generalizing s with
  | nil => exact h
  | cons w ws ih => exact ih _ (cellWrite_sorted s.regShadow w.1 [w.2] h)

/-- An index no write names keeps its RegShadow value. -/
theorem putRegAll_shadow_other (ws : List (Nat × Word)) (s : State) (j : Nat) (h : ∀ w ∈ ws, w.1 ≠ j) :
    (putRegAll ws s).shadow j = s.shadow j := by
  induction ws generalizing s with
  | nil => rfl
  | cons w ws ih =>
    have h1 := ih (s.putReg w.1 w.2) (fun u hu => h u (List.mem_cons_of_mem _ hu))
    have h2 := putReg_shadow_other s w.1 j w.2 (fun e => h w (List.mem_cons_self ..) e.symm)
    exact h1.trans h2

/-- The last write to an index is what RegShadow holds there. -/
theorem putRegAll_shadow_last (pre post : List (Nat × Word)) (j : Nat) (v : Word) (s : State)
    (h : ∀ w ∈ post, w.1 ≠ j) : (putRegAll (pre ++ (j, v) :: post) s).shadow j = some v := by
  rw [putRegAll_append]
  exact (putRegAll_shadow_other post _ j h).trans (cellRead_write_one _ j v)

/-- A write to another register leaves the head as it is. -/
theorem headAfter_other {order : DeviceOrder} {reg idx : Nat} {v : Word} {head : Half} (h : idx ≠ reg) :
    headAfter order reg idx v head = head := by
  cases order
  · rfl
  · exact if_neg h

/-- A head keeps its value where no write names its register. -/
theorem putRegAll_heads_other (ws : List (Nat × Word)) (s : State) :
    ((∀ w ∈ ws, w.1 ≠ regTDH) → (putRegAll ws s).txHead = s.txHead) ∧
    ((∀ w ∈ ws, w.1 ≠ regRDH) → (putRegAll ws s).rxHead = s.rxHead) := by
  induction ws generalizing s with
  | nil => exact ⟨fun _ => rfl, fun _ => rfl⟩
  | cons w ws ih =>
    have := ih (s.putReg w.1 w.2)
    exact ⟨fun h => (this.1 fun u hu => h u (List.mem_cons_of_mem _ hu)).trans (headAfter_other (h w (List.mem_cons_self ..))),
      fun h => (this.2 fun u hu => h u (List.mem_cons_of_mem _ hu)).trans (headAfter_other (h w (List.mem_cons_self ..)))⟩

/-- Under ring a head takes the low half of the last write to its register (R32, R216; log 15). -/
theorem putRegAll_heads_last (pre post : List (Nat × Word)) (v : Word) (s : State) (ho : s.cfg.order = .ring) :
    ((∀ w ∈ post, w.1 ≠ regTDH) →
      (putRegAll (pre ++ (regTDH, v) :: post) s).txHead = v.extractLsb' 0 16) ∧
    ((∀ w ∈ post, w.1 ≠ regRDH) →
      (putRegAll (pre ++ (regRDH, v) :: post) s).rxHead = v.extractLsb' 0 16) := by
  have hc : (putRegAll pre s).cfg.order = .ring := by rw [(putRegAll_same pre s).1.1]; exact ho
  constructor <;> intro h <;> rw [putRegAll_append]
  · refine ((putRegAll_heads_other post _).1 h).trans ?_
    rw [putReg_txHead, hc]; rfl
  · refine ((putRegAll_heads_other post _).2 h).trans ?_
    rw [putReg_rxHead, hc]; rfl

/-! ### The lifecycle test and counting -/

/-- All `runCommand` can do. -/
theorem runCommand_cases (adm : Admission) (body : State → State) (s : State) :
    (adm = .noStep ∧ runCommand adm body s = s) ∨
    (∃ f, adm = .faults f ∧ runCommand adm body s = s.beginCommand.raise f) ∨
    (adm = .executes ∧ runCommand adm body s = body s.beginCommand) := by
  cases adm with
  | noStep => exact .inl ⟨rfl, rfl⟩
  | faults f => exact .inr (.inl ⟨f, rfl, rfl⟩)
  | executes => exact .inr (.inr ⟨rfl, rfl⟩)

theorem admitRing_executes (s : State) : admitRing s = .executes ↔ s.Running := by
  unfold admitRing State.Running
  cases hf : s.fault <;> cases hl : s.life <;> simp

theorem admitAttach_executes (s : State) : admitAttach s = .executes ↔ s.life = .unattached ∧ s.fault = none := by
  unfold admitAttach
  cases hf : s.fault <;> cases hl : s.life <;> simp

theorem admitRing_faults (s : State) (f : Fault) :
    admitRing s = .faults f ↔ s.life = .unattached ∧ s.fault = none ∧ f = .notAttached := by
  unfold admitRing
  cases hf : s.fault <;> cases hl : s.life <;> simp [eq_comm]

theorem admitAttach_faults (s : State) (f : Fault) :
    admitAttach s = .faults f ↔ s.Running ∧ f = .reAttach := by
  unfold admitAttach State.Running
  cases hf : s.fault <;> cases hl : s.life <;> simp [eq_comm]

theorem admitRing_noStep (s : State) :
    admitRing s = .noStep ↔ s.fault ≠ none ∨ s.life = .halted ∨ s.life = .failed := by
  unfold admitRing
  cases hf : s.fault <;> cases hl : s.life <;> simp

theorem admitAttach_noStep (s : State) :
    admitAttach s = .noStep ↔ s.fault ≠ none ∨ s.life = .halted ∨ s.life = .failed := by
  unfold admitAttach
  cases hf : s.fault <;> cases hl : s.life <;> simp

/-! ### One step -/

/-- Every instruction answers a next state. -/
theorem exec_next (i : Instr) (s : State) : ∃ s', exec i s = .next s' := by
  cases i <;> exact ⟨_, rfl⟩

/-- Every step answers a next state: no fault and no refusal of the spec ends a run (R238, R239; log 4, log 6). -/
theorem step_next (s : State) : ∃ s', step s = .next s' := by
  unfold step
  cases fetch s with
  | none => exact ⟨_, rfl⟩
  | some d =>
    cases d with
    | error r => exact ⟨_, rfl⟩
    | ok i => exact exec_next i _

/-- All a step can do: nothing is presented, an entry is refused, or an instruction is executed. -/
theorem step_cases {s s' : State} (h : step s = .next s') :
    (s.inputs = [] ∧ s' = s) ∨
    (∃ r, fetch s = some (.error r) ∧ s' = s.takeInput.refuse r) ∨
    (∃ i, fetch s = some (.ok i) ∧ i.wf s.cfg = true ∧ exec i s.takeInput = .next s') := by
  unfold step at h
  cases hf : fetch s with
  | none =>
    rw [hf] at h
    refine .inl ⟨?_, (Host.Outcome.next.inj h).symm⟩
    unfold fetch at hf
    cases hi : s.inputs with
    | nil => rfl
    | cons a l => simp [hi] at hf
  | some d =>
    rw [hf] at h
    cases d with
    | error r => exact .inr (.inl ⟨r, rfl, (Host.Outcome.next.inj h).symm⟩)
    | ok i =>
      refine .inr (.inr ⟨i, rfl, ?_, h⟩)
      unfold fetch at hf
      cases hi : s.inputs with
      | nil => simp [hi] at hf
      | cons a l =>
        simp only [hi, Option.some.injEq, admitInput] at hf
        split at hf
        · cases hf
        · split at hf
          · next hw => cases hf; exact hw
          · cases hf

/-! Taking an entry off the schedule changes nothing but the schedule and the data latch. -/

@[simp] theorem takeInput_cfg (s : State) : s.takeInput.cfg = s.cfg := by
  unfold State.takeInput
  split <;> rfl

@[simp] theorem takeInput_life (s : State) : s.takeInput.life = s.life := by
  unfold State.takeInput
  split <;> rfl

@[simp] theorem takeInput_txTail (s : State) : s.takeInput.txTail = s.txTail := by
  unfold State.takeInput
  split <;> rfl

@[simp] theorem takeInput_rxTail (s : State) : s.takeInput.rxTail = s.rxTail := by
  unfold State.takeInput
  split <;> rfl

@[simp] theorem takeInput_result (s : State) : s.takeInput.result = s.result := by
  unfold State.takeInput
  split <;> rfl

@[simp] theorem takeInput_mem (s : State) : s.takeInput.mem = s.mem := by
  unfold State.takeInput
  split <;> rfl

@[simp] theorem takeInput_regShadow (s : State) : s.takeInput.regShadow = s.regShadow := by
  unfold State.takeInput
  split <;> rfl

@[simp] theorem takeInput_regLog (s : State) : s.takeInput.regLog = s.regLog := by
  unfold State.takeInput
  split <;> rfl

@[simp] theorem takeInput_txHead (s : State) : s.takeInput.txHead = s.txHead := by
  unfold State.takeInput
  split <;> rfl

@[simp] theorem takeInput_rxHead (s : State) : s.takeInput.rxHead = s.rxHead := by
  unfold State.takeInput
  split <;> rfl

@[simp] theorem takeInput_txWire (s : State) : s.takeInput.txWire = s.txWire := by
  unfold State.takeInput
  split <;> rfl

@[simp] theorem takeInput_fault (s : State) : s.takeInput.fault = s.fault := by
  unfold State.takeInput
  split <;> rfl

@[simp] theorem takeInput_refused (s : State) : s.takeInput.refused = s.refused := by
  unfold State.takeInput
  split <;> rfl

@[simp] theorem takeInput_cmdCount (s : State) : s.takeInput.cmdCount = s.cmdCount := by
  unfold State.takeInput
  split <;> rfl

@[simp] theorem takeInput_dataIn (s : State) : s.takeInput.dataIn = s.dataIn := by
  unfold State.takeInput
  split <;> rfl

@[simp] theorem takeInput_dataOut (s : State) : s.takeInput.dataOut = s.dataOut := by
  unfold State.takeInput
  split <;> rfl

@[simp] theorem takeInput_draws (s : State) : s.takeInput.draws = s.draws := by
  unfold State.takeInput
  split <;> rfl

theorem takeInput_cons (s : State) (inp : Input) (rest : List Input) (h : s.inputs = inp :: rest) :
    s.takeInput = { s with inputs := rest, devData := inp.data } := by
  simp [State.takeInput, h]

/-- All an instruction can do: its own meaning's next state. -/
theorem exec_cases {i : Instr} {s s' : State} (h : exec i s = .next s') :
    (i = .attach ∧ s' = runCommand (admitAttach s) attachDraw s) ∨
    (∃ len, i = .transmit len ∧ s' = runCommand (admitRing s) (transmitBody len) s) ∨
    (i = .receive ∧ s' = runCommand (admitRing s) receiveBody s) ∨
    (∃ slot, i = .devTxdone slot ∧ s' = if txDoneEnabled slot s then txDoneStep slot s else s) ∨
    (∃ slot e l, i = .devRxfill slot e l ∧ s' = if rxFillEnabled slot l s then rxFillStep slot e l s else s) := by
  cases i with
  | attach => exact .inl ⟨rfl, (Host.Outcome.next.inj h).symm⟩
  | transmit len => exact .inr (.inl ⟨len, rfl, (Host.Outcome.next.inj h).symm⟩)
  | receive => exact .inr (.inr (.inl ⟨rfl, (Host.Outcome.next.inj h).symm⟩))
  | devTxdone slot => exact .inr (.inr (.inr (.inl ⟨slot, rfl, (Host.Outcome.next.inj h).symm⟩)))
  | devRxfill slot e l => exact .inr (.inr (.inr (.inr ⟨slot, e, l, rfl, (Host.Outcome.next.inj h).symm⟩)))

end Sys2Proof.Laws
end

