-- ==== Sys2Proof/Laws/Init.lean ====
section
/-! SUPPORT. What ATTACH leaves in shared memory (spec/43_attach.md R191, R192): every slot's descriptor and buffer, and
nothing outside the slots. -/

namespace Sys2Proof.Laws

open Sys2Proof.Machine

variable {p : Params}

theorem memStep_txDesc (m : List Host.Cell) (i : Nat) (d : TxDesc) :
    MemStep m (cellWrite m (txDescAddr p i) (txDescBytes d)) (InTxSlot p i) :=
  memStep_write m _ _ _ fun b h1 h2 => .inl ⟨h1, by simpa using h2⟩

theorem memStep_rxDesc (m : List Host.Cell) (i : Nat) (d : RxDesc) :
    MemStep m (cellWrite m (rxDescAddr p i) (rxDescBytes d)) (InRxSlot p i) :=
  memStep_write m _ _ _ fun b h1 h2 => .inl ⟨h1, by simpa using h2⟩

theorem memStep_txBuf (m : List Host.Cell) (i : Nat) (bs : List Byte) (h : bs.length ≤ p.maxTx) :
    MemStep m (cellWrite m (txBufAddr p i) bs) (InTxSlot p i) :=
  memStep_write m _ _ _ fun b h1 h2 => .inr ⟨h1, by omega⟩

theorem memStep_rxBuf (m : List Host.Cell) (i : Nat) (bs : List Byte) (h : bs.length ≤ p.rxBuf) :
    MemStep m (cellWrite m (rxBufAddr p i) bs) (InRxSlot p i) :=
  memStep_write m _ _ _ fun b h1 h2 => .inr ⟨h1, by omega⟩

/-- A store confined to one region leaves a read of n bytes alone where no byte of it is in the region. -/
theorem MemStep.readN {m m' : List Host.Cell} {P : Nat → Prop} (h : MemStep m m' P) (a n : Nat)
    (ha : ∀ k, k < n → ¬ P (a + k)) : cellReadN m' a n = cellReadN m a n :=
  cellReadN_congr _ _ _ _ fun k hk => h.same _ (ha k hk)

/-- One TX slot made: it reads as R191 says. -/
theorem initTx_slot (h : p.admitted = true) (m : List Host.Cell) (n : Nat) (hn : n < p.nTx) :
    cellReadN (initTx p m (n + 1)) (txDescAddr p n) 16 = some (txDescBytes (txDescInit (txBufPa p n))) ∧
    cellReadN (initTx p m (n + 1)) (txBufAddr p n) p.maxTx = some (List.replicate p.maxTx 0x00#8) := by
  have hd := txDesc_txBuf h hn
  constructor
  · rw [initTx, cellReadN_write_other _ _ _ _ _ (by simp only [List.length_replicate]; omega)]
    exact cellReadN_write_self _ _ (txDescBytes _)
  · rw [initTx]
    simpa using cellReadN_write_self
      (cellWrite (initTx p m n) (txDescAddr p n) (txDescBytes (txDescInit (txBufPa p n)))) (txBufAddr p n)
      (List.replicate p.maxTx 0x00#8)

theorem initRx_slot (h : p.admitted = true) (m : List Host.Cell) (n : Nat) (hn : n < p.nRx) :
    cellReadN (initRx p m (n + 1)) (rxDescAddr p n) 16 = some (rxDescBytes (rxDescInit (rxBufPa p n))) ∧
    cellReadN (initRx p m (n + 1)) (rxBufAddr p n) p.rxBuf = some (List.replicate p.rxBuf 0x00#8) := by
  have hd := rxDesc_rxBuf h hn
  constructor
  · rw [initRx, cellReadN_write_other _ _ _ _ _ (by simp only [List.length_replicate]; omega)]
    exact cellReadN_write_self _ _ (rxDescBytes _)
  · rw [initRx]
    simpa using cellReadN_write_self
      (cellWrite (initRx p m n) (rxDescAddr p n) (rxDescBytes (rxDescInit (rxBufPa p n)))) (rxBufAddr p n)
      (List.replicate p.rxBuf 0x00#8)

/-- Making slot n stores in slot n only. -/
theorem memStep_initTx_succ (m : List Host.Cell) (n : Nat) :
    MemStep (initTx p m n) (initTx p m (n + 1)) (InTxSlot p n) := by
  rw [initTx]
  exact (memStep_txDesc _ n _).trans (memStep_txBuf _ n _ (by simp))

theorem memStep_initRx_succ (m : List Host.Cell) (n : Nat) :
    MemStep (initRx p m n) (initRx p m (n + 1)) (InRxSlot p n) := by
  rw [initRx]
  exact (memStep_rxDesc _ n _).trans (memStep_rxBuf _ n _ (by simp))

theorem memStep_initTx (m : List Host.Cell) (n : Nat) :
    MemStep m (initTx p m n) (fun a => ∃ i, i < n ∧ InTxSlot p i a) := by
  induction n with
  | zero => exact .refl _ _
  | succ n ih =>
    exact (ih.mono fun a ⟨i, hi, ha⟩ => ⟨i, by omega, ha⟩).trans
      ((memStep_initTx_succ m n).mono fun a ha => ⟨n, by omega, ha⟩)

theorem memStep_initRx (m : List Host.Cell) (n : Nat) :
    MemStep m (initRx p m n) (fun a => ∃ i, i < n ∧ InRxSlot p i a) := by
  induction n with
  | zero => exact .refl _ _
  | succ n ih =>
    exact (ih.mono fun a ⟨i, hi, ha⟩ => ⟨i, by omega, ha⟩).trans
      ((memStep_initRx_succ m n).mono fun a ha => ⟨n, by omega, ha⟩)

/-- Bytes of a TX slot, by offset. -/
theorem inTxSlot_desc (i k : Nat) (hk : k < 16) : InTxSlot p i (txDescAddr p i + k) := .inl ⟨by omega, by omega⟩

theorem inTxSlot_buf (i k : Nat) (hk : k < p.maxTx) : InTxSlot p i (txBufAddr p i + k) := .inr ⟨by omega, by omega⟩

theorem inRxSlot_desc (i k : Nat) (hk : k < 16) : InRxSlot p i (rxDescAddr p i + k) := .inl ⟨by omega, by omega⟩

theorem inRxSlot_buf (i k : Nat) (hk : k < p.rxBuf) : InRxSlot p i (rxBufAddr p i + k) := .inr ⟨by omega, by omega⟩

theorem initTx_read (h : p.admitted = true) (m : List Host.Cell) (n i : Nat) (hn : n ≤ p.nTx) (hi : i < n) :
    cellReadN (initTx p m n) (txDescAddr p i) 16 = some (txDescBytes (txDescInit (txBufPa p i))) ∧
    cellReadN (initTx p m n) (txBufAddr p i) p.maxTx = some (List.replicate p.maxTx 0x00#8) := by
  induction n with
  | zero => omega
  | succ n ih =>
    by_cases he : i = n
    · exact he ▸ initTx_slot h m n (by omega)
    · have hs := memStep_initTx_succ (p := p) m n
      have hx : ∀ a, InTxSlot p i a → ¬ InTxSlot p n a := fun a => txSlot_txSlot h (by omega) (by omega) he
      have := ih (by omega) (by omega)
      constructor
      · rw [hs.readN _ _ fun k hk => hx _ (inTxSlot_desc i k hk), this.1]
      · rw [hs.readN _ _ fun k hk => hx _ (inTxSlot_buf i k hk), this.2]

theorem initRx_read (h : p.admitted = true) (m : List Host.Cell) (n i : Nat) (hn : n ≤ p.nRx) (hi : i < n) :
    cellReadN (initRx p m n) (rxDescAddr p i) 16 = some (rxDescBytes (rxDescInit (rxBufPa p i))) ∧
    cellReadN (initRx p m n) (rxBufAddr p i) p.rxBuf = some (List.replicate p.rxBuf 0x00#8) := by
  induction n with
  | zero => omega
  | succ n ih =>
    by_cases he : i = n
    · exact he ▸ initRx_slot h m n (by omega)
    · have hs := memStep_initRx_succ (p := p) m n
      have hx : ∀ a, InRxSlot p i a → ¬ InRxSlot p n a := fun a => rxSlot_rxSlot h (by omega) (by omega) he
      have := ih (by omega) (by omega)
      constructor
      · rw [hs.readN _ _ fun k hk => hx _ (inRxSlot_desc i k hk), this.1]
      · rw [hs.readN _ _ fun k hk => hx _ (inRxSlot_buf i k hk), this.2]

/-- Memory after ATTACH, slot by slot (R192, R261). -/
theorem initMem_read (h : p.admitted = true) (m : List Host.Cell) :
    (∀ i, i < p.nTx →
      cellReadN (initMem p m) (txDescAddr p i) 16 = some (txDescBytes (txDescInit (txBufPa p i))) ∧
      cellReadN (initMem p m) (txBufAddr p i) p.maxTx = some (List.replicate p.maxTx 0x00#8)) ∧
    (∀ i, i < p.nRx →
      cellReadN (initMem p m) (rxDescAddr p i) 16 = some (rxDescBytes (rxDescInit (rxBufPa p i))) ∧
      cellReadN (initMem p m) (rxBufAddr p i) p.rxBuf = some (List.replicate p.rxBuf 0x00#8)) := by
  have hs := memStep_initRx (p := p) (initTx p m p.nTx) p.nRx
  have hx : ∀ i a, i < p.nTx → InTxSlot p i a → ¬ ∃ j, j < p.nRx ∧ InRxSlot p j a :=
    fun i a hi ha ⟨j, hj, hb⟩ => txSlot_rxSlot h hi hj ha hb
  refine ⟨fun i hi => ?_, fun i hi => initRx_read h _ _ i (Nat.le_refl _) hi⟩
  have := initTx_read h m p.nTx i (Nat.le_refl _) hi
  constructor
  · rw [initMem, hs.readN _ _ fun k hk => hx i _ hi (inTxSlot_desc i k hk), this.1]
  · rw [initMem, hs.readN _ _ fun k hk => hx i _ hi (inTxSlot_buf i k hk), this.2]

/-- ATTACH stores in the slots only. -/
theorem memStep_initMem (m : List Host.Cell) :
    MemStep m (initMem p m)
      (fun a => (∃ i, i < p.nTx ∧ InTxSlot p i a) ∨ (∃ i, i < p.nRx ∧ InRxSlot p i a)) :=
  ((memStep_initTx m p.nTx).mono fun _ => .inl).trans ((memStep_initRx _ p.nRx).mono fun _ => .inr)

end Sys2Proof.Laws
end

