-- ==== Sys2Proof/Laws/Meanings.lean ====
section
/-! SUPPORT. One inversion lemma per meaning: all that TRANSMIT, RECEIVE, ATTACH and the device's events can do, in any
state. -/

namespace Sys2Proof.Laws

open Sys2Proof.Machine

/-! ### TRANSMIT -/

/-- Where TRANSMIT stores when its tail slot is i: the first LEN buffer bytes, `length`, `cmd` and `status` (R150). -/
def TransmitStores (p : Params) (i len a : Nat) : Prop :=
  InRange a (txBufAddr p i) len ∨ InRange a (txDescAddr p i + offLength) 2 ∨
  a = txDescAddr p i + offTxCmd ∨ a = txDescAddr p i + offStatus

theorem memStep_transmitFields (p : Params) (m : List Host.Cell) (i : Nat) (len : Half) (payload : List Byte) :
    MemStep m (transmitFields p m i len payload) (TransmitStores p i payload.length) :=
  (memStep_write m _ _ _ fun _ h1 h2 => .inl ⟨h1, h2⟩).trans
    (memStep_write _ _ _ _ fun _ h1 h2 => .inr (.inl ⟨h1, by simpa using h2⟩))

/-- What TRANSMIT returns or faults with, apart from the store of a queued packet. -/
inductive TransmitEnd (len : Half) (payload : List Byte) (s : State) : State → Prop where
  | tooLarge (h : s.cfg.maxTx < len.toNat) : TransmitEnd len payload s (s.ret .packetTooLarge 0#16)
  | full (t : Half) (st : Byte) (h : ¬ s.cfg.maxTx < len.toNat) (ht : s.txTail = t)
      (hs : s.txStatus t.toNat = some st) (hd : isDone st = false) : TransmitEnd len payload s (s.ret .ringFull 0#16)
  | fault (f : Fault) (m : List Host.Cell)
      (hm : m = s.mem ∨ ∃ (t : Half) (st : Byte), s.txTail = t ∧ t.toNat < s.cfg.nTx ∧ ¬ s.cfg.maxTx < len.toNat ∧
        s.txStatus t.toNat = some st ∧ isDone st = true ∧
        MemStep s.mem m (TransmitStores s.cfg t.toNat payload.length)) :
      TransmitEnd len payload s ((s.setMem m).raise f)
  | queued (t : Half) (st : Byte) (m : List Host.Cell) (u : Half) (h : ¬ s.cfg.maxTx < len.toNat)
      (ht : s.txTail = t) (hn : t.toNat < s.cfg.nTx) (hs : s.txStatus t.toNat = some st) (hd : isDone st = true)
      (hu : u = nextCursor s.cfg.nTx t)
      (hm : MemStep s.mem m (TransmitStores s.cfg t.toNat payload.length)) (s' : State)
      (hr : regWrite regTDT (u.setWidth 32) { s with mem := m, txTail := u } = .ok s') :
      TransmitEnd len payload s (s'.ret .ok 0#16)
  | lost (t : Half) (st : Byte) (m : List Host.Cell) (u : Half) (h : ¬ s.cfg.maxTx < len.toNat)
      (ht : s.txTail = t) (hn : t.toNat < s.cfg.nTx) (hs : s.txStatus t.toNat = some st) (hd : isDone st = true)
      (hm : MemStep s.mem m (TransmitStores s.cfg t.toNat payload.length))
      (hr : s.cfg.regCount ≤ regTDT) :
      TransmitEnd len payload s (State.raise { s with mem := m, txTail := u } .regOutOfRange)

theorem setMem_self (s : State) : s.setMem s.mem = s := rfl

/-- All TRANSMIT can do once its payload is taken. -/
theorem transmitChecked_end (len : Half) (payload : List Byte) (s : State) :
    TransmitEnd len payload s (transmitChecked len payload s) := by
  have raise_only : ∀ f, TransmitEnd len payload s (s.raise f) := fun f => by
    have := TransmitEnd.fault (len := len) (payload := payload) (s := s) f s.mem (.inl rfl)
    rwa [setMem_self] at this
  unfold transmitChecked
  split
  · next h => exact .tooLarge h
  · next h =>
    unfold transmitSlot
    split
    · exact raise_only _
    · next hn =>
      split
      · exact raise_only _
      · next st hs =>
        split
        · next hd =>
          have h1 := memStep_transmitFields s.cfg s.mem s.txTail.toNat len payload
          unfold transmitEnqueue
          simp only
          split
          · exact .fault _ _ (.inr ⟨_, st, rfl, by omega, h, hs, hd, h1⟩)
          · next m2 hu2 =>
            have h2 := h1.trans (memStep_update (TransmitStores s.cfg s.txTail.toNat payload.length)
              (.inr (.inr (.inl rfl))) hu2)
            split
            · exact .fault _ _ (.inr ⟨_, st, rfl, by omega, h, hs, hd, h2⟩)
            · next m3 hu3 =>
              have h3 := h2.trans (memStep_update (TransmitStores s.cfg s.txTail.toNat payload.length)
                (.inr (.inr (.inr rfl))) hu3)
              split
              · next s' hr =>
                unfold regWrite at hr
                split at hr
                · cases hr
                · next hc =>
                  cases hr
                  exact .lost _ st m3 _ h rfl (by omega) hs hd h3 (by simpa using hc)
              · next s' hr => exact .queued _ st m3 _ h rfl (by omega) hs hd rfl h3 s' hr
        · next hd => exact .full _ st h rfl hs (by simpa using hd)

/-- A packet queued, exactly, in an admitted instance whose tail slot is free (R150, R152). -/
theorem transmitChecked_queued {len : Half} {payload : List Byte} {s : State} {t : Half} {c st : Byte}
    (h : s.cfg.admitted = true) (hl : len.toNat ≤ s.cfg.maxTx) (hp : payload.length = len.toNat)
    (ht : s.txTail = t) (hn : t.toNat < s.cfg.nTx)
    (hc : cellRead s.mem (txDescAddr s.cfg t.toNat + offTxCmd) = some c)
    (hs : s.txStatus t.toNat = some st) (hd : isDone st = true) :
    transmitChecked len payload s =
      (State.putReg
        { s with
          mem := cellWrite (cellWrite (transmitFields s.cfg s.mem t.toNat len payload)
            (txDescAddr s.cfg t.toNat + offTxCmd) [setCmdEopRs c]) (txDescAddr s.cfg t.toNat + offStatus) [clearDone st]
          txTail := nextCursor s.cfg.nTx t }
        regTDT ((nextCursor s.cfg.nTx t).setWidth 32)).ret .ok 0#16 := by
  have hb := txDesc_txBuf h hn
  have hs' : cellRead s.mem (txDescAddr s.cfg t.toNat + 12) = some st := hs
  have hc' : cellRead s.mem (txDescAddr s.cfg t.toNat + 11) = some c := hc
  have r1 : cellRead (transmitFields s.cfg s.mem t.toNat len payload) (txDescAddr s.cfg t.toNat + offTxCmd) = some c := by
    unfold transmitFields
    rw [cellRead_write_other _ _ _ _ (by simp only [halfBytes_length, offLength, offTxCmd]; omega),
      cellRead_write_other _ _ _ _ (by simp only [offTxCmd]; omega)]
    exact hc
  have r2 : cellRead (cellWrite (transmitFields s.cfg s.mem t.toNat len payload)
      (txDescAddr s.cfg t.toNat + offTxCmd) [setCmdEopRs c]) (txDescAddr s.cfg t.toNat + offStatus) = some st := by
    rw [cellRead_write_other _ _ _ _ (by simp only [List.length_singleton, offTxCmd, offStatus]; omega)]
    unfold transmitFields
    rw [cellRead_write_other _ _ _ _ (by simp only [halfBytes_length, offLength, offStatus]; omega),
      cellRead_write_other _ _ _ _ (by simp only [offStatus]; omega)]
    exact hs'
  have hreg : ∀ (m : List Host.Cell) (u : Half) (v : Word), regWrite regTDT v { s with mem := m, txTail := u } =
      .ok (State.putReg { s with mem := m, txTail := u } regTDT v) := fun m u v =>
    regWrite_admitted h (by decide)
  unfold transmitChecked transmitSlot
  rw [if_neg (by omega), ht]
  simp only [hs, hd, if_true, if_neg (show ¬ s.cfg.nTx ≤ t.toNat by omega)]
  unfold transmitEnqueue
  simp only [cellUpdate_of_read _ _ _ _ r1, cellUpdate_of_read _ _ _ _ r2, hreg]
  rfl

/-! ### RECEIVE -/

/-- What RECEIVE does in READY, by case. -/
inductive ReceiveEnd (s : State) : State → Prop where
  | empty (t : Half) (st : Byte) (ht : s.rxTail = t)
      (hs : s.rxStatus (nextIdx s.cfg.nRx t.toNat) = some st) (hd : isDone st = false) :
      ReceiveEnd s (s.ret .noPacket 0#16)
  | frag (t : Half) (st : Byte) (ht : s.rxTail = t)
      (hs : s.rxStatus (nextIdx s.cfg.nRx t.toNat) = some st) (hd : isDone st = true) (he : isEop st = false) :
      ReceiveEnd s ((s.setLife .halted).ret .unsupportedFrame 0#16)
  | fault (f : Fault) : ReceiveEnd s (s.raise f)
  | lost (t : Half) (c : Nat) (st : Byte) (bytes : List Byte) (ht : s.rxTail = t)
      (hc : c = nextIdx s.cfg.nRx t.toNat) (hn : c < s.cfg.nRx) (hs : s.rxStatus c = some st)
      (hr : s.cfg.regCount ≤ regRDT) :
      ReceiveEnd s (State.raise
        { s with
          mem := cellWrite s.mem (rxDescAddr s.cfg c + offStatus) [clearDoneEop st]
          rxTail := BitVec.ofNat 16 c
          dataOut := s.dataOut ++ bytes } .regOutOfRange)
  | taken (t : Half) (c : Nat) (st : Byte) (n : Half) (bytes : List Byte) (ht : s.rxTail = t)
      (hc : c = nextIdx s.cfg.nRx t.toNat) (hn : c < s.cfg.nRx) (hs : s.rxStatus c = some st) (hd : isDone st = true)
      (he : isEop st = true) (hl : s.rxLength c = some n) (hx : n.toNat ≤ s.cfg.rxBuf)
      (hb : s.rxBufBytes c n.toNat = some bytes) (hr : regRDT < s.cfg.regCount) :
      ReceiveEnd s ((State.putReg
        { s with
          mem := cellWrite s.mem (rxDescAddr s.cfg c + offStatus) [clearDoneEop st]
          rxTail := BitVec.ofNat 16 c
          dataOut := s.dataOut ++ bytes } regRDT ((BitVec.ofNat 16 c).setWidth 32)).ret .ok n)

/-- All RECEIVE can do in READY. -/
theorem receiveBody_end (s : State) : ReceiveEnd s (receiveBody s) := by
  unfold receiveBody receiveCandidate
  split
  · exact .fault _
  · next hn =>
    split
    · exact .fault _
    · next st hs =>
      split
      · next hd => exact .empty _ st rfl hs hd
      · next hd =>
        have hd' : isDone st = true := by simpa using hd
        split
        · next he => exact .frag _ st rfl hs hd' he
        · next he =>
          have he' : isEop st = true := by simpa using he
          split
          · exact .fault _
          · next n hl =>
            split
            · exact .fault _
            · next hx =>
              unfold receiveDequeue
              split
              · exact .fault _
              · next bytes hb =>
                simp only [portOut]
                split
                · next s' hr =>
                  unfold regWrite at hr
                  split at hr
                  · cases hr
                  · next hc =>
                    cases hr
                    exact .lost _ _ st bytes rfl rfl (by omega) hs (by simpa using hc)
                · next s' hr =>
                  unfold regWrite at hr
                  split at hr
                  · next hc =>
                    cases hr
                    exact .taken _ _ st n bytes rfl rfl (by omega) hs hd' he' hl (by omega) hb (by simpa using hc)
                  · cases hr

/-- A frame taken, exactly, in an admitted instance whose candidate is full (R170, R175). -/
theorem receiveBody_taken {s : State} {t : Half} {st : Byte} {n : Half} {bytes : List Byte}
    (h : s.cfg.admitted = true) (ht : s.rxTail = t)
    (hs : s.rxStatus (nextIdx s.cfg.nRx t.toNat) = some st) (hd : isDone st = true) (he : isEop st = true)
    (hl : s.rxLength (nextIdx s.cfg.nRx t.toNat) = some n) (hx : n.toNat ≤ s.cfg.rxBuf)
    (hb : s.rxBufBytes (nextIdx s.cfg.nRx t.toNat) n.toNat = some bytes) :
    receiveBody s =
      (State.putReg
        { s with
          mem := cellWrite s.mem (rxDescAddr s.cfg (nextIdx s.cfg.nRx t.toNat) + offStatus) [clearDoneEop st]
          rxTail := nextCursor s.cfg.nRx t
          dataOut := s.dataOut ++ bytes }
        regRDT ((nextCursor s.cfg.nRx t).setWidth 32)).ret .ok n := by
  have hr := admitted_ranges h
  have hn : nextIdx s.cfg.nRx t.toNat < s.cfg.nRx := Nat.mod_lt _ (by omega)
  have hreg : ∀ (m : List Host.Cell) (u : Half) (b : List Byte) (v : Word),
      regWrite regRDT v { s with mem := m, rxTail := u, dataOut := b } =
      .ok (State.putReg { s with mem := m, rxTail := u, dataOut := b } regRDT v) := fun m u b v =>
    regWrite_admitted h (by decide)
  unfold receiveBody receiveCandidate
  rw [ht]
  rw [if_neg (by omega)]
  simp only [hs, hd, he, hl, Bool.true_eq_false, if_false]
  rw [if_neg (by omega)]
  unfold receiveDequeue
  simp only [hb, portOut, hreg]
  rfl

/-! ### The device's events -/

/-- All an enabled DEV_TXDONE can do: it sends a frame, the slot's own where that is readable. -/
theorem txDoneStep_cases (slot : Half) (s : State) :
    ∃ frame n, txDoneStep slot s = txDoneWith slot frame n s ∧
      ∀ f, txFrame s slot.toNat = some f → frame = f ∧ n = 1 := by
  unfold txDoneStep
  cases h : txFrame s slot.toNat with
  | none => exact ⟨_, _, rfl, fun f hf => nomatch hf⟩
  | some frame => exact ⟨_, _, rfl, fun f hf => ⟨Option.some.inj hf, rfl⟩⟩

/-- What the guard of DEV_TXDONE says (R213). -/
theorem txDoneEnabled_iff (slot : Half) (s : State) :
    txDoneEnabled slot s = true ↔
      s.Attached ∧ slot.toNat < s.cfg.nTx ∧ (∃ st, s.txStatus slot.toNat = some st ∧ isDone st = false) ∧
      orderAllows s.cfg.order s.txHead (s.shadow regTDT) slot = true := by
  unfold txDoneEnabled State.Attached deviceMayStep deviceOwns
  cases hl : s.life <;> cases hs : s.txStatus slot.toNat <;> simp [and_assoc]

/-- What the guard of DEV_RXFILL says (R214). -/
theorem rxFillEnabled_iff (slot l : Half) (s : State) :
    rxFillEnabled slot l s = true ↔
      s.Attached ∧ slot.toNat < s.cfg.nRx ∧ (∃ st, s.rxStatus slot.toNat = some st ∧ isDone st = false) ∧
      l.toNat ≤ s.cfg.rxBuf ∧ orderAllows s.cfg.order s.rxHead (s.shadow regRDT) slot = true := by
  unfold rxFillEnabled State.Attached deviceMayStep deviceOwns
  cases hl : s.life <;> cases hs : s.rxStatus slot.toNat <;> simp [and_assoc]

/-- DEV_RXFILL stores in its slot only, and not in the `addr` field. -/
theorem memStep_rxFillMem (p : Params) (m : List Host.Cell) (i : Nat) (e : Bool) (l : Half) (data : List Byte) (d : Nat)
    (hl : l.toNat ≤ p.rxBuf) :
    MemStep m (rxFillMem p m i e l data d)
      (fun a => InRange a (rxBufAddr p i) p.rxBuf ∨ InRange a (rxDescAddr p i + 8) 8) := by
  unfold rxFillMem
  simp only [offLength, offRxCsum, offRxErrors, offSpecial, offStatus]
  refine MemStep.trans (MemStep.trans (MemStep.trans (MemStep.trans (MemStep.trans
    (memStep_write _ _ _ _ ?_) (memStep_write _ _ _ _ ?_)) (memStep_write _ _ _ _ ?_)) (memStep_write _ _ _ _ ?_))
    (memStep_write _ _ _ _ ?_)) (memStep_write _ _ _ _ ?_)
  · intro b h1 h2
    rw [rxFillBytes_length _ _ _ _ hl] at h2
    exact .inl ⟨h1, h2⟩
  all_goals
    intro b h1 h2
    simp only [halfBytes_length, List.length_singleton] at h2
    exact .inr ⟨by omega, by omega⟩

/-! ### ATTACH -/

/-- What ATTACH does in UNATTACHED when the STATUS read answers `w`, by case. -/
inductive AttachEnd (w : Word) (s : State) : State → Prop where
  | blind (hr : s.cfg.regCount ≤ regSTATUS) : AttachEnd w s (s.raise .regOutOfRange)
  | failed (hr : regSTATUS < s.cfg.regCount) (hw : w ∉ s.cfg.attachOk) :
      AttachEnd w s (((s.logReg (.rd regSTATUS w)).setLife .failed).ret .attachFailure 0#16)
  | stopped (hr : regSTATUS < s.cfg.regCount) (hw : w ∈ s.cfg.attachOk) (pre post : List (Nat × Word)) (i : Nat) (v : Word)
      (hs : attachWrites s.cfg = pre ++ (i, v) :: post) (hp : ∀ u ∈ pre, u.1 < s.cfg.regCount)
      (hi : s.cfg.regCount ≤ i) :
      AttachEnd w s ((putRegAll pre (attachRings (s.logReg (.rd regSTATUS w)))).raise .regOutOfRange)
  | attached (hr : regSTATUS < s.cfg.regCount) (hw : w ∈ s.cfg.attachOk)
      (ha : ∀ u ∈ attachWrites s.cfg, u.1 < s.cfg.regCount) :
      AttachEnd w s
        (((putRegAll (attachWrites s.cfg) (attachRings (s.logReg (.rd regSTATUS w)))).setLife .ready).ret .ok 0#16)

/-- All ATTACH can do in UNATTACHED. -/
theorem attachBody_end (w : Word) (s : State) : AttachEnd w s (attachBody w s) := by
  unfold attachBody regRead
  by_cases hr : regSTATUS < s.cfg.regCount
  · rw [if_pos hr]
    by_cases hw : w ∈ s.cfg.attachOk
    · simp only [hw, if_true]
      rcases regWriteAll_cases (attachWrites s.cfg) (attachRings (s.logReg (.rd regSTATUS w))) with
        ⟨h1, h2⟩ | ⟨pre, i, v, post, h1, h2, h3, h4⟩
      · rw [h2]
        exact .attached hr hw (by simpa using h1)
      · rw [h4]
        exact .stopped hr hw pre post i v h1 (by simpa using h2) (by simpa using h3)
    · simp only [hw, if_false]
      exact .failed hr hw
  · rw [if_neg hr]
    exact .blind (by omega)

end Sys2Proof.Laws
end

