-- ==== Sys2Proof/Laws/Cursors.lean ====
section
/-! SUPPORT. What the cursors hold before ATTACH reaches nothing (spec/70_reset_and_hazards.md R260; log 12). -/

namespace Sys2Proof.Laws

open Sys2Proof.Machine

/-- `s` with other cursors. -/
def withCursors (tt rt th rh : Half) (s : State) : State := { s with txTail := tt, rxTail := rt, txHead := th, rxHead := rh }

@[simp] theorem withCursors_cfg (tt rt th rh : Half) (s : State) : (withCursors tt rt th rh s).cfg = s.cfg := rfl
@[simp] theorem withCursors_life (tt rt th rh : Half) (s : State) : (withCursors tt rt th rh s).life = s.life := rfl

/-- `r` is `s`, cursors apart. -/
def SameButCursors (s r : State) : Prop := ∃ tt rt th rh, r = withCursors tt rt th rh s

/-- A run of register writes neither reads a tail nor a head. -/
theorem regWriteAll_cursors (ws : List (Nat × Word)) (tt rt th rh : Half) (s : State) :
    ∃ th' rh', regWriteAll ws (withCursors tt rt th rh s) =
      match regWriteAll ws s with
      | .ok t => .ok (withCursors tt rt th' rh' t)
      | .error t => .error (withCursors tt rt th' rh' t) := by
  induction ws generalizing s th rh with
  | nil => exact ⟨th, rh, rfl⟩
  | cons w ws ih =>
    obtain ⟨i, v⟩ := w
    by_cases hc : i < s.cfg.regCount
    · have := ih (headAfter s.cfg.order regTDH i v th) (headAfter s.cfg.order regRDH i v rh) (s.putReg i v)
      simpa [regWriteAll, regWrite, hc, withCursors, State.putReg] using this
    · exact ⟨th, rh, by simp [regWriteAll, regWrite, hc, withCursors, State.raise]⟩

/-- ATTACH reads no cursor. -/
theorem attachBody_cursors (w : Word) (tt rt th rh : Half) (s : State) :
    SameButCursors (attachBody w s) (attachBody w (withCursors tt rt th rh s)) := by
  unfold attachBody regRead
  by_cases hc : regSTATUS < s.cfg.regCount
  · by_cases hw : w ∈ s.cfg.attachOk
    · obtain ⟨th', rh', he⟩ := regWriteAll_cursors (attachWrites s.cfg) 0#16 (BitVec.ofNat 16 (s.cfg.nRx - 1)) th rh
        (attachRings (s.logReg (.rd regSTATUS w)))
      have hm : attachRings ((withCursors tt rt th rh s).logReg (.rd regSTATUS w)) =
          withCursors 0#16 (BitVec.ofNat 16 (s.cfg.nRx - 1)) th rh (attachRings (s.logReg (.rd regSTATUS w))) := rfl
      simp only [withCursors_cfg, hc, hw, if_true, hm, he]
      cases regWriteAll (attachWrites s.cfg) (attachRings (s.logReg (.rd regSTATUS w))) <;> exact ⟨_, _, th', rh', rfl⟩
    · simp only [withCursors_cfg, hc, hw, if_true, if_false]
      exact ⟨tt, rt, th, rh, rfl⟩
  · simp only [withCursors_cfg, hc, if_false]
    exact ⟨tt, rt, th, rh, rfl⟩

/-- Before ATTACH no instruction reads a cursor: with other cursors it ends in the same state, cursors apart. So what the
cursors hold at reset (log 12) reaches nothing, as R260 says. -/
theorem unattached_cursors_unread {i : Instr} {s t r : State} (h : s.life = .unattached) {tt rt th rh : Half}
    (hs : exec i s = .next t) (hr : exec i (withCursors tt rt th rh s) = .next r) : SameButCursors t r := by
  have ring : ∀ body : State → State,
      SameButCursors (runCommand (admitRing s) body s) (runCommand (admitRing s) body (withCursors tt rt th rh s)) := by
    intro body
    rcases runCommand_cases (admitRing s) body s with ⟨h1, _⟩ | ⟨f, h1, _⟩ | ⟨h1, _⟩
    · rw [h1]; exact ⟨tt, rt, th, rh, rfl⟩
    · rw [h1]; exact ⟨tt, rt, th, rh, rfl⟩
    · rw [admitRing_executes, State.Running, h] at h1; cases h1.1
  have off : ∀ s : State, s.life = .unattached → deviceMayStep s = false := fun s h => by unfold deviceMayStep; rw [h]
  cases i with
  | attach =>
    cases hs
    cases hr
    show SameButCursors (runCommand (admitAttach s) attachDraw s)
      (runCommand (admitAttach s) attachDraw (withCursors tt rt th rh s))
    rcases runCommand_cases (admitAttach s) attachDraw s with ⟨h1, _⟩ | ⟨f, h1, _⟩ | ⟨h1, _⟩ <;> rw [h1]
    · exact ⟨tt, rt, th, rh, rfl⟩
    · exact ⟨tt, rt, th, rh, rfl⟩
    · show SameButCursors (attachBody (Config.freeStatus s.draws) (s.beginCommand.drew 1))
        (attachBody (Config.freeStatus s.draws) (withCursors tt rt th rh (s.beginCommand.drew 1)))
      exact attachBody_cursors ..
  | transmit len => cases hs; cases hr; exact ring _
  | receive => cases hs; cases hr; exact ring _
  | devTxdone slot =>
    cases hs
    cases hr
    have h1 : ∀ s : State, s.life = .unattached → txDoneEnabled slot s = false := fun s h => by simp [txDoneEnabled, off s h]
    rw [h1 s h, h1 (withCursors tt rt th rh s) h]
    exact ⟨tt, rt, th, rh, rfl⟩
  | devRxfill slot e l =>
    cases hs
    cases hr
    have h1 : ∀ s : State, s.life = .unattached → rxFillEnabled slot l s = false := fun s h => by simp [rxFillEnabled, off s h]
    rw [h1 s h, h1 (withCursors tt rt th rh s) h]
    exact ⟨tt, rt, th, rh, rfl⟩

end Sys2Proof.Laws
end

