-- ==== Sys2Proof/Laws/Encoding.lean ====
section
/-! SUPPORT. The fields of an encoded word, one by one (spec/30_encoding.md R103–R105). -/

namespace Sys2Proof.Laws

/-! ### A word whose low half is a constant -/

theorem fieldHigh_append (x y : Half) : fieldHigh (x ++ y) = x := by
  unfold fieldHigh
  apply BitVec.eq_of_getLsbD_eq
  intro i hi
  rw [BitVec.getLsbD_extractLsb', BitVec.getLsbD_append]
  simp [hi]

theorem fieldLow_append (x y : Half) : fieldLow (x ++ y) = y := by
  unfold fieldLow
  apply BitVec.eq_of_getLsbD_eq
  intro i hi
  rw [BitVec.getLsbD_extractLsb', BitVec.getLsbD_append]
  simp [hi]

theorem fieldOp_append (x y : Half) : fieldOp (x ++ y) = y.extractLsb' 0 4 := by
  unfold fieldOp
  apply BitVec.eq_of_getLsbD_eq
  intro i hi
  rw [BitVec.getLsbD_extractLsb', BitVec.getLsbD_append, BitVec.getLsbD_extractLsb']
  simp [show i < 16 by omega]

theorem fieldE_append (x y : Half) : fieldE (x ++ y) = y.getLsbD 4 := by
  unfold fieldE
  rw [BitVec.getLsbD_append]
  simp

theorem commandReserved_append (x y : Half) : commandReserved (x ++ y) = y.extractLsb' 4 12 := by
  unfold commandReserved
  apply BitVec.eq_of_getLsbD_eq
  intro i hi
  rw [BitVec.getLsbD_extractLsb', BitVec.getLsbD_append, BitVec.getLsbD_extractLsb']
  simp [show 4 + i < 16 by omega]

theorem eventReserved_append (x y : Half) : eventReserved (x ++ y) = y.extractLsb' 5 11 := by
  unfold eventReserved
  apply BitVec.eq_of_getLsbD_eq
  intro i hi
  rw [BitVec.getLsbD_extractLsb', BitVec.getLsbD_append, BitVec.getLsbD_extractLsb']
  simp [show 5 + i < 16 by omega]

/-- A word is its two halves. -/
theorem high_low (w : Word) : fieldHigh w ++ fieldLow w = w := by
  unfold fieldHigh fieldLow
  apply BitVec.eq_of_getLsbD_eq
  intro i hi
  rw [BitVec.getLsbD_append, BitVec.getLsbD_extractLsb', BitVec.getLsbD_extractLsb']
  by_cases h : i < 16
  · simp [h]
  · simp [h, show i - 16 < 16 by omega, show 16 + (i - 16) = i by omega]

/-- The low half of a command word is its reserved bits and OP. -/
theorem command_low (w : Word) : fieldLow w = commandReserved w ++ fieldOp w := by
  unfold fieldLow commandReserved fieldOp
  apply BitVec.eq_of_getLsbD_eq
  intro i hi
  rw [BitVec.getLsbD_append, BitVec.getLsbD_extractLsb', BitVec.getLsbD_extractLsb', BitVec.getLsbD_extractLsb']
  by_cases h : i < 4
  · simp [h, hi]
  · simp [h, hi, show i - 4 < 12 by omega, show 4 + (i - 4) = i by omega]

/-- The low half of an event word is its reserved bits, E and EV. -/
theorem event_low (w : Word) : fieldLow w = eventReserved w ++ (BitVec.ofBool (fieldE w) ++ fieldOp w) := by
  unfold fieldLow eventReserved fieldE fieldOp
  apply BitVec.eq_of_getLsbD_eq
  intro i hi
  rw [BitVec.getLsbD_append, BitVec.getLsbD_extractLsb', BitVec.getLsbD_extractLsb', BitVec.getLsbD_append,
    BitVec.getLsbD_extractLsb']
  by_cases h : i < 4
  · simp [h, hi, show i < 5 by omega]
  · by_cases h1 : i < 5
    · have h4 : i = 4 := by omega
      subst h4
      cases w.getLsbD 4 <;> simp
    · simp [h1, hi, show i - 5 < 11 by omega, show 5 + (i - 5) = i by omega]

/-- The low half of an encoded DEV_RXFILL, by E. -/
theorem rxfill_low (e : Bool) :
    (0#11 ++ (BitVec.ofBool e ++ 0x9#4) : Half) = if e then 0x0019#16 else 0x0009#16 := by
  cases e <;> rfl

/-- Masking a word masks its halves. -/
theorem append_and (x y m n : Half) : (x ++ y : Word) &&& (m ++ n : Word) = ((x &&& m) ++ (y &&& n) : Word) := by
  apply BitVec.eq_of_getLsbD_eq
  intro i hi
  rw [BitVec.getLsbD_and, BitVec.getLsbD_append, BitVec.getLsbD_append, BitVec.getLsbD_append]
  by_cases h : i < 16
  · simp [h]
  · simp [h]

end Sys2Proof.Laws
end

