-- ==== Sys2Proof/Laws/PerInstr.lean ====
section
/-! SUPPORT. Family TableRow: the words the encoder gives an instruction are those of its row of spec/opcode_table.json
(the row's match and mask on the first word, the row's length in words). -/

namespace Sys2Proof.Laws.TableRow

/-- A row's match, mask and length in words, by constructor (spec/opcode_table.json). -/
def row : Instr → Word × Word × Nat
  | .attach => (0x00000001#32, 0xFFFFFFFF#32, 1)
  | .transmit _ => (0x00000002#32, 0x0000FFFF#32, 1)
  | .receive => (0x00000003#32, 0xFFFFFFFF#32, 1)
  | .devTxdone _ => (0x00000008#32, 0x0000FFFF#32, 1)
  | .devRxfill _ _ _ => (0x00000009#32, 0x0000FFEF#32, 2)

/-- The instruction's words fit its row. -/
def Statement (i : Instr) : Prop :=
  (encode i).length = (row i).2.2 ∧ ∃ w ws, encode i = w :: ws ∧ w &&& (row i).2.1 = (row i).1

theorem attach : Statement .attach := ⟨rfl, _, _, rfl, rfl⟩

theorem transmit (len : Half) : Statement (.transmit len) :=
  ⟨rfl, _, _, rfl, by
    rw [row, show (0x0000FFFF#32 : Word) = (0x0000#16 ++ 0xFFFF#16 : Word) from rfl, append_and]
    simp⟩

theorem receive : Statement .receive := ⟨rfl, _, _, rfl, rfl⟩

theorem devTxdone (slot : Half) : Statement (.devTxdone slot) :=
  ⟨rfl, _, _, rfl, by
    rw [row, show (0x0000FFFF#32 : Word) = (0x0000#16 ++ 0xFFFF#16 : Word) from rfl, append_and]
    simp⟩

theorem devRxfill (slot : Half) (e : Bool) (l : Half) : Statement (.devRxfill slot e l) :=
  ⟨rfl, _, _, rfl, by
    rw [row, show (0x0000FFEF#32 : Word) = (0x0000#16 ++ 0xFFEF#16 : Word) from rfl, append_and, rxfill_low]
    cases e <;> simp⟩

end Sys2Proof.Laws.TableRow
end

