-- ==== Sys2Proof/Laws/Slots.lean ====
section
/-! SUPPORT. Slots under stores: what a store confined to some addresses does to descriptor fields and to the invariant,
what ATTACH and DEV_RXFILL leave in their slots. -/

namespace Sys2Proof.Laws

open Sys2Proof.Machine

variable {p : Params}

/-! ### Bits of the status bytes the meanings write -/

theorem txDoneStatus_eq : ∀ x : BitVec 7, txDoneStatus x = (x.setWidth 8 <<< 1) ||| 0x01#8 := by decide +kernel

theorem rxFillStatus_eq : ∀ (x : BitVec 6) (e : Bool),
    rxFillStatus x e = (x.setWidth 8 <<< 2) ||| (if e then 0x03#8 else 0x01#8) := by decide +kernel

theorem txStateOf_free (b : Byte) : txStateOf b = .free ↔ isDone b = true := by
  unfold txStateOf
  cases isDone b <;> simp

theorem txStateOf_queued (b : Byte) : txStateOf b = .queued ↔ isDone b = false := by
  unfold txStateOf
  cases isDone b <;> simp

theorem rxStateOf_empty (b : Byte) : rxStateOf b = .empty ↔ isDone b = false := by
  unfold rxStateOf
  cases isDone b <;> cases isEop b <;> simp

theorem rxStateOf_full (b : Byte) : rxStateOf b = .full ↔ isDone b = true ∧ isEop b = true := by
  unfold rxStateOf
  cases isDone b <;> cases isEop b <;> simp

theorem rxStateOf_frag (b : Byte) : rxStateOf b = .frag ↔ isDone b = true ∧ isEop b = false := by
  unfold rxStateOf
  cases isDone b <;> cases isEop b <;> simp

theorem rxStateOf_rxFillStatus (x : BitVec 6) (e : Bool) :
    rxStateOf (rxFillStatus x e) = if e then .full else .frag := by
  simp [rxStateOf, isDone_rxFillStatus, isEop_rxFillStatus]

/-! ### Reading fields under a store -/

theorem readHalf_isSome {m : List Host.Cell} {a : Nat} (h0 : (cellRead m a).isSome) (h1 : (cellRead m (a + 1)).isSome) :
    ∃ n, readHalf m a = some n := by
  obtain ⟨x, hx⟩ := Option.isSome_iff_exists.mp h0
  obtain ⟨y, hy⟩ := Option.isSome_iff_exists.mp h1
  exact ⟨halfOfBytes x y, by simp [readHalf, hx, hy]⟩

/-- A field whose two bytes no store touches keeps its value. -/
theorem MemStep.readHalf {m m' : List Host.Cell} {P : Nat → Prop} (h : MemStep m m' P) (a : Nat) (h0 : ¬ P a)
    (h1 : ¬ P (a + 1)) : readHalf m' a = readHalf m a := by
  simp [Sys2Proof.Machine.readHalf, h.same _ h0, h.same _ h1]

/-- A shorter read is the front of a longer one. -/
theorem cellReadN_take {m : List Host.Cell} {a n k : Nat} {vs : List Byte} (h : cellReadN m a n = some vs) (hk : k ≤ n) :
    cellReadN m a k = some (vs.take k) := by
  rw [cellReadN_eq_some] at h ⊢
  exact ⟨by simp [h.1, hk], fun j hj => by rw [h.2 j (by omega), List.getElem?_take_of_lt hj]⟩

/-- The k-th byte of a block that can be read. -/
theorem cellRead_of_readN {m : List Host.Cell} {a n : Nat} {vs : List Byte} (h : cellReadN m a n = some vs) (k : Nat)
    (hk : k < n) : cellRead m (a + k) = vs[k]? := ((cellReadN_eq_some _ _ _ _).mp h).2 k hk

/-- RegShadow after one write. -/
theorem shadow_write (m : List (Nat × Word)) (i j : Nat) (v : Word) :
    cellRead (cellWrite m i [v]) j = if j = i then some v else cellRead m j := by
  rw [cellRead_write]
  by_cases h : j = i
  · subst h
    simp
  · rw [if_neg (by simp only [List.length_singleton]; omega), if_neg h]

/-- The `addr` field of a TX descriptor is its first eight bytes. -/
theorem txDesc_addr_congr {m m' : List Host.Cell} {a : Nat} (h : ∀ k, k < 16 → (cellRead m (a + k)).isSome)
    (h' : ∀ k, k < 16 → (cellRead m' (a + k)).isSome) (he : ∀ k, k < 8 → cellRead m' (a + k) = cellRead m (a + k)) :
    ((cellReadN m' a 16).bind txDescOfBytes).map (·.addr) = ((cellReadN m a 16).bind txDescOfBytes).map (·.addr) := by
  obtain ⟨v, hv⟩ := cellReadN_isSome _ _ _ h
  obtain ⟨v', hv'⟩ := cellReadN_isSome _ _ _ h'
  have e : ∀ k, k < 8 → v'[k]? = v[k]? := fun k hk => by
    rw [← cellRead_of_readN hv k (by omega), ← cellRead_of_readN hv' k (by omega)]
    exact he k hk
  have hl := ((cellReadN_eq_some _ _ _ _).mp hv).1
  have hl' := ((cellReadN_eq_some _ _ _ _).mp hv').1
  simp only [hv, hv', Option.bind_some]
  match v, v', hl, hl', e with
  | [a0, a1, a2, a3, a4, a5, a6, a7, _, _, _, _, _, _, _, _], [b0, b1, b2, b3, b4, b5, b6, b7, _, _, _, _, _, _, _, _],
      _, _, e =>
    have := e 0 (by decide); have := e 1 (by decide); have := e 2 (by decide); have := e 3 (by decide)
    have := e 4 (by decide); have := e 5 (by decide); have := e 6 (by decide); have := e 7 (by decide)
    simp_all [txDescOfBytes]

/-- The `addr` field of an RX descriptor is its first eight bytes. -/
theorem rxDesc_addr_congr {m m' : List Host.Cell} {a : Nat} (h : ∀ k, k < 16 → (cellRead m (a + k)).isSome)
    (h' : ∀ k, k < 16 → (cellRead m' (a + k)).isSome) (he : ∀ k, k < 8 → cellRead m' (a + k) = cellRead m (a + k)) :
    ((cellReadN m' a 16).bind rxDescOfBytes).map (·.addr) = ((cellReadN m a 16).bind rxDescOfBytes).map (·.addr) := by
  obtain ⟨v, hv⟩ := cellReadN_isSome _ _ _ h
  obtain ⟨v', hv'⟩ := cellReadN_isSome _ _ _ h'
  have e : ∀ k, k < 8 → v'[k]? = v[k]? := fun k hk => by
    rw [← cellRead_of_readN hv k (by omega), ← cellRead_of_readN hv' k (by omega)]
    exact he k hk
  have hl := ((cellReadN_eq_some _ _ _ _).mp hv).1
  have hl' := ((cellReadN_eq_some _ _ _ _).mp hv').1
  simp only [hv, hv', Option.bind_some]
  match v, v', hl, hl', e with
  | [a0, a1, a2, a3, a4, a5, a6, a7, _, _, _, _, _, _, _, _], [b0, b1, b2, b3, b4, b5, b6, b7, _, _, _, _, _, _, _, _],
      _, _, e =>
    have := e 0 (by decide); have := e 1 (by decide); have := e 2 (by decide); have := e 3 (by decide)
    have := e 4 (by decide); have := e 5 (by decide); have := e 6 (by decide); have := e 7 (by decide)
    simp_all [rxDescOfBytes]

/-! ### Where the meanings store -/

theorem transmitStores_slot {i len a : Nat} (h : len ≤ p.maxTx) (ha : TransmitStores p i len a) : InTxSlot p i a := by
  simp only [TransmitStores, InTxSlot, InRange, offLength, offTxCmd, offStatus] at *
  omega

theorem rxFillStores_slot {i a : Nat} (ha : InRange a (rxBufAddr p i) p.rxBuf ∨ InRange a (rxDescAddr p i + 8) 8) :
    InRxSlot p i a := by
  simp only [InRxSlot, InRange] at *
  omega

theorem memStep_txStatus (m : List Host.Cell) (i : Nat) (b : Byte) :
    MemStep m (cellWrite m (txDescAddr p i + offStatus) [b]) (fun a => a = txDescAddr p i + offStatus) :=
  memStep_write _ _ _ _ fun b h1 h2 => by simp only [List.length_singleton] at h2; omega

theorem memStep_rxStatus (m : List Host.Cell) (i : Nat) (b : Byte) :
    MemStep m (cellWrite m (rxDescAddr p i + offStatus) [b]) (fun a => a = rxDescAddr p i + offStatus) :=
  memStep_write _ _ _ _ fun b h1 h2 => by simp only [List.length_singleton] at h2; omega

/-- What DEV_RXFILL leaves in its slot: the status byte, the length and the whole buffer (R214). -/
theorem rxFillMem_reads (hp : p.admitted = true) (m : List Host.Cell) (i : Nat) (e : Bool) (l : Half) (data : List Byte)
    (d : Nat) (hi : i < p.nRx) (hl : l.toNat ≤ p.rxBuf) :
    cellRead (rxFillMem p m i e l data d) (rxDescAddr p i + offStatus) = some (rxFillStatus (Config.freeRxStatus d) e) ∧
    readHalf (rxFillMem p m i e l data d) (rxDescAddr p i + offLength) = some l ∧
    cellReadN (rxFillMem p m i e l data d) (rxBufAddr p i) p.rxBuf = some (rxFillBytes data l.toNat p.rxBuf d) := by
  have hx := rxDesc_rxBuf hp hi
  have hlen := rxFillBytes_length data l.toNat p.rxBuf d hl
  refine ⟨by simp [rxFillMem], ?_, ?_⟩
  · have h1 : cellRead (rxFillMem p m i e l data d) (rxDescAddr p i + offLength) = some (l.extractLsb' 0 8) := by
      simp [rxFillMem, offLength, offRxCsum, offRxErrors, offSpecial, offStatus, cellRead_write, halfBytes]
    have h2 : cellRead (rxFillMem p m i e l data d) (rxDescAddr p i + offLength + 1) = some (l.extractLsb' 8 8) := by
      simp [rxFillMem, offLength, offRxCsum, offRxErrors, offSpecial, offStatus, cellRead_write, halfBytes]
    simp only [readHalf, h1, h2]
    exact congrArg some (halfOfBytes_halfBytes l)
  · simp only [rxFillMem, offLength, offRxCsum, offRxErrors, offSpecial, offStatus]
    rw [cellReadN_write_other _ _ _ _ _ (by simp only [List.length_singleton]; omega),
      cellReadN_write_other _ _ _ _ _ (by simp only [halfBytes_length]; omega),
      cellReadN_write_other _ _ _ _ _ (by simp only [List.length_singleton]; omega),
      cellReadN_write_other _ _ _ _ _ (by simp only [halfBytes_length]; omega),
      cellReadN_write_other _ _ _ _ _ (by simp only [halfBytes_length]; omega)]
    simpa only [hlen] using cellReadN_write_self m (rxBufAddr p i) (rxFillBytes data l.toNat p.rxBuf d)

/-! ### The slots' share of the invariant, as a fact about memory -/

/-- What `State.Inv` asks of memory once attached: `Bound`, `Written` and `LengthsFit`. -/
def SlotsOk (p : Params) (m : List Host.Cell) : Prop :=
  ((∀ i, i < p.nTx → ((cellReadN m (txDescAddr p i) 16).bind txDescOfBytes).map (·.addr) = some (txBufPa p i)) ∧
    (∀ i, i < p.nRx → ((cellReadN m (rxDescAddr p i) 16).bind rxDescOfBytes).map (·.addr) = some (rxBufPa p i))) ∧
  ((∀ i a, i < p.nTx → InTxSlot p i a → (cellRead m a).isSome) ∧
    (∀ i a, i < p.nRx → InRxSlot p i a → (cellRead m a).isSome)) ∧
  ((∀ i n, i < p.nTx → readHalf m (txDescAddr p i + offLength) = some n → n.toNat ≤ p.maxTx) ∧
    (∀ i n, i < p.nRx → readHalf m (rxDescAddr p i + offLength) = some n → n.toNat ≤ p.rxBuf))

theorem inv_iff_slotsOk (s : State) :
    s.Inv ↔ s.cfg.admitted = true ∧ Memory.wf s.mem ∧ Shadow.wf s.regShadow ∧
      (s.Attached → s.TailsInRange ∧ SlotsOk s.cfg s.mem) := Iff.rfl

/-- Stores that touch no `addr` field and leave every length within its buffer keep the slots' share. -/
theorem SlotsOk.store {m m' : List Host.Cell} {P : Nat → Prop} (ok : SlotsOk p m) (h : MemStep m m' P)
    (hTx : ∀ i k, i < p.nTx → k < 8 → ¬ P (txDescAddr p i + k)) (hRx : ∀ i k, i < p.nRx → k < 8 → ¬ P (rxDescAddr p i + k))
    (hTxL : ∀ i n, i < p.nTx → readHalf m' (txDescAddr p i + offLength) = some n → n.toNat ≤ p.maxTx)
    (hRxL : ∀ i n, i < p.nRx → readHalf m' (rxDescAddr p i + offLength) = some n → n.toNat ≤ p.rxBuf) : SlotsOk p m' := by
  obtain ⟨⟨b1, b2⟩, ⟨w1, w2⟩, -⟩ := ok
  refine ⟨⟨fun i hi => ?_, fun i hi => ?_⟩, ⟨fun i a hi hs => h.kept _ (w1 i a hi hs), fun i a hi hs => h.kept _ (w2 i a hi hs)⟩,
    hTxL, hRxL⟩
  · rw [← b1 i hi]
    exact txDesc_addr_congr (fun k hk => w1 _ _ hi (inTxSlot_desc _ _ hk))
      (fun k hk => h.kept _ (w1 _ _ hi (inTxSlot_desc _ _ hk))) (fun k hk => h.same _ (hTx i k hi hk))
  · rw [← b2 i hi]
    exact rxDesc_addr_congr (fun k hk => w2 _ _ hi (inRxSlot_desc _ _ hk))
      (fun k hk => h.kept _ (w2 _ _ hi (inRxSlot_desc _ _ hk))) (fun k hk => h.same _ (hRx i k hi hk))

/-- Stores in one slot's status byte only keep it (R150, R170, R213). -/
theorem SlotsOk.status {m m' : List Host.Cell} {P : Nat → Prop} (hp : p.admitted = true) (ok : SlotsOk p m)
    (h : MemStep m m' P) (hP : ∀ a, P a → (∃ i, i < p.nTx ∧ a = txDescAddr p i + offStatus) ∨
      (∃ i, i < p.nRx ∧ a = rxDescAddr p i + offStatus)) : SlotsOk p m' := by
  have hs := (admitted_apart hp).1
  have tx : ∀ i k, i < p.nTx → k < 12 → ¬ P (txDescAddr p i + k) := fun i k hi hk hPa => by
    rcases hP _ hPa with ⟨j, hj, e⟩ | ⟨j, hj, e⟩ <;> simp only [txDescAddr, rxDescAddr, offStatus] at e <;> omega
  have rx : ∀ i k, i < p.nRx → k < 12 → ¬ P (rxDescAddr p i + k) := fun i k hi hk hPa => by
    rcases hP _ hPa with ⟨j, hj, e⟩ | ⟨j, hj, e⟩ <;> simp only [txDescAddr, rxDescAddr, offStatus] at e <;> omega
  refine ok.store h (fun i k hi hk => tx i k hi (by omega)) (fun i k hi hk => rx i k hi (by omega)) (fun i n hi hn => ?_)
    (fun i n hi hn => ?_)
  · rw [h.readHalf (txDescAddr p i + offLength) (tx i 8 hi (by omega)) (tx i 9 hi (by omega))] at hn
    exact ok.2.2.1 i n hi hn
  · rw [h.readHalf (rxDescAddr p i + offLength) (rx i 8 hi (by omega)) (rx i 9 hi (by omega))] at hn
    exact ok.2.2.2 i n hi hn

theorem readN_inRange {m : List Host.Cell} {b n a : Nat} {vs : List Byte} (h : cellReadN m b n = some vs)
    (ha : InRange a b n) : (cellRead m a).isSome := by
  obtain ⟨h1, h2⟩ := ha
  have h3 := cellRead_of_readN h (a - b) (by omega)
  have h4 := ((cellReadN_eq_some _ _ _ _).mp h).1
  rw [show b + (a - b) = a by omega] at h3
  rw [h3, List.getElem?_eq_getElem (by omega)]
  rfl

/-- What ATTACH makes is in order (R192, R261). -/
theorem slotsOk_initMem (hp : p.admitted = true) (m : List Host.Cell) : SlotsOk p (initMem p m) := by
  have h := initMem_read hp m
  refine ⟨⟨fun i hi => ?_, fun i hi => ?_⟩, ⟨fun i a hi ha => ?_, fun i a hi ha => ?_⟩, ⟨fun i n hi hn => ?_, fun i n hi hn => ?_⟩⟩
  · simp [(h.1 i hi).1, txDescOfBytes_txDescBytes, txDescInit]
  · simp [(h.2 i hi).1, rxDescOfBytes_rxDescBytes, rxDescInit]
  · exact ha.elim (readN_inRange (h.1 i hi).1) (readN_inRange (h.1 i hi).2)
  · exact ha.elim (readN_inRange (h.2 i hi).1) (readN_inRange (h.2 i hi).2)
  · have e0 := cellRead_of_readN (h.1 i hi).1 8 (by decide)
    have e1 := cellRead_of_readN (h.1 i hi).1 9 (by decide)
    simp [readHalf, offLength, e0, e1, txDescBytes, paddrBytes, halfBytes, txDescInit, halfOfBytes] at hn
    simp [← hn]
  · have e0 := cellRead_of_readN (h.2 i hi).1 8 (by decide)
    have e1 := cellRead_of_readN (h.2 i hi).1 9 (by decide)
    simp [readHalf, offLength, e0, e1, rxDescBytes, paddrBytes, halfBytes, rxDescInit, halfOfBytes] at hn
    simp [← hn]

/-- The status bytes ATTACH leaves (R192). -/
theorem initMem_status (hp : p.admitted = true) (m : List Host.Cell) :
    (∀ i, i < p.nTx → cellRead (initMem p m) (txDescAddr p i + offStatus) = some 0x01#8) ∧
    (∀ i, i < p.nRx → cellRead (initMem p m) (rxDescAddr p i + offStatus) = some 0x00#8) := by
  have h := initMem_read hp m
  exact ⟨fun i hi => cellRead_of_readN (h.1 i hi).1 12 (by decide), fun i hi => cellRead_of_readN (h.2 i hi).1 12 (by decide)⟩

/-- DEV_RXFILL keeps the slots' share (R214). -/
theorem slotsOk_rxFill (hp : p.admitted = true) {m : List Host.Cell} (ok : SlotsOk p m) (i : Nat) (e : Bool) (l : Half)
    (data : List Byte) (d : Nat) (hi : i < p.nRx) (hl : l.toNat ≤ p.rxBuf) : SlotsOk p (rxFillMem p m i e l data d) := by
  have hm := memStep_rxFillMem p m i e l data d hl
  have hb := rxDesc_rxBuf hp hi
  have tx : ∀ j k, j < p.nTx → k < 16 →
      ¬ (InRange (txDescAddr p j + k) (rxBufAddr p i) p.rxBuf ∨ InRange (txDescAddr p j + k) (rxDescAddr p i + 8) 8) :=
    fun j k hj hk h => txSlot_rxSlot hp hj hi (inTxSlot_desc j k hk) (rxFillStores_slot h)
  have rx : ∀ j k, j < p.nRx → k < 16 → j ≠ i →
      ¬ (InRange (rxDescAddr p j + k) (rxBufAddr p i) p.rxBuf ∨ InRange (rxDescAddr p j + k) (rxDescAddr p i + 8) 8) :=
    fun j k hj hk hne h => rxSlot_rxSlot hp hj hi hne (inRxSlot_desc j k hk) (rxFillStores_slot h)
  refine ok.store hm (fun j k hj hk => tx j k hj (by omega)) (fun j k hj hk => ?_) (fun j n hj hn => ?_) (fun j n hj hn => ?_)
  · by_cases hji : j = i
    · subst hji
      simp only [InRange]
      omega
    · exact rx j k hj (by omega) hji
  · rw [hm.readHalf (txDescAddr p j + offLength) (tx j 8 hj (by omega)) (tx j 9 hj (by omega))] at hn
    exact ok.2.2.1 j n hj hn
  · by_cases hji : j = i
    · subst hji
      rw [(rxFillMem_reads hp m j e l data d hj hl).2.1] at hn
      cases hn
      exact hl
    · rw [hm.readHalf (rxDescAddr p j + offLength) (rx j 8 hj (by omega) hji) (rx j 9 hj (by omega) hji)] at hn
      exact ok.2.2.2 j n hj hn

end Sys2Proof.Laws
end

