-- ==== Sys2Proof/Tests/Slice0.lean ====
section
/-! SUPPORT. Tests. Expected values are those of spec/95_test_vectors.md (the vector's id stands beside each) on its
platform, with MAX_TX = RXBUF = 4 to keep the states small. Below them, the named witnesses that the hypotheses of the
obligations can be met. -/

namespace Sys2Proof.Tests

open Sys2Proof Sys2Proof.Machine Sys2Proof.Laws

/-! ### The test platform and its states -/

/-- spec/95's platform with 4-byte buffers. -/
def plat (o : DeviceOrder) : Params where
  nTx := 8
  nRx := 8
  maxTx := 4
  rxBuf := 4
  txRingPa := 0x00100000#64
  rxRingPa := 0x00101000#64
  txBufPa := (List.range 8).map fun i => BitVec.ofNat 64 (0x00200000 + 0x800 * i)
  rxBufPa := (List.range 8).map fun i => BitVec.ofNat 64 (0x00300000 + 0x800 * i)
  attachOk := [0x80080783#32]
  tctlVal := 0x0004010A#32
  tipgVal := 0x0060200A#32
  rctlVal := 0x04008002#32
  extra := []
  order := o
  regCount := 0x8000

/-- `s` with bytes on the data-in port. -/
def given (bytes : List Byte) (s : State) : State := { s with dataIn := bytes }

/-- `s` with one entry presented. -/
def presented (inp : Input) (s : State) : State := { s with inputs := [inp] }

/-- What ATTACH leaves in memory. -/
@[irreducible] def readyMem (o : DeviceOrder) : List Host.Cell := initMem (plat o) []

/-- S_A as far as the rings go: what ATTACH leaves in memory, cursors and tail registers. -/
def ready (o : DeviceOrder) : State :=
  { State.resetWith (plat o) with
    life := .ready
    txTail := 0#16
    rxTail := 7#16
    mem := readyMem o
    regShadow := [(0xA06, 7#32), (0xE06, 0#32)]
    txHead := 0#16
    rxHead := 0#16
    cmdCount := 1 }

/-- Memory that holds slot i of both rings, as ATTACH makes it, and nothing else. -/
def slotMem (i : Nat) : List Host.Cell :=
  cellRun (0x00100000 + 16 * i) (txDescBytes (txDescInit (txBufPa (plat .free) i))) ++
  cellRun (0x00101000 + 16 * i) (rxDescBytes (rxDescInit (rxBufPa (plat .free) i))) ++
  cellRun (0x00200000 + 0x800 * i) [0x00#8, 0x00#8, 0x00#8, 0x00#8] ++
  cellRun (0x00300000 + 0x800 * i) [0x00#8, 0x00#8, 0x00#8, 0x00#8]

/-- A small state whose TX tail and RX candidate are slot i, the only slot in memory. -/
def small (o : DeviceOrder) (i : Nat) : State :=
  { ready o with mem := slotMem i, txTail := BitVec.ofNat 16 i, rxTail := BitVec.ofNat 16 ((i + 7) % 8) }

/-- `s` with RX slot i holding a frame and this status byte. -/
def filled (i : Nat) (status : Byte) (frame : List Byte) (s : State) : State :=
  s.setMem (cellWrite (cellWrite (cellWrite s.mem (rxBufAddr s.cfg i) frame) (rxDescAddr s.cfg i + 8)
    (halfBytes (BitVec.ofNat 16 frame.length))) (rxDescAddr s.cfg i + 12) [status])

/-- `s` with TX slot i queued, as TRANSMIT of one byte leaves it. -/
def queued (i : Nat) (s : State) : State :=
  s.setMem (cellWrite (transmitFields s.cfg s.mem i 1#16 [0x55#8]) (txDescAddr s.cfg i + 12) [0x00#8])

/-! ### WellFormed: an ill-formed term for each check, refused -/

theorem test_wf_accepts : (plat .free).admitted = true ∧ Params.reference.admitted = true := by decide +kernel

theorem test_wf_ring_length :
    Params.ringLengthOk 0 = false ∧ Params.ringLengthOk 12 = false ∧ Params.ringLengthOk 4104 = false ∧
    Params.ringLengthOk 8 = true ∧ Params.ringLengthOk 4096 = true ∧
    ({ plat .free with nTx := 16 } : Params).admitted = false ∧
    ({ plat .free with nRx := 7, rxBufPa := (plat .free).rxBufPa.take 7 } : Params).admitted = false ∧
    ({ plat .free with nTx := 4, txBufPa := (plat .free).txBufPa.take 4 } : Params).admitted = false := by decide +kernel

theorem test_wf_buffer_size :
    ({ plat .free with maxTx := 0 } : Params).admitted = false ∧
    ({ plat .free with maxTx := 65536 } : Params).admitted = false ∧
    ({ plat .free with rxBuf := 0 } : Params).admitted = false ∧
    ({ plat .free with rxBuf := 65536 } : Params).admitted = false := by decide +kernel

theorem test_wf_ring_alignment :
    ({ plat .free with txRingPa := 0x00100008#64 } : Params).admitted = false ∧
    ({ plat .free with rxRingPa := 0x00101001#64 } : Params).admitted = false := by decide +kernel

theorem test_wf_pool_length :
    ({ plat .free with txBufPa := (plat .free).txBufPa.take 7 } : Params).admitted = false ∧
    ({ plat .free with rxBufPa := (plat .free).rxBufPa ++ [0x00400000#64] } : Params).admitted = false := by
  decide +kernel

theorem test_wf_regions :
    ({ plat .free with rxRingPa := 0x00100070#64 } : Params).admitted = false ∧
    ({ plat .free with maxTx := 0x801 } : Params).admitted = false ∧
    ({ plat .free with maxTx := 0x800 } : Params).admitted = true ∧
    ({ plat .free with txRingPa := 0xFFFFFFFFFFFFFF90#64 } : Params).admitted = false := by decide +kernel

theorem test_wf_reg_count :
    ({ plat .free with regCount := 0xE06 } : Params).admitted = false ∧
    ({ plat .free with regCount := 0xE07 } : Params).admitted = true := by decide +kernel

theorem test_wf_rctl :
    Params.reference.rctlMeets = true ∧
    ({ Params.reference with rctlVal := 0x04000002#32 } : Params).rctlMeets = false ∧
    ({ Params.reference with rctlVal := 0x00008002#32 } : Params).rctlMeets = false ∧
    ({ Params.reference with rxBuf := 1024 } : Params).rctlMeets = false ∧
    ({ Params.reference with rxBuf := 1024 } : Params).bootReady = false ∧ Params.reference.bootReady = true := by
  decide +kernel

/-- DC-16, DC-17, DC-21 and DC-22 on this platform: the last slot and the last length, and one past each. -/
theorem test_wf_instr :
    Instr.wf (plat .free) (.devTxdone 7#16) = true ∧ Instr.wf (plat .free) (.devTxdone 8#16) = false ∧
    Instr.wf (plat .free) (.devRxfill 7#16 true 4#16) = true ∧ Instr.wf (plat .free) (.devRxfill 8#16 true 4#16) = false ∧
    Instr.wf (plat .free) (.devRxfill 7#16 true 5#16) = false := by decide +kernel

theorem test_ill_formed_instance_is_refused :
    State.instantiate { plat .free with nTx := 16 } = .refused .instanceNotAdmitted := if_neg (by decide +kernel)

theorem test_memory_wf_refuses :
    ¬ Memory.wf [(2, 0x00#8), (1, 0x00#8)] ∧ ¬ Memory.wf [(1, 0x00#8), (1, 0x01#8)] ∧ Memory.wf [(1, 0x00#8), (2, 0x00#8)] := by
  decide

/-! ### Decoding: words written out from R103 and R104 -/

/-- DC-1, DC-13. -/
theorem test_decode_attach :
    decodeCommand 0b0000000000000000_000000000000_0001#32 = .ok .attach ∧
    decodeCommand 0b0000000000000001_000000000000_0001#32 = .error .illegalCommand := by decide

/-- DC-3, DC-4, DC-5, DC-11. -/
theorem test_decode_transmit :
    decodeCommand 0b0000000000000000_000000000000_0010#32 = .ok (.transmit 0#16) ∧
    decodeCommand 0b0000000000000100_000000000000_0010#32 = .ok (.transmit 4#16) ∧
    decodeCommand 0b0000010111101110_000000000000_0010#32 = .ok (.transmit 1518#16) ∧
    decodeCommand 0b0000000000000000_000000000001_0010#32 = .error .illegalCommand := by decide

/-- DC-2, DC-14, and DC-9, DC-10. -/
theorem test_decode_receive :
    decodeCommand 0b0000000000000000_000000000000_0011#32 = .ok .receive ∧
    decodeCommand 0b0000000000000001_000000000000_0011#32 = .error .illegalCommand ∧
    decodeCommand 0x00000004#32 = .error .illegalCommand ∧ decodeCommand 0x0000000F#32 = .error .illegalCommand := by decide

/-- DC-15, DC-16, DC-18, DC-25. -/
theorem test_decode_devTxdone :
    decodeEvent [0b0000000000000000_00000000000_0_1000#32] = .ok (.devTxdone 0#16) ∧
    decodeEvent [0b0000000000000111_00000000000_0_1000#32] = .ok (.devTxdone 7#16) ∧
    decodeEvent [0b0000000000000000_00000000000_1_1000#32] = .error .illegalEvent ∧
    decodeEvent [0b0000000000000000_00000000001_1_1001#32] = .error .illegalEvent := by decide

/-- DC-19, DC-20, DC-23. -/
theorem test_decode_devRxfill :
    decodeEvent [0b0000000000000000_00000000000_1_1001#32, 0x00000003#32] = .ok (.devRxfill 0#16 true 3#16) ∧
    decodeEvent [0b0000000000000001_00000000000_0_1001#32, 0x0000003C#32] = .ok (.devRxfill 1#16 false 60#16) ∧
    decodeEvent [0b0000000000000000_00000000000_1_1001#32, 0x00010003#32] = .error .illegalEvent := by decide

theorem test_encode :
    encode .attach = [0x00000001#32] ∧ encode (.transmit 4#16) = [0x00040002#32] ∧ encode .receive = [0x00000003#32] ∧
    encode (.devTxdone 7#16) = [0x00070008#32] ∧ encode (.devRxfill 0#16 true 3#16) = [0x00000019#32, 0x00000003#32] := by
  decide

/-- The opcode table's words (value fields, bits as the table numbers them). -/
theorem test_decodeTableWord :
    decodeTableWord 32 0x00000001 = some .attach ∧ decodeTableWord 32 0x00040002 = some (.transmit 4#16) ∧
    decodeTableWord 32 0x00000003 = some .receive ∧ decodeTableWord 32 0x00070008 = some (.devTxdone 7#16) ∧
    decodeTableWord 64 0x0000000300000019 = some (.devRxfill 0#16 true 3#16) ∧
    decodeTableWord 32 0x00000019 = some (.devRxfill 0#16 true 0#16) ∧ decodeTableWord 32 0 = none := by decide

/-- The lines of R110 as programs P1 and P3 write them. -/
theorem test_asm_line :
    asmLine (.transmit 4#16) [0xDE#8, 0xAD#8, 0xBE#8, 0xEF#8] = "TRANSMIT 4, [DE, AD, BE, EF]" ∧
    asmLine (.devRxfill 0#16 true 3#16) [1#8, 2#8, 3#8] = "DEV_RXFILL 0, 3, eop=1, [01, 02, 03]" := by decide +kernel

/-! ### Index arithmetic and accessors (spec/95 2.2) -/

/-- IX-1 to IX-5. -/
theorem test_next : nextIdx 8 0 = 1 ∧ nextIdx 8 6 = 7 ∧ nextIdx 8 7 = 0 ∧ nextIdx 64 63 = 0 ∧ nextIdx 4096 4095 = 0 := by
  decide

/-- IX-6 to IX-9. -/
theorem test_addresses :
    txDescAddr (plat .free) 3 = 0x00100030 ∧ rxDescAddr (plat .free) 7 = 0x00101070 ∧
    txBufAddr (plat .free) 7 = 0x00203800 ∧ rxBufAddr (plat .free) 5 + 0x7FF = 0x00302FFF := by decide +kernel

/-- AC-1 to AC-7. -/
theorem test_accessors :
    [0x01#8, 0x00#8, 0xFE#8, 0xFF#8].map isDone = [true, false, false, true] ∧
    [0x01#8, 0xFF#8, 0x0E#8].map clearDone = [0x00#8, 0xFE#8, 0x0E#8] ∧
    [0x03#8, 0xE3#8, 0x01#8, 0xFF#8].map clearDoneEop = [0x00#8, 0xE0#8, 0x00#8, 0xFC#8] ∧
    [0x03#8, 0x01#8, 0x02#8].map isEop = [true, false, true] ∧
    [0x00#8, 0x09#8, 0x20#8].map setCmdEopRs = [0x09#8, 0x09#8, 0x29#8] ∧
    [0x01#8, 0x00#8, 0xFE#8, 0x0F#8].map txStateOf = [.free, .queued, .queued, .free] ∧
    [0x00#8, 0x03#8, 0x01#8, 0x02#8].map rxStateOf = [.empty, .full, .frag, .empty] := by decide

/-! ### One step of each instruction -/

/-- AT-1, AT-9, AT-10, with the STATUS word the platform passes. -/
theorem test_attach :
    let s := attachBody 0x80080783#32 (State.resetWith (plat .free)).beginCommand
    s.life = .ready ∧ s.txTail = 0#16 ∧ s.rxTail = 7#16 ∧ s.result = 0x00000000#32 ∧ s.regLog.length = 14 ∧
    cellReadN s.mem 0x00100010 16 =
      some [0x00#8, 0x08#8, 0x20#8, 0#8, 0#8, 0#8, 0#8, 0#8, 0#8, 0#8, 0#8, 0#8, 0x01#8, 0#8, 0#8, 0#8] ∧
    cellReadN s.mem 0x00101020 16 =
      some [0x00#8, 0x10#8, 0x30#8, 0#8, 0#8, 0#8, 0#8, 0#8, 0#8, 0#8, 0#8, 0#8, 0#8, 0#8, 0#8, 0#8] := by decide +kernel

/-- AT-2, with a STATUS word it does not pass. -/
theorem test_attach_fails :
    let s := attachBody 0#32 (State.resetWith (plat .free)).beginCommand
    s.life = .failed ∧ s.result = 0x00000005#32 ∧ s.regLog = [⟨1, .rd 0x002 0#32⟩] ∧ s.mem = [] := by
  decide +kernel

/-- TX-1, TX-11. -/
theorem test_transmit :
    let s := transmitBody 4#16 (given [0xDE#8, 0xAD#8, 0xBE#8, 0xEF#8] (small .free 0))
    s.result = 0x00000000#32 ∧ s.txTail = 1#16 ∧ s.shadow 0xE06 = some 1#32 ∧ s.dataIn = [] ∧
    cellReadN s.mem 0x00100000 16 =
      some [0x00#8, 0x00#8, 0x20#8, 0#8, 0#8, 0#8, 0#8, 0#8, 0x04#8, 0#8, 0#8, 0x09#8, 0x00#8, 0#8, 0#8, 0#8] ∧
    cellReadN s.mem 0x00200000 4 = some [0xDE#8, 0xAD#8, 0xBE#8, 0xEF#8] := by decide +kernel

/-- TX-7, the wrap at slot 7; TX-5, RING_FULL; TX-6, the length check comes first; TX-8, only bit 0 of the status is
cleared. -/
theorem test_transmit_edges :
    (transmitBody 2#16 (given [0xAA#8, 0xBB#8] (small .free 7))).txTail = 0#16 ∧
    (transmitBody 2#16 (given [0xAA#8, 0xBB#8] (small .free 7))).shadow 0xE06 = some 0#32 ∧
    (transmitBody 1#16 (given [8#8] (queued 0 (small .free 0)))).result = 0x00000002#32 ∧
    (transmitBody 5#16 (queued 0 (small .free 0))).result = 0x00000001#32 ∧
    (transmitBody 1#16 (given [0x77#8] (let s := small .free 0
      s.setMem (cellWrite s.mem 0x0010000C [0x03#8])))).txStatus 0 = some 0x02#8 := by decide +kernel

/-- RX-2. -/
theorem test_receive :
    let s := receiveBody (filled 0 0x03#8 [0x01#8, 0x02#8, 0x03#8] (small .free 0))
    s.result = 0x00030000#32 ∧ s.dataOut = [0x01#8, 0x02#8, 0x03#8] ∧ s.rxTail = 0#16 ∧
    s.rxStatus 0 = some 0x00#8 ∧ s.rxLength 0 = some 3#16 ∧ s.shadow 0xA06 = some 0#32 := by decide +kernel

/-- RX-3, RX-1, RX-7, RX-8. -/
theorem test_receive_edges :
    (receiveBody (filled 0 0x01#8 [1#8] (small .free 0))).life = .halted ∧
    (receiveBody (filled 0 0x01#8 [1#8] (small .free 0))).result = 0x00000004#32 ∧
    (receiveBody (small .free 0)).result = 0x00000003#32 ∧
    (receiveBody (filled 7 0x03#8 [1#8] (small .free 7))).shadow 0xA06 = some 7#32 ∧
    (receiveBody (filled 0 0xE3#8 [1#8] (small .free 0))).rxStatus 0 = some 0xE0#8 := by decide +kernel

/-- TD-1 and TD-3 on a slot that is not the head, and the empty frame of TD-7. -/
theorem test_devTxdone :
    txDoneEnabled 1#16 (queued 1 (small .free 1)) = true ∧
    (txDoneStep 1#16 (queued 1 (small .free 1))).txWire = [[0x55#8]] ∧
    (txDoneStep 0#16 (transmitBody 0#16 (small .free 0))).txWire = [[]] := by decide +kernel

/-- R213 has no exception: a queued length that reaches past the bytes memory holds still completes (log 14). -/
theorem test_devTxdone_short :
    let q := queued 1 (small .free 1)
    let s := txDoneStep 1#16 (q.setMem (cellWrite q.mem (txDescAddr q.cfg 1 + 8) (halfBytes 5#16)))
    s.fault = none ∧ s.txWire.map List.length = [5] ∧ s.txWire.map (List.take 1) = [[0x55#8]] ∧ s.draws = q.draws + 6 := by
  decide +kernel

/-- TD-2, TD-4, TD-6, TD-8. -/
theorem test_devTxdone_disabled :
    txDoneEnabled 0#16 (small .free 0) = false ∧ txDoneEnabled 1#16 (queued 1 (small .ring 1)) = false ∧
    txDoneEnabled 0#16 (State.resetWith (plat .free)) = false ∧ txDoneEnabled 0#16 (queued 0 (small .ring 0)) = false := by
  decide +kernel

/-- RF-1. -/
theorem test_devRxfill :
    let s := rxFillStep 0#16 true 3#16 { small .free 0 with devData := [0x01#8, 0x02#8, 0x03#8] }
    s.rxBufBytes 0 3 = some [0x01#8, 0x02#8, 0x03#8] ∧ s.rxLength 0 = some 3#16 ∧ s.rxTail = 7#16 := by decide +kernel

/-- RF-2, RF-4, RF-9, and RF-6 with the head at the tail. -/
theorem test_devRxfill_disabled :
    rxFillEnabled 0#16 1#16 (filled 0 0x03#8 [1#8] (small .free 0)) = false ∧
    rxFillEnabled 1#16 1#16 (small .ring 1) = false ∧ rxFillEnabled 0#16 1#16 (small .ring 0) = true ∧
    rxFillEnabled 0#16 1#16 (State.resetWith (plat .free)) = false ∧
    rxFillEnabled 7#16 1#16 { small .ring 7 with rxHead := 7#16 } = false := by decide +kernel

/-- TX-9 through `step`, as the first instruction after reset. -/
theorem test_fetch_word_runs :
    step (State.reset.withFetchWord 32 0x00000003) =
      .next { State.reset with cmdCount := 1, fault := some .notAttached } := rfl

/-! ### Witnesses: the hypotheses of each obligation can be met -/

/-- The state a step answers. -/
def after (s : State) : State :=
  match step s with
  | .next t => t
  | .fault _ => s
  | .refused _ => s

theorem step_after (s : State) : step s = .next (after s) := by
  obtain ⟨t, h⟩ := step_next s
  simp [after, h]

theorem plat_admitted (o : DeviceOrder) : (plat o).admitted = true := by
  cases o
  · exact test_wf_accepts.1
  · decide +kernel

theorem readyMem_eq (o : DeviceOrder) : readyMem o = initMem (plat o) [] := by delta readyMem; exact Eq.refl _

theorem readyMem_wf (o : DeviceOrder) : Memory.wf (readyMem o) := by
  rw [readyMem_eq]
  exact (memStep_initMem (p := plat o) []).wf List.Pairwise.nil

theorem readyMem_ok (o : DeviceOrder) : SlotsOk (plat o) (readyMem o) := by
  rw [readyMem_eq]
  exact slotsOk_initMem (plat_admitted o) []

theorem ready_shadow_wf : Shadow.wf [(0xA06, 7#32), (0xE06, 0#32)] := by decide

theorem ready_inv (o : DeviceOrder) : (ready o).Inv :=
  (inv_iff_slotsOk _).mpr ⟨plat_admitted o, readyMem_wf o, ready_shadow_wf,
    fun _ => ⟨⟨show 0 < 8 by decide, show 7 < 8 by decide⟩, readyMem_ok o⟩⟩

theorem ready_running (o : DeviceOrder) : (ready o).Running := ⟨rfl, rfl⟩

theorem ready_txStatus (o : DeviceOrder) (i : Nat) (h : i < 8) : (ready o).txStatus i = some 0x01#8 :=
  (show cellRead (readyMem o) (txDescAddr (plat o) i + offStatus) = _ by
    rw [readyMem_eq]
    exact (initMem_status (plat_admitted o) []).1 i h)

theorem ready_rxStatus (o : DeviceOrder) (i : Nat) (h : i < 8) : (ready o).rxStatus i = some 0x00#8 :=
  (show cellRead (readyMem o) (rxDescAddr (plat o) i + offStatus) = _ by
    rw [readyMem_eq]
    exact (initMem_status (plat_admitted o) []).2 i h)

theorem ready_txState (o : DeviceOrder) (i : Nat) (h : i < 8) : (ready o).txState i = some .free := by
  rw [State.txState, ready_txStatus o i h]
  rfl

theorem ready_rxState (o : DeviceOrder) (i : Nat) (h : i < 8) : (ready o).rxState i = some .empty := by
  rw [State.rxState, ready_rxStatus o i h]
  rfl

/-- Memory with the status bytes of TX slots 0 .. k-1 at 0. -/
def clearTx (p : Params) (m : List Host.Cell) : Nat → List Host.Cell
  | 0 => m
  | k + 1 => cellWrite (clearTx p m k) (txDescAddr p k + offStatus) [0x00#8]

/-- Memory with every TX slot queued. -/
@[irreducible] def fullMem (o : DeviceOrder) : List Host.Cell := clearTx (plat o) (readyMem o) 8

/-- Every TX slot queued; under ring order TDT = TDH (P4). -/
def full (o : DeviceOrder) : State := { ready o with mem := fullMem o }

theorem memStep_clearTx (p : Params) (m : List Host.Cell) (k : Nat) :
    MemStep m (clearTx p m k) (fun a => ∃ i, i < k ∧ a = txDescAddr p i + offStatus) := by
  induction k with
  | zero => exact .refl _ _
  | succ k ih =>
    exact (ih.mono fun a ⟨i, hi, ha⟩ => ⟨i, by omega, ha⟩).trans
      ((memStep_txStatus _ k _).mono fun a ha => ⟨k, by omega, ha⟩)

theorem memStep_fullMem (o : DeviceOrder) :
    MemStep (readyMem o) (fullMem o) (fun a => ∃ i, i < 8 ∧ a = txDescAddr (plat o) i + offStatus) := by
  rw [fullMem]
  exact memStep_clearTx (plat o) (readyMem o) 8

theorem clearTx_status (p : Params) (m : List Host.Cell) (i k : Nat) (h : i < k) :
    cellRead (clearTx p m k) (txDescAddr p i + offStatus) = some 0x00#8 := by
  induction k with
  | zero => omega
  | succ k ih =>
    by_cases e : i = k
    · subst e
      exact cellRead_write_one _ _ _
    · rw [clearTx, cellRead_write_other _ _ _ _ (by simp only [txDescAddr, List.length_singleton]; omega)]
      exact ih (by omega)

theorem full_txStatus (o : DeviceOrder) (i : Nat) (h : i < 8) : (full o).txStatus i = some 0x00#8 := by
  show cellRead (fullMem o) (txDescAddr (plat o) i + offStatus) = _
  rw [fullMem]
  exact clearTx_status _ _ i 8 h

theorem full_txState (o : DeviceOrder) (i : Nat) (h : i < 8) : (full o).txState i = some .queued := by
  rw [State.txState, full_txStatus o i h]
  rfl

theorem full_inv (o : DeviceOrder) : (full o).Inv :=
  (inv_iff_slotsOk _).mpr ⟨plat_admitted o, (memStep_fullMem o).wf (readyMem_wf o), ready_shadow_wf,
    fun _ => ⟨⟨show 0 < 8 by decide, show 7 < 8 by decide⟩,
      (readyMem_ok o).status (plat_admitted o) (memStep_fullMem o) fun _ h => .inl h⟩⟩

/-- Memory with RX slot 0 filled by a frame, whole or not. -/
@[irreducible] def arrivedMem (e : Bool) : List Host.Cell := rxFillMem (plat .free) (readyMem .free) 0 e 3#16 [1#8, 2#8, 3#8] 0

/-- RX slot 0 filled with a frame, whole or not. -/
def arrived (e : Bool) : State := { ready .free with mem := arrivedMem e }

theorem memStep_arrivedMem (e : Bool) : MemStep (readyMem .free) (arrivedMem e) (InRxSlot (plat .free) 0) := by
  rw [arrivedMem]
  exact (memStep_rxFillMem (plat .free) (readyMem .free) 0 e 3#16 _ 0 (by decide)).mono fun a h => rxFillStores_slot h

theorem arrivedMem_ok (e : Bool) : SlotsOk (plat .free) (arrivedMem e) := by
  rw [arrivedMem]
  exact slotsOk_rxFill (plat_admitted .free) (readyMem_ok .free) 0 e 3#16 _ 0 (by decide) (by decide)

theorem arrived_inv (e : Bool) : (arrived e).Inv :=
  (inv_iff_slotsOk _).mpr ⟨plat_admitted .free, (memStep_arrivedMem e).wf (readyMem_wf .free), ready_shadow_wf,
    fun _ => ⟨⟨show 0 < 8 by decide, show 7 < 8 by decide⟩, arrivedMem_ok e⟩⟩

theorem arrived_rxState (e : Bool) : (arrived e).rxState 0 = some (if e then .full else .frag) := by
  have h : cellRead (arrivedMem e) (rxDescAddr (plat .free) 0 + offStatus) = some (rxFillStatus (Config.freeRxStatus 0) e) := by
    rw [arrivedMem]
    exact (rxFillMem_reads (plat_admitted .free) (readyMem .free) 0 e 3#16 [1#8, 2#8, 3#8] 0 (by decide) (by decide)).1
  show (cellRead (arrivedMem e) (rxDescAddr (plat .free) 0 + offStatus)).map rxStateOf = _
  rw [h, Option.map_some, rxStateOf_rxFillStatus]

theorem witness_EncodeOfDecode : decodeInput (.event [0x00070008#32] []) = .ok (.devTxdone 7#16) := rfl

/-- DC-17, DC-22 and their neighbours, and an event of three words. -/
theorem witness_IllegalWordsAreRefused :
    fieldOp 0x00080008#32 ≠ 0x9#4 ∧ fieldOp 0x00000019#32 = 0x9#4 ∧
    (∃ r, admitInput (plat .free) (.event [0x00080008#32] []) = .error r) ∧
    (∃ i, admitInput (plat .free) (.event [0x00070008#32] []) = .ok i) ∧
    (∃ r, admitInput (plat .free) (.event [0x00000019#32, 0x00000005#32] []) = .error r) ∧
    (∃ i, admitInput (plat .free) (.event [0x00000019#32, 0x00000004#32] []) = .ok i) ∧
    (∃ r, admitInput (plat .free) (.event [0x00000019#32, 0x00000003#32, 0x00000000#32] []) = .error r) :=
  ⟨by decide, by decide, ⟨_, rfl⟩, ⟨_, rfl⟩, ⟨_, rfl⟩, ⟨_, rfl⟩, ⟨_, rfl⟩⟩

theorem witness_RefusalIsPermanent :
    admitInput (plat .free) (.command 0#32) = .error .illegalCommand ∧
    (presented (.command 0#32) (ready .free)).inputs = [.command 0#32] ∧ (ready .free).refused = none ∧
    (State.reset.refuse .illegalCommand).refused = some .illegalCommand ∧
    step (State.reset.refuse .illegalCommand) = .next (after (State.reset.refuse .illegalCommand)) :=
  ⟨rfl, rfl, rfl, rfl, step_after _⟩

theorem witness_RingSuccessor : (0 < 8 ∧ nextIdx 8 0 = 1) ∧ (6 < 8 ∧ nextIdx 8 6 = 7) ∧ (7 < 8 ∧ nextIdx 8 7 = 0) := by
  decide

theorem witness_RingRegisterFields :
    (plat .free).admitted = true ∧ (regRDT, 7#32) ∈ ringWrites (plat .free) ∧ (regTDH, 0#32) ∈ ringWrites (plat .free) ∧
    (regTDLEN, 0x80#32) ∈ ringWrites (plat .free) ∧ (ready .free).cfg.extra = [] ∧
    (∃ t, exec (.transmit 4#16) (ready .free) = .next t) ∧
    (∀ w ∈ [((0x0B00, 0x12345678#32) : Nat × Word)], FitsRingRegister w.1 w.2) ∧ ¬ FitsRingRegister regTDLEN 1#32 ∧
    ¬ FitsRingRegister regRDBAL 8#32 ∧ ¬ FitsRingRegister regTDT 0x10000#32 := by
  refine ⟨test_wf_accepts.1, by decide, by decide, by decide, rfl, exec_next _ _, ?_, fun h => ?_, fun h => ?_, fun h => ?_⟩
  · intro w hw
    rw [List.mem_singleton.mp hw]
    exact ⟨by decide, by decide, by decide⟩
  · exact absurd (h.2.1 (.inl rfl)) (by decide)
  · exact absurd (h.1 (.inr rfl)) (by decide)
  · exact absurd (h.2.2 (.inr (.inr (.inl rfl)))) (by decide)

theorem witness_StepRunsDecoded :
    (presented (.event [0x00070008#32] []) (ready .free)).inputs = [.event [0x00070008#32] []] ∧
    decodeInput (.event [0x00070008#32] []) = .ok (.devTxdone 7#16) ∧
    Instr.wf (ready .free).cfg (.devTxdone 7#16) = true := ⟨rfl, rfl, rfl⟩

theorem witness_IdleStep : State.reset.inputs = [] := rfl

/-- What the spec admits of the test platform. -/
theorem plat_specAdmits (o : DeviceOrder) : SpecAdmits (plat o) := by
  have h := plat_admitted o
  have r := admitted_ranges h
  have g := admitted_alignment h
  have b := admitted_bounds h
  have a1 := admitted_apart h
  have a2 := admitted_pools_apart h
  refine ⟨⟨r.1, r.2.1, g.1⟩, ⟨r.2.2.1, r.2.2.2.1, g.2.1⟩, by omega, by omega, by omega, by omega, by omega, g.2.2.1, g.2.2.2,
    b.1, b.2.1, b.2.2.1, b.2.2.2, fun a => ⟨?_, fun i hi ha => ⟨?_, ?_, fun j hj hne => ?_, fun j hj => ?_⟩,
    fun i hi ha => ⟨?_, ?_, fun j hj hne => ?_⟩⟩⟩
  · have := a1.1
    simp only [InRange]; omega
  · have := a1.2.1 i hi
    simp only [InRange] at *; omega
  · have := a1.2.2.2.1 i hi
    simp only [InRange] at *; omega
  · have := a2.1 j i hj hi hne
    simp only [InRange] at *; omega
  · have := a1.2.2.2.2.2 i j hi hj
    simp only [InRange] at *; omega
  · have := a1.2.2.1 i hi
    simp only [InRange] at *; omega
  · have := a1.2.2.2.2.1 i hi
    simp only [InRange] at *; omega
  · have := a2.2 j i hj hi hne
    simp only [InRange] at *; omega

/-- One instance for each condition: ring lengths, buffer sizes, REG_COUNT, pool lengths, alignment, the 2^64 bound, two
TX buffers that share a byte, an RX buffer over the RX ring, a TX buffer over the TX ring, the rings over each other. -/
theorem witness_OnlyAdmittedInstancesStart :
    SpecAdmits (plat .free) ∧
    ¬ SpecAdmits { plat .free with nTx := 0 } ∧ ¬ SpecAdmits { plat .free with nTx := 12 } ∧
    ¬ SpecAdmits { plat .free with nTx := 4104 } ∧ ¬ SpecAdmits { plat .free with nRx := 9 } ∧
    ¬ SpecAdmits { plat .free with maxTx := 65536 } ∧ ¬ SpecAdmits { plat .free with rxBuf := 0 } ∧
    ¬ SpecAdmits { plat .free with regCount := 0xE06 } ∧ ¬ SpecAdmits { plat .free with txBufPa := [] } ∧
    ¬ SpecAdmits { plat .free with rxRingPa := 8#64 } ∧
    ¬ SpecAdmits { plat .free with txRingPa := 0xFFFFFFFFFFFFFFF0#64 } ∧
    ¬ SpecAdmits { plat .free with txBufPa := List.replicate 8 0x00200000#64 } ∧
    ¬ SpecAdmits { plat .free with rxRingPa := 0x00300000#64 } ∧ ¬ SpecAdmits { plat .free with txRingPa := 0x00200000#64 } ∧
    ¬ SpecAdmits { plat .free with rxRingPa := 0x00100000#64 } := by
  refine ⟨plat_specAdmits .free, ?_, ?_, ?_, ?_, ?_, ?_, ?_, ?_, ?_, ?_, ?_, ?_, ?_, ?_⟩
  · exact fun h => absurd h.1.1 (by decide)
  · exact fun h => absurd h.1.2.2 (by decide)
  · exact fun h => absurd h.1.2.1 (by decide)
  · exact fun h => absurd h.2.1.2.2 (by decide)
  · exact fun h => absurd h.2.2.1.2 (by decide)
  · exact fun h => absurd h.2.2.2.1.1 (by decide)
  · exact fun h => absurd h.2.2.2.2.1 (by decide)
  · exact fun h => absurd h.2.2.2.2.2.1 (by decide)
  · exact fun h => absurd h.2.2.2.2.2.2.2.2.1 (by decide)
  · exact fun h => absurd h.2.2.2.2.2.2.2.2.2.1 (by decide)
  · rintro ⟨-, -, -, -, -, -, -, -, -, -, -, -, -, h⟩
    exact ((h 0x00200000).2.1 0 (by decide) ⟨by decide, by decide⟩).2.2.1 1 (by decide) (by decide) ⟨by decide, by decide⟩
  · rintro ⟨-, -, -, -, -, -, -, -, -, -, -, -, -, h⟩
    exact ((h 0x00300000).2.2 0 (by decide) ⟨by decide, by decide⟩).2.1 ⟨by decide, by decide⟩
  · rintro ⟨-, -, -, -, -, -, -, -, -, -, -, -, -, h⟩
    exact ((h 0x00200000).2.1 0 (by decide) ⟨by decide, by decide⟩).1 ⟨by decide, by decide⟩
  · rintro ⟨-, -, -, -, -, -, -, -, -, -, -, -, -, h⟩
    exact (h 0x00100000).1 ⟨⟨by decide, by decide⟩, ⟨by decide, by decide⟩⟩

theorem witness_InvAtReset : Params.reference.admitted = true := test_wf_accepts.2

theorem witness_StepKeepsInv :
    (presented (.command 0x00040002#32) (ready .free)).Inv ∧ step (presented (.command 0x00040002#32) (ready .free)) =
      .next (after (presented (.command 0x00040002#32) (ready .free))) := ⟨ready_inv .free, step_after _⟩

theorem witness_StepKeepsInstanceAndCanonicalForm :
    Memory.wf (ready .free).mem ∧ Shadow.wf (ready .free).regShadow ∧ step (ready .free) = .next (after (ready .free)) :=
  ⟨(ready_inv .free).2.1, (ready_inv .free).2.2.1, step_after _⟩

theorem ready_mirrored (o : DeviceOrder) : (ready o).TailsMirrored := ⟨rfl, rfl⟩

theorem no_extra (o : DeviceOrder) : ExtraSparesTails (plat o) := fun _ hw => absurd hw List.not_mem_nil

theorem transmitBody_life (len : Half) (s : State) : (transmitBody len s).life = s.life := by
  have h := transmitChecked_end len (portInBytes len.toNat s) (portIn len.toNat s)
  unfold transmitBody
  generalize transmitChecked len (portInBytes len.toNat s) (portIn len.toNat s) = t at h
  cases h with
  | tooLarge _ => simp
  | full _ _ _ _ _ _ => simp
  | fault _ _ _ => simp
  | queued _ _ _ _ _ _ _ _ _ _ _ s' hr =>
    unfold regWrite at hr
    split at hr
    · cases hr
      simp
    · cases hr
  | lost _ _ _ _ _ _ _ _ _ _ _ => simp

theorem witness_StepKeepsTailMirror :
    let s := presented (.command 0x00040002#32) (ready .ring)
    s.cfg.admitted = true ∧ ExtraSparesTails s.cfg ∧ (s.Attached → s.TailsMirrored) ∧ step s = .next (after s) ∧
    (after s).Attached := by
  refine ⟨plat_admitted .ring, no_extra _, fun _ => ready_mirrored .ring, step_after _, .inl ?_⟩
  have h := step_after (presented (.command 0x00040002#32) (ready .ring))
  rcases step_cases h with ⟨h, -⟩ | ⟨r, h, -⟩ | ⟨i, h, -, h'⟩
  · cases h
  · cases h
  · cases h
    rcases exec_cases h' with ⟨h, -⟩ | ⟨len, h, e⟩ | ⟨h, -⟩ | ⟨_, h, -⟩ | ⟨_, _, _, h, -⟩ <;> cases h
    rw [e, (admitRing_executes _).mpr (by exact ready_running .ring)]
    exact transmitBody_life _ _

theorem witness_StepKeepsRxTailDeviceOwned :
    let s := presented (.event [0x00000019#32, 0x00000001#32] [0x01#8]) (ready .ring)
    s.Inv ∧ ExtraSparesTails s.cfg ∧ s.cfg.order = .ring ∧ s.TailsMirrored ∧ s.RxTailDeviceOwned ∧
    step s = .next (after s) ∧ (after s).Attached := by
  refine ⟨ready_inv .ring, no_extra _, rfl, ready_mirrored .ring,
    ⟨0x00#8, ready_rxStatus .ring 7 (by decide), rfl⟩, step_after _, .inl ?_⟩
  have h := step_after (presented (.event [0x00000019#32, 0x00000001#32] [0x01#8]) (ready .ring))
  rcases step_cases h with ⟨h, -⟩ | ⟨r, h, -⟩ | ⟨i, h, -, h'⟩
  · cases h
  · cases h
  · cases h
    rcases exec_cases h' with ⟨h, -⟩ | ⟨_, h, -⟩ | ⟨h, -⟩ | ⟨_, h, -⟩ | ⟨_, _, _, h, e⟩ <;> cases h
    rw [e]
    split
    · simp
      rfl
    · rfl

theorem witness_LifecycleTransitions : step (presented (.command 0x00000003#32) (ready .free)) =
    .next (after (presented (.command 0x00000003#32) (ready .free))) := step_after _

theorem witness_FaultIsPermanentAndStops :
    let s := presented (.command 0x00000003#32) (State.reset.raise .notAttached)
    s.fault = some .notAttached ∧ step s = .next (after s) ∧ isCommand .receive = true := ⟨rfl, step_after _, rfl⟩

theorem witness_OnlyReachableFaults :
    let s := presented (.command 0x00000001#32) (ready .ring)
    s.Inv ∧ s.fault = none ∧ step s = .next (after s) ∧ (after s).fault = some .reAttach :=
  ⟨ready_inv .ring, rfl, step_after _, rfl⟩

/-- A command that takes a step, and one that takes none. -/
theorem witness_CommandCount :
    let s := presented (.command 0x00000001#32) (ready .free)
    let h := { s with life := .halted }
    fetch s = some (.ok .attach) ∧ isCommand .attach = true ∧ s.fault = none ∧ s.life = .ready ∧ step s = .next (after s) ∧
    (after s).cmdCount = s.cmdCount + 1 ∧ h.life ≠ .unattached ∧ h.life ≠ .ready ∧ (after h).cmdCount = h.cmdCount :=
  ⟨rfl, rfl, rfl, rfl, step_after _, rfl, by decide, by decide, rfl⟩

theorem witness_LifecycleTable :
    State.reset.fault = none ∧ State.reset.life = .unattached ∧
    ({ ready .free with life := .halted } : State).life = .halted ∧
    ({ ready .free with life := .failed } : State).life = .failed ∧ isCommand .attach = true ∧
    isCommand (.devTxdone 0#16) = false := ⟨rfl, rfl, rfl, rfl, rfl, rfl⟩

theorem witness_SecondAttachFaults : (ready .free).Running := ready_running .free

/-- The platform whose ATTACH_OK is true of the first word drawn. -/
def drawnPlat (o : DeviceOrder) (extra : List (Nat × Word)) : Params :=
  { plat o with attachOk := [Config.freeStatus 0], extra := extra }

/-- AT-8. -/
theorem witness_AttachSucceeds :
    let s := State.resetWith (drawnPlat .ring [(0x0B00, 0x12345678#32)])
    s.life = .unattached ∧ s.fault = none ∧ s.cfg.admitted = true ∧ Config.freeStatus s.draws ∈ s.cfg.attachOk ∧
    ∀ w ∈ s.cfg.extra, w.1 < s.cfg.regCount :=
  ⟨rfl, rfl, plat_admitted .ring, List.mem_singleton.mpr rfl, fun w hw => by
    rw [List.mem_singleton.mp hw]
    decide⟩

/-- Extra writes to a register of the platform's, and to TDH; none to another ring register. -/
theorem witness_AttachShadow :
    let s := State.resetWith (drawnPlat .ring [(0x0B00, 1#32), (0xE04, 5#32), (0x0B00, 2#32)])
    s.life = .unattached ∧ s.fault = none ∧ s.cfg.admitted = true ∧ (∀ w ∈ s.cfg.extra, w.1 < s.cfg.regCount) ∧
    Config.freeStatus s.draws ∈ s.cfg.attachOk ∧ (∃ t, exec .attach s = .next t) ∧ s.cfg.order = .ring ∧
    (∀ w ∈ s.cfg.extra, w.1 ≠ 0xE06) ∧ (∀ w ∈ s.cfg.extra, w.1 ≠ 0xA04) ∧
    s.cfg.extra = [(0x0B00, 1#32), (0xE04, 5#32)] ++ (0x0B00, 2#32) :: [] ∧
    s.cfg.extra = [(0x0B00, 1#32)] ++ (0xE04, 5#32) :: [(0x0B00, 2#32)] ∧
    (∀ w ∈ [((0x0B00, 2#32) : Nat × Word)], w.1 ≠ 0xE04) ∧
    (State.resetWith (drawnPlat .ring [])).cfg.extra = [] :=
  ⟨rfl, rfl, plat_admitted .ring, by decide, List.mem_singleton.mpr rfl, ⟨_, rfl⟩, rfl, by decide, by decide, rfl, rfl,
    by decide, rfl⟩

theorem witness_AttachMakesRings :
    let s := State.resetWith (drawnPlat .free [])
    s.cfg.admitted = true ∧ s.life = .unattached ∧ ∃ t, exec .attach s = .next t ∧ t.life = .ready := by
  refine ⟨plat_admitted .free, rfl, _, rfl, ?_⟩
  have h := attachBody_end (Config.freeStatus 0) ((State.resetWith (drawnPlat .free [])).beginCommand.drew 1)
  rw [show runCommand (admitAttach (State.resetWith (drawnPlat .free []))) attachDraw (State.resetWith (drawnPlat .free [])) =
    attachBody (Config.freeStatus 0) ((State.resetWith (drawnPlat .free [])).beginCommand.drew 1) from rfl]
  generalize attachBody (Config.freeStatus 0) ((State.resetWith (drawnPlat .free [])).beginCommand.drew 1) = t at h
  have window : ∀ u ∈ attachWrites (drawnPlat .free []), u.1 < (drawnPlat .free []).regCount := by decide
  cases h with
  | blind hr => exact absurd hr (by decide)
  | failed hr hw => exact absurd (List.mem_singleton.mpr rfl) hw
  | stopped hr hw pre post i v hs hp hi =>
    have hm : (i, v) ∈ attachWrites (drawnPlat .free []) := by
      rw [show attachWrites (drawnPlat .free []) = pre ++ (i, v) :: post from hs]
      simp
    exact absurd (window _ hm) (Nat.not_lt.mpr hi)
  | attached hr hw ha => simp

theorem witness_AttachFails :
    let s := State.resetWith { plat .free with attachOk := [] }
    s.life = .unattached ∧ s.fault = none ∧ s.cfg.admitted = true ∧ Config.freeStatus s.draws ∉ s.cfg.attachOk :=
  ⟨rfl, rfl, plat_admitted .free, List.not_mem_nil⟩

/-- AT-7. -/
theorem witness_AttachExtraOutOfWindow :
    let s := State.resetWith (drawnPlat .free [(0x9000, 0#32)])
    s.life = .unattached ∧ s.fault = none ∧ s.cfg.admitted = true ∧ Config.freeStatus s.draws ∈ s.cfg.attachOk ∧
    s.cfg.extra = [] ++ (0x9000, 0#32) :: [] ∧ s.cfg.regCount ≤ 0x9000 :=
  ⟨rfl, rfl, plat_admitted .free, List.mem_singleton.mpr rfl, rfl, by decide⟩

/-- The frames ask only for an answer, and for an address outside the slots: address 0 is in none. -/
theorem witness_frames :
    (∃ t, exec .attach (State.resetWith (plat .free)) = .next t) ∧ (∃ t, exec (.transmit 4#16) (ready .free) = .next t) ∧
    (∃ t, exec .receive (arrived true) = .next t) ∧ ((full .free).Inv ∧ ∃ t, exec (.devTxdone 0#16) (full .free) = .next t) ∧
    (∃ t, exec (.devRxfill 7#16 true 3#16) (ready .free) = .next t) ∧
    (∀ i, i < 8 → ¬ InTxSlot (plat .free) i 0) ∧ (∀ i, i < 8 → ¬ InRxSlot (plat .free) i 0) :=
  ⟨exec_next _ _, exec_next _ _, exec_next _ _, ⟨full_inv .free, exec_next _ _⟩, exec_next _ _,
    by unfold InTxSlot InRange; decide +kernel, by unfold InRxSlot InRange; decide +kernel⟩

/-- The frames' addresses: address 0 lies in no slot, so it meets every premise of AttachFrame, TransmitFrame, ReceiveFrame
and DeviceFrame. -/
theorem witness_FrameAddresses :
    let p := (ready .free).cfg
    (∀ i, i < p.nTx → ¬ InTxSlot p i 0) ∧ (∀ i, i < p.nRx → ¬ InRxSlot p i 0) ∧
    ¬ InRange 0 (txBufAddr p 0) 4 ∧ ¬ InRange 0 (txDescAddr p 0 + 8) 2 ∧ 0 ≠ txDescAddr p 0 + 11 ∧ 0 ≠ txDescAddr p 0 + 12 ∧
    0 ≠ rxDescAddr p ((7 + 1) % p.nRx) + 12 ∧ ¬ InRange 0 (rxBufAddr p 0) p.rxBuf ∧ ¬ InRange 0 (rxDescAddr p 0 + 8) 8 := by
  unfold InTxSlot InRxSlot InRange
  decide +kernel

/-- Slot 0 with LEN = MAX_TX, and the wrap of TX-7 at slot 7. -/
theorem witness_TransmitQueues :
    (let s := small .free 0
     s.life = .ready ∧ s.fault = none ∧ s.txTail = 0#16 ∧ s.txStatus 0 = some 0x01#8 ∧
     cellRead s.mem (txDescAddr s.cfg 0 + 11) = some 0x00#8 ∧ (4#16).toNat ≤ s.cfg.maxTx) ∧
    (let s := small .free 7
     s.life = .ready ∧ s.fault = none ∧ s.txTail = 7#16 ∧ (7#16).toNat < s.cfg.nTx ∧ s.txStatus 7 = some 0x01#8 ∧
     cellRead s.mem (txDescAddr s.cfg 7 + 11) = some 0x00#8) := by decide +kernel

theorem witness_TransmitEffect :
    let s := ready .free
    s.Inv ∧ s.Running ∧ s.txTail = 0#16 ∧ (4#16).toNat ≤ s.cfg.maxTx ∧ s.txState 0 = some .free ∧
    ∃ t, exec (.transmit 4#16) s = .next t :=
  ⟨ready_inv .free, ready_running .free, rfl, by decide, ready_txState .free 0 (by decide), exec_next _ _⟩

theorem witness_TransmitReadBack :
    let s := given [0xDE#8, 0xAD#8, 0xBE#8, 0xEF#8] (ready .free)
    let d := txDescInit (txBufPa (plat .free) 0)
    s.Inv ∧ s.Running ∧ s.txTail = 0#16 ∧ s.txDesc 0 = some d ∧ isDone d.status = true ∧
    (4#16).toNat ≤ s.dataIn.length ∧ ∃ t, exec (.transmit 4#16) s = .next t := by
  refine ⟨ready_inv .free, ready_running .free, rfl, ?_, rfl, by decide, exec_next _ _⟩
  have h := ((initMem_read (plat_admitted .free) []).1 0 (by decide)).1
  rw [← readyMem_eq] at h
  exact (congrArg (fun o => o.bind txDescOfBytes) h).trans (txDescOfBytes_txDescBytes _)

/-- LEN = MAX_TX + 1. -/
theorem witness_TransmitTooLarge : (ready .free).Running ∧ (ready .free).cfg.maxTx < (5#16).toNat :=
  ⟨ready_running .free, by decide⟩

/-- P2 after command 9, LEN = MAX_TX. -/
theorem witness_TransmitRingFull :
    let s := full .free
    s.Running ∧ (4#16).toNat ≤ s.cfg.maxTx ∧ s.txTail = 0#16 ∧ (0#16).toNat < s.cfg.nTx ∧ s.txStatus 0 = some 0x00#8 :=
  ⟨⟨rfl, rfl⟩, by decide, rfl, by decide, full_txStatus .free 0 (by decide)⟩

/-- A TRANSMIT of MAX_TX + 1 bytes. -/
theorem witness_FailedTransmitChangesNothing :
    (ready .free).Inv ∧ (ready .free).Running ∧
    ∃ t, exec (.transmit 5#16) (ready .free) = .next t ∧ t.result ≠ 0x00000000#32 :=
  ⟨ready_inv .free, ready_running .free, _, rfl, by decide⟩

theorem witness_TransmitRegisterTraffic :
    (ready .free).Inv ∧ (ready .free).Running ∧ ∃ t, exec (.transmit 5#16) (ready .free) = .next t ∧ t.result = 0x00000001#32 :=
  ⟨ready_inv .free, ready_running .free, _, rfl, rfl⟩

theorem witness_TransmitAlwaysReturns : (full .ring).Inv ∧ (full .ring).Running := ⟨full_inv .ring, rfl, rfl⟩

/-- A frame of RXBUF bytes, and the empty frame at candidate 7 (RX-7, RX-4). -/
theorem witness_ReceiveTakesFrame :
    (let s := filled 0 0x03#8 [1#8, 2#8, 3#8, 4#8] (small .free 0)
     s.life = .ready ∧ s.fault = none ∧ s.rxTail = 7#16 ∧ 0 = (7 + 1) % s.cfg.nRx ∧ s.rxStatus 0 = some 0x03#8 ∧
     s.rxLength 0 = some 4#16 ∧ (4#16).toNat ≤ s.cfg.rxBuf ∧
     cellReadN s.mem (rxBufAddr s.cfg 0) 4 = some [1#8, 2#8, 3#8, 4#8]) ∧
    (let s := filled 7 0x03#8 [] (small .free 7)
     s.rxTail = 6#16 ∧ 7 = (6 + 1) % s.cfg.nRx ∧ s.rxStatus 7 = some 0x03#8 ∧ s.rxLength 7 = some 0#16 ∧
     cellReadN s.mem (rxBufAddr s.cfg 7) 0 = some []) := by decide +kernel

theorem witness_ReceiveEffect :
    let s := arrived true
    s.Inv ∧ s.Running ∧ s.rxTail = 7#16 ∧ 0 = ((7#16).toNat + 1) % s.cfg.nRx ∧ s.rxState 0 = some .full ∧
    ∃ t, exec .receive s = .next t :=
  ⟨arrived_inv true, ⟨rfl, rfl⟩, rfl, rfl, arrived_rxState true, exec_next _ _⟩

theorem witness_ReceiveNoPacket :
    let s := ready .free
    s.Running ∧ s.rxTail = 7#16 ∧ 0 < s.cfg.nRx ∧ s.rxStatus (((7#16).toNat + 1) % s.cfg.nRx) = some 0x00#8 :=
  ⟨ready_running .free, rfl, by decide, ready_rxStatus .free 0 (by decide)⟩

theorem witness_ReceiveUnsupportedFrame :
    let s := filled 0 0x01#8 [1#8] (small .free 0)
    s.life = .ready ∧ s.fault = none ∧ s.rxTail = 7#16 ∧ s.rxStatus ((7 + 1) % s.cfg.nRx) = some 0x01#8 := by
  decide +kernel

/-- A length of RXBUF + 1, in a state no run reaches. -/
theorem witness_ReceiveLengthOverflow :
    let s := filled 0 0x03#8 [1#8, 2#8, 3#8, 4#8, 5#8] (small .free 0)
    s.life = .ready ∧ s.fault = none ∧ s.rxTail = 7#16 ∧ s.rxStatus ((7 + 1) % s.cfg.nRx) = some 0x03#8 ∧
    s.rxLength ((7 + 1) % s.cfg.nRx) = some 5#16 ∧ s.cfg.rxBuf < (5#16).toNat := by decide +kernel

theorem witness_ReceiveRegisterTraffic :
    (arrived true).Inv ∧ (arrived true).Running ∧ ∃ t, exec .receive (arrived true) = .next t :=
  ⟨arrived_inv true, ⟨rfl, rfl⟩, exec_next _ _⟩

theorem witness_ReceiveAlwaysReturns : (arrived false).Inv ∧ (arrived false).Running ∧ (arrived false).rxState 0 = some .frag :=
  ⟨arrived_inv false, ⟨rfl, rfl⟩, arrived_rxState false⟩

/-- Free order, slot 1; ring order, the head slot with the tail register past it. -/
theorem witness_TxdoneCompletes :
    (let s := queued 1 (small .free 1)
     s.life = .ready ∧ (1#16).toNat < s.cfg.nTx ∧ s.txStatus 1 = some 0x00#8 ∧ s.cfg.order = .free ∧
     s.txLength 1 = some 1#16 ∧ cellReadN s.mem (txBufAddr s.cfg 1) 1 = some [0x55#8]) ∧
    (let s := { queued 0 (small .ring 0) with regShadow := [(0xE06, 1#32)] }
     s.txHead = 0#16 ∧ s.shadow 0xE06 ≠ some ((0#16).setWidth 32) ∧ s.txStatus 0 = some 0x00#8 ∧
     s.txLength 0 = some 1#16) := by decide +kernel

/-- L = 0 and L = RXBUF, the last slot under free order, the head slot under ring order. -/
theorem witness_RxfillDeposits :
    ((ready .free).life = .ready ∧ (7#16).toNat < (ready .free).cfg.nRx ∧ (ready .free).rxStatus 7 = some 0x00#8 ∧
      (4#16).toNat ≤ (ready .free).cfg.rxBuf ∧ (0#16).toNat ≤ (ready .free).cfg.rxBuf ∧ (ready .free).cfg.order = .free) ∧
    ((ready .ring).rxHead = 0#16 ∧ (ready .ring).shadow 0xA06 ≠ some ((0#16).setWidth 32) ∧
      (ready .ring).rxStatus 0 = some 0x00#8) :=
  ⟨⟨rfl, by decide, ready_rxStatus .free 7 (by decide), by decide, by decide, rfl⟩, rfl, by decide,
    ready_rxStatus .ring 0 (by decide)⟩

theorem witness_RxfillReadBack :
    let s := { ready .ring with devData := [1#8, 2#8, 3#8, 4#8] }
    s.Inv ∧ rxFillEnabled 0#16 4#16 s = true ∧ (4#16).toNat ≤ s.devData.length ∧
    ∃ t, exec (.devRxfill 0#16 true 4#16) s = .next t :=
  ⟨ready_inv .ring, (rxFillEnabled_iff _ _ _).mpr ⟨.inl rfl, by decide, ⟨0x00#8, ready_rxStatus .ring 0 (by decide), rfl⟩,
    by decide, by decide⟩, by decide, exec_next _ _⟩

theorem witness_DisabledEventChangesNothing :
    State.reset.life = .unattached ∧ (plat .free).nTx ≤ (8#16).toNat ∧ (small .free 0).txStatus 0 = some 0x01#8 ∧
    (0x01#8).getLsbD 0 = true ∧ (ready .ring).cfg.order = .ring ∧ (ready .ring).txHead ≠ 1#16 ∧
    (ready .ring).shadow 0xE06 = some ((0#16).setWidth 32) ∧ (ready .ring).rxHead ≠ 1#16 ∧
    (ready .ring).shadow 0xA06 = some ((7#16).setWidth 32) ∧ (plat .free).rxBuf < (5#16).toNat := by decide +kernel

theorem witness_RingEventsAreFreeEvents :
    (small .ring 0).cfg.order = .ring ∧
    txDoneEnabled 0#16 { queued 0 (small .ring 0) with regShadow := [(0xE06, 1#32)] } = true ∧
    rxFillEnabled 0#16 4#16 (small .ring 0) = true := by decide +kernel

theorem witness_TxStateMachine :
    let s := presented (.command 0x00040002#32) (ready .free)
    s.Inv ∧ s.Attached ∧ 0 < s.cfg.nTx ∧ 7 < s.cfg.nTx ∧ step s = .next (after s) ∧ s.txState 0 = some .free :=
  ⟨ready_inv .free, .inl rfl, by decide, by decide, step_after _, ready_txState .free 0 (by decide)⟩

theorem witness_RxStateMachine :
    let s := presented (.command 0x00000003#32) (arrived true)
    s.Inv ∧ s.Attached ∧ 0 < s.cfg.nRx ∧ 7 < s.cfg.nRx ∧ step s = .next (after s) ∧ s.rxState 0 = some .full :=
  ⟨arrived_inv true, .inl rfl, by decide, by decide, step_after _, arrived_rxState true⟩

theorem witness_SingleWriter :
    let s := presented (.command 0x00040002#32) (ready .free)
    s.Inv ∧ s.Attached ∧ fetch s = some (.ok (.transmit 4#16)) ∧ step s = .next (after s) ∧
    isCommand (.transmit 4#16) = true ∧ s.rxState 0 = some .empty ∧ s.txState 7 = some .free ∧
    (full .free).txState 7 = some .queued ∧ (arrived false).rxState 0 = some .frag ∧ isCommand (.devTxdone 0#16) = false :=
  ⟨ready_inv .free, .inl rfl, rfl, step_after _, rfl, ready_rxState .free 0 (by decide), ready_txState .free 7 (by decide),
    full_txState .free 7 (by decide), arrived_rxState false, rfl⟩

theorem witness_TxRingCapacity :
    (ready .free).Inv ∧ (ready .free).TxFresh ∧ (List.replicate 8 4#16).length = (ready .free).cfg.nTx ∧
    ∀ l ∈ List.replicate 8 4#16, l.toNat ≤ (ready .free).cfg.maxTx :=
  ⟨ready_inv .free, ⟨ready_running .free, rfl, ready_txState .free⟩, rfl, fun l hl => by
    rw [List.eq_of_mem_replicate hl]
    exact Nat.le_refl 4⟩

/-- P4's end: a full ring with TDT = TDH. -/
theorem witness_FullTxRingIsStuck : (full .ring).Inv ∧ (full .ring).TxStuck ∧ (full .ring).Running :=
  ⟨full_inv .ring, ⟨rfl, .inl rfl, full_txState .ring, rfl⟩, rfl, rfl⟩

/-- Two states with the same TX slots and different RX slots, and the reverse. -/
theorem witness_PipelinesAreIndependent :
    (ready .free).Inv ∧ (arrived true).Inv ∧ (full .free).Inv ∧ (ready .free).Running ∧ (arrived true).Running ∧
    (full .free).Running ∧ (arrived true).cfg = (ready .free).cfg ∧ (arrived true).txTail = (ready .free).txTail ∧
    (arrived true).dataIn = (ready .free).dataIn ∧ (arrived true).draws = (ready .free).draws ∧
    (full .free).cfg = (ready .free).cfg ∧ (full .free).rxTail = (ready .free).rxTail ∧
    (full .free).dataOut = (ready .free).dataOut ∧
    (∀ k a, k < 8 → InTxSlot (plat .free) k a → cellRead (arrived true).mem a = cellRead (ready .free).mem a) ∧
    (∀ k a, k < 8 → InRxSlot (plat .free) k a → cellRead (full .free).mem a = cellRead (ready .free).mem a) :=
  ⟨ready_inv .free, arrived_inv true, full_inv .free, ready_running .free, ⟨rfl, rfl⟩, ⟨rfl, rfl⟩, rfl, rfl, rfl, rfl, rfl,
    rfl, rfl,
    fun k a hk ha => (memStep_arrivedMem true).same a fun h =>
      txSlot_rxSlot (plat_admitted .free) hk (show 0 < (plat .free).nRx by decide) ha h,
    fun k a hk ha => (memStep_fullMem .free).same a fun ⟨i, hi, e⟩ =>
      txSlot_rxSlot (plat_admitted .free) (show i < (plat .free).nTx from hi) hk (e ▸ inTxSlot_desc i 12 (by decide)) ha⟩

end Sys2Proof.Tests
end

/-! SUPPORT. The instances the model admits are the instances the spec admits (spec/00_scope.md R6–R8,
spec/20_memory.md R52, R57). The model tests every pair of a list of regions; the spec says of every address that it lies
in one slot at most. The two agree because no region is empty. -/

namespace Sys2Proof.Proofs

open Sys2Proof.Machine Sys2Proof.Laws

/-! ### Regions -/

/-- Two regions that are not empty and have no address in common lie one before the other. -/
theorem apart_of_no_common_address {b n c m : Nat} (hn : 0 < n) (hm : 0 < m)
    (h : ∀ a, InRange a b n → ¬ InRange a c m) : Apart (b, n) (c, m) := by
  have hb := h b
  have hc := h c
  simp only [InRange, Apart] at *
  omega

/-- Regions that lie one before the other have no address in common. -/
theorem no_common_address_of_apart {b n c m a : Nat} (h : b + n ≤ c ∨ c + m ≤ b) (ha : InRange a b n) :
    ¬ InRange a c m := by
  simp only [InRange] at *
  omega

theorem regionsDisjoint_iff (l : List (Nat × Nat)) : regionsDisjoint l = true ↔ l.Pairwise Apart := by
  refine ⟨regionsDisjoint_pairwise l, fun h => ?_⟩
  induction l with
  | nil => rfl
  | cons r rs ih =>
    obtain ⟨hr, hrs⟩ := List.pairwise_cons.mp h
    simp only [regionsDisjoint, Bool.and_eq_true, List.all_eq_true]
    exact ⟨fun b hb => by simpa [regionsApart, Apart] using hr b hb, ih hrs⟩

/-! ### A pool of buffers: a list of addresses and one size -/

/-- A region of a pool is the buffer at one of its indices. -/
theorem mem_pool {l : List PAddr} {n : Nat} {r : Nat × Nat} (h : r ∈ l.map fun a => (a.toNat, n)) :
    ∃ i, i < l.length ∧ r = ((l.getD i 0#64).toNat, n) := by
  obtain ⟨a, ha, rfl⟩ := List.mem_map.mp h
  obtain ⟨i, hi, rfl⟩ := List.mem_iff_getElem.mp ha
  exact ⟨i, hi, by rw [List.getD_eq_getElem _ _ hi]⟩

/-- The buffers of a pool are apart when no address lies in two of them. -/
theorem pool_pairwise {l : List PAddr} {n : Nat} (hn : 0 < n)
    (h : ∀ a i, i < l.length → InRange a (l.getD i 0#64).toNat n →
      ∀ j, j < l.length → j ≠ i → ¬ InRange a (l.getD j 0#64).toNat n) :
    (l.map fun a => (a.toNat, n)).Pairwise Apart := by
  rw [List.pairwise_map, List.pairwise_iff_getElem]
  intro i j hi hj hij
  rw [← List.getD_eq_getElem l 0#64 hi, ← List.getD_eq_getElem l 0#64 hj]
  exact apart_of_no_common_address hn hn fun a ha => h a i hi ha j hj (by omega)

/-! ### What the spec admits, in the model's terms -/

/-- No region of an instance the spec admits reaches past the address space (R8, D28). -/
theorem specAdmits_bounds {p : Params} (h : SpecAdmits p) : ∀ r ∈ p.regions, r.1 + r.2 ≤ 2 ^ 64 := by
  obtain ⟨-, -, -, -, -, hltx, hlrx, -, -, htx, hrx, htxb, hrxb, -⟩ := h
  intro r hr
  simp only [Params.regions, List.mem_cons, List.mem_append] at hr
  obtain rfl | rfl | hr | hr := hr
  · exact htx
  · exact hrx
  · obtain ⟨i, hi, rfl⟩ := mem_pool hr
    exact htxb i (hltx ▸ hi)
  · obtain ⟨i, hi, rfl⟩ := mem_pool hr
    exact hrxb i (hlrx ▸ hi)

/-- No two regions of an instance the spec admits share a byte (R52). -/
theorem specAdmits_pairwise {p : Params} (h : SpecAdmits p) : p.regions.Pairwise Apart := by
  obtain ⟨⟨hnTx, -, -⟩, ⟨hnRx, -, -⟩, ⟨hmaxTx, -⟩, ⟨hrxBuf, -⟩, -, hltx, hlrx, -, -, -, -, -, -, h⟩ := h
  simp only [forall_and] at h
  obtain ⟨rings, ⟨txBuf_txRing, txBuf_rxRing, txBuf_txBuf, txBuf_rxBuf⟩, rxBuf_txRing, rxBuf_rxRing, rxBuf_rxBuf⟩ := h
  have tx0 : 0 < 16 * p.nTx := by omega
  have rx0 : 0 < 16 * p.nRx := by omega
  simp only [Params.regions, List.pairwise_cons, List.pairwise_append, List.mem_cons, List.mem_append]
  refine ⟨?_, ?_, ?_, ?_, ?_⟩
  · -- TX ring against all later regions
    rintro r (rfl | hr | hr)
    · exact apart_of_no_common_address tx0 rx0 fun a ha hb => rings a ⟨ha, hb⟩
    · obtain ⟨i, hi, rfl⟩ := mem_pool hr
      exact apart_of_no_common_address tx0 hmaxTx fun a ha hb => txBuf_txRing a i (hltx ▸ hi) hb ha
    · obtain ⟨i, hi, rfl⟩ := mem_pool hr
      exact apart_of_no_common_address tx0 hrxBuf fun a ha hb => rxBuf_txRing a i (hlrx ▸ hi) hb ha
  · -- RX ring against both pools
    rintro r (hr | hr)
    · obtain ⟨i, hi, rfl⟩ := mem_pool hr
      exact apart_of_no_common_address rx0 hmaxTx fun a ha hb => txBuf_rxRing a i (hltx ▸ hi) hb ha
    · obtain ⟨i, hi, rfl⟩ := mem_pool hr
      exact apart_of_no_common_address rx0 hrxBuf fun a ha hb => rxBuf_rxRing a i (hlrx ▸ hi) hb ha
  · -- TX buffers against each other
    exact pool_pairwise hmaxTx fun a i hi ha j hj hne => txBuf_txBuf a i (hltx ▸ hi) ha j (hltx ▸ hj) hne
  · -- RX buffers against each other
    exact pool_pairwise hrxBuf fun a i hi ha j hj hne => rxBuf_rxBuf a i (hlrx ▸ hi) ha j (hlrx ▸ hj) hne
  · -- TX buffers against RX buffers
    intro r hr q hq
    obtain ⟨i, hi, rfl⟩ := mem_pool hr
    obtain ⟨j, hj, rfl⟩ := mem_pool hq
    exact apart_of_no_common_address hmaxTx hrxBuf fun a ha => txBuf_rxBuf a i (hltx ▸ hi) ha j (hlrx ▸ hj)

theorem admitted_of_specAdmits {p : Params} (h : SpecAdmits p) : p.admitted = true := by
  have hb := specAdmits_bounds h
  have hd := (regionsDisjoint_iff _).mpr (specAdmits_pairwise h)
  obtain ⟨⟨nTx8, nTxLe, nTxMod⟩, ⟨nRx8, nRxLe, nRxMod⟩, ⟨maxTx1, maxTxLe⟩, ⟨rxBuf1, rxBufLe⟩, hreg, hltx, hlrx, hatx, harx,
    -⟩ := h
  simp only [Params.admitted, Params.ringLengthOk, Bool.and_eq_true, List.all_eq_true, decide_eq_true_eq, and_assoc]
  exact ⟨nTx8, nTxLe, nTxMod, nRx8, nRxLe, nRxMod, maxTx1, maxTxLe, rxBuf1, rxBufLe, hatx, harx, hltx, hlrx, hb, hd, hreg⟩

theorem specAdmits_of_admitted {p : Params} (h : p.admitted = true) : SpecAdmits p := by
  obtain ⟨nTx8, nTxLe, nRx8, nRxLe, maxTx1, maxTxLe, rxBuf1, rxBufLe, hltx, hlrx, hreg⟩ := admitted_ranges h
  obtain ⟨nTxMod, nRxMod, hatx, harx⟩ := admitted_alignment h
  obtain ⟨htx, hrx, htxb, hrxb⟩ := admitted_bounds h
  obtain ⟨rings, txRing_txBuf, txRing_rxBuf, rxRing_txBuf, rxRing_rxBuf, txBuf_rxBuf⟩ := admitted_apart h
  obtain ⟨txBuf_txBuf, rxBuf_rxBuf⟩ := admitted_pools_apart h
  refine ⟨⟨nTx8, nTxLe, nTxMod⟩, ⟨nRx8, nRxLe, nRxMod⟩, ⟨maxTx1, maxTxLe⟩, ⟨rxBuf1, rxBufLe⟩, hreg, hltx, hlrx, hatx, harx,
    htx, hrx, htxb, hrxb, fun a => ⟨fun ⟨ht, hr⟩ => no_common_address_of_apart rings ht hr, fun i hi ha => ?_,
    fun i hi ha => ?_⟩⟩
  · exact ⟨no_common_address_of_apart (txRing_txBuf i hi).symm ha, no_common_address_of_apart (rxRing_txBuf i hi).symm ha,
      fun j hj hne => no_common_address_of_apart (txBuf_txBuf i j hi hj hne.symm) ha,
      fun j hj => no_common_address_of_apart (txBuf_rxBuf i j hi hj) ha⟩
  · exact ⟨no_common_address_of_apart (txRing_rxBuf i hi).symm ha, no_common_address_of_apart (rxRing_rxBuf i hi).symm ha,
      fun j hj hne => no_common_address_of_apart (rxBuf_rxBuf i j hi hj hne.symm) ha⟩

/-- The model's test of an instance is the spec's conditions (R6–R8, R52, R57, D28, D39). -/
theorem admitted_iff_specAdmits (p : Params) : p.admitted = true ↔ SpecAdmits p :=
  ⟨specAdmits_of_admitted, admitted_of_specAdmits⟩

/-- Settles O13: the model's test and the spec's conditions admit the same instances, and `State.instantiate` branches on
the test alone. -/
theorem onlyAdmittedInstancesStart : Obligations.OnlyAdmittedInstancesStart := by
  intro p
  rw [← admitted_iff_specAdmits]
  exact ⟨fun h => if_pos h, fun h => if_neg h⟩

end Sys2Proof.Proofs

/-! SUPPORT. What every step keeps from any state, reachable or not: the parameters of the instance (spec/00_scope.md R6,
spec/10_state.md R30) and the canonical form of memory and of RegShadow (log 13). -/

namespace Sys2Proof.Proofs

open Sys2Proof.Machine Sys2Proof.Laws

/-- From s to s' the parameters stay the same, and memory and RegShadow keep their canonical form. -/
structure KeepsForm (s s' : State) : Prop where
  cfg : s'.cfg = s.cfg
  mem : Memory.wf s.mem → Memory.wf s'.mem
  regShadow : Shadow.wf s.regShadow → Shadow.wf s'.regShadow

theorem KeepsForm.refl (s : State) : KeepsForm s s := ⟨rfl, id, id⟩

/-- A change of other fields only. -/
theorem KeepsForm.of_eq {s s' : State} (hc : s'.cfg = s.cfg) (hm : s'.mem = s.mem) (hr : s'.regShadow = s.regShadow) :
    KeepsForm s s' :=
  ⟨hc, fun w => hm ▸ w, fun w => hr ▸ w⟩

/-- A change of memory by stores, and of other fields but RegShadow. -/
theorem KeepsForm.of_memStep {s s' : State} {P : Nat → Prop} (hc : s'.cfg = s.cfg) (hm : MemStep s.mem s'.mem P)
    (hr : s'.regShadow = s.regShadow) : KeepsForm s s' :=
  ⟨hc, hm.wf, fun w => hr ▸ w⟩

theorem KeepsForm.trans {s t u : State} (h : KeepsForm s t) (h' : KeepsForm t u) : KeepsForm s u :=
  ⟨h'.cfg.trans h.cfg, fun w => h'.mem (h.mem w), fun w => h'.regShadow (h.regShadow w)⟩

theorem putReg_keepsForm (s : State) (idx : Nat) (v : Word) : KeepsForm s (s.putReg idx v) :=
  ⟨rfl, id, cellWrite_sorted s.regShadow idx [v]⟩

theorem putRegAll_keepsForm (ws : List (Nat × Word)) (s : State) : KeepsForm s (putRegAll ws s) := by
  induction ws generalizing s with
  | nil => exact .refl s
  | cons w ws ih => exact (putReg_keepsForm s w.1 w.2).trans (ih _)

theorem attachRings_keepsForm (s : State) : KeepsForm s (attachRings s) :=
  .of_memStep rfl (memStep_initMem s.mem) rfl

/-- A register write keeps the form when it is made; when it faults, nothing is written. -/
theorem regWrite_keepsForm {idx : Nat} {v : Word} {s s' : State} (h : regWrite idx v s = .ok s') : KeepsForm s s' := by
  unfold regWrite at h
  split at h
  · cases h
    exact putReg_keepsForm s idx v
  · cases h

/-! ### The meanings -/

theorem runCommand_keepsForm {body : State → State} (h : ∀ s, KeepsForm s (body s)) (adm : Admission) (s : State) :
    KeepsForm s (runCommand adm body s) := by
  have counted : KeepsForm s s.beginCommand := .of_eq rfl rfl rfl
  obtain ⟨-, e⟩ | ⟨f, -, e⟩ | ⟨-, e⟩ := runCommand_cases adm body s <;> rw [e]
  · exact .refl s
  · exact counted.trans (.of_eq rfl rfl rfl)
  · exact counted.trans (h s.beginCommand)

theorem attachDraw_keepsForm (s : State) : KeepsForm s (attachDraw s) := by
  have polled : ∀ op, KeepsForm s ((s.drew 1).logReg op) := fun _ => .of_eq rfl rfl rfl
  have programmed : ∀ op ws, KeepsForm s (putRegAll ws (attachRings ((s.drew 1).logReg op))) := fun op ws =>
    ((polled op).trans (attachRings_keepsForm _)).trans (putRegAll_keepsForm ws _)
  have hend := attachBody_end (Config.freeStatus s.draws) (s.drew 1)
  unfold attachDraw
  generalize attachBody (Config.freeStatus s.draws) (s.drew 1) = t at hend
  cases hend with
  | blind => exact .of_eq rfl rfl rfl
  | failed => exact .of_eq rfl rfl rfl
  | stopped _ _ pre => exact (programmed _ pre).trans (.of_eq rfl rfl rfl)
  | attached => exact (programmed _ _).trans (.of_eq rfl rfl rfl)

theorem transmitChecked_keepsForm (len : Half) (payload : List Byte) (s : State) :
    KeepsForm s (transmitChecked len payload s) := by
  have hend := transmitChecked_end len payload s
  generalize transmitChecked len payload s = t at hend
  cases hend with
  | tooLarge => exact .of_eq rfl rfl rfl
  | full => exact .of_eq rfl rfl rfl
  | fault f m hm =>
    obtain rfl | ⟨_, _, -, -, -, -, -, hm⟩ := hm
    · exact .of_eq rfl rfl rfl
    · exact .of_memStep rfl hm rfl
  | queued _ _ m u _ _ _ _ _ _ hm s' hr =>
    have stored : KeepsForm s { s with mem := m, txTail := u } := .of_memStep rfl hm rfl
    exact (stored.trans (regWrite_keepsForm hr)).trans (.of_eq rfl rfl rfl)
  | lost _ _ m _ _ _ _ _ _ hm => exact .of_memStep rfl hm rfl

theorem transmitBody_keepsForm (len : Half) (s : State) : KeepsForm s (transmitBody len s) := by
  have consumed : KeepsForm s (portIn len.toNat s) := .of_eq rfl rfl rfl
  exact consumed.trans (transmitChecked_keepsForm len _ _)

theorem receiveBody_keepsForm (s : State) : KeepsForm s (receiveBody s) := by
  have hend := receiveBody_end s
  generalize receiveBody s = t at hend
  cases hend with
  | empty => exact .of_eq rfl rfl rfl
  | frag => exact .of_eq rfl rfl rfl
  | fault => exact .of_eq rfl rfl rfl
  | lost _ c st => exact .of_memStep rfl (memStep_rxStatus s.mem c _) rfl
  | taken _ c st _ bytes =>
    have recycled : KeepsForm s { s with
        mem := cellWrite s.mem (rxDescAddr s.cfg c + offStatus) [clearDoneEop st]
        rxTail := BitVec.ofNat 16 c
        dataOut := s.dataOut ++ bytes } := .of_memStep rfl (memStep_rxStatus s.mem c _) rfl
    exact (recycled.trans (putReg_keepsForm _ regRDT _)).trans (.of_eq rfl rfl rfl)

theorem txDoneStep_keepsForm (slot : Half) (s : State) : KeepsForm s (txDoneStep slot s) := by
  obtain ⟨frame, n, e, -⟩ := txDoneStep_cases slot s
  rw [e]
  exact .of_memStep rfl (memStep_txStatus s.mem slot.toNat _) rfl

theorem rxFillStep_keepsForm {slot l : Half} (e : Bool) {s : State} (h : rxFillEnabled slot l s = true) :
    KeepsForm s (rxFillStep slot e l s) := by
  obtain ⟨-, -, -, hl, -⟩ := (rxFillEnabled_iff slot l s).mp h
  have hm := memStep_rxFillMem s.cfg s.mem slot.toNat e l s.devData s.draws hl
  rw [← rxFillStep_mem] at hm
  exact .of_memStep (rxFillStep_cfg ..) hm (rxFillStep_regShadow ..)

theorem exec_keepsForm {i : Instr} {s s' : State} (h : exec i s = .next s') : KeepsForm s s' := by
  obtain ⟨-, rfl⟩ | ⟨len, -, rfl⟩ | ⟨-, rfl⟩ | ⟨slot, -, rfl⟩ | ⟨slot, e, l, -, rfl⟩ := exec_cases h
  · exact runCommand_keepsForm attachDraw_keepsForm _ s
  · exact runCommand_keepsForm (transmitBody_keepsForm len) _ s
  · exact runCommand_keepsForm receiveBody_keepsForm _ s
  · split
    · exact txDoneStep_keepsForm slot s
    · exact .refl s
  · split
    · next hen => exact rxFillStep_keepsForm e hen
    · exact .refl s

theorem step_keepsForm {s s' : State} (h : step s = .next s') : KeepsForm s s' := by
  have taken : KeepsForm s s.takeInput := .of_eq (takeInput_cfg s) (takeInput_mem s) (takeInput_regShadow s)
  obtain ⟨-, rfl⟩ | ⟨r, -, rfl⟩ | ⟨i, -, -, hi⟩ := step_cases h
  · exact .refl s'
  · exact taken.trans (.of_eq rfl rfl rfl)
  · exact taken.trans (exec_keepsForm hi)

/-- Settles O16: each meaning keeps the parameters and the canonical forms, case by case of what it can do, and so does
each step. -/
theorem stepKeepsInstanceAndCanonicalForm : Obligations.StepKeepsInstanceAndCanonicalForm := by
  intro s s' h
  obtain ⟨hcfg, hmem, hshadow⟩ := step_keepsForm h
  exact ⟨hcfg, hmem, hshadow⟩

end Sys2Proof.Proofs

/-! SUPPORT. What holds of an attached machine. A property of the instance, memory, RegShadow and the tails that ATTACH
establishes and every other meaning keeps holds after every step that ends attached: the lifecycle (spec/60_exceptions.md
R236, R237) is looked at here once. -/

namespace Sys2Proof.Proofs

open Sys2Proof.Machine Sys2Proof.Laws

/-! ### What the invariants of spec/10_state.md look at -/

/-- The two states agree on the parameters, memory, RegShadow and both tails: all that R35 to R38 speak of. -/
structure SameView (t u : State) : Prop where
  cfg : u.cfg = t.cfg
  mem : u.mem = t.mem
  regShadow : u.regShadow = t.regShadow
  txTail : u.txTail = t.txTail
  rxTail : u.rxTail = t.rxTail

theorem SameView.trans {t u v : State} (h : SameView t u) (h' : SameView u v) : SameView t v :=
  ⟨h'.cfg.trans h.cfg, h'.mem.trans h.mem, h'.regShadow.trans h.regShadow, h'.txTail.trans h.txTail,
    h'.rxTail.trans h.rxTail⟩

theorem sameView_takeInput (s : State) : SameView s s.takeInput :=
  ⟨takeInput_cfg s, takeInput_mem s, takeInput_regShadow s, takeInput_txTail s, takeInput_rxTail s⟩

theorem takeInput_attached (s : State) : s.takeInput.Attached ↔ s.Attached := by simp [State.Attached]

theorem sameView_raise (s : State) (f : Fault) : SameView s (s.raise f) := ⟨rfl, rfl, rfl, rfl, rfl⟩

theorem sameView_refuse (s : State) (r : Refusal) : SameView s (s.refuse r) := ⟨rfl, rfl, rfl, rfl, rfl⟩

theorem sameView_ret (s : State) (c : ResultCode) (rlen : Half) : SameView s (s.ret c rlen) := ⟨rfl, rfl, rfl, rfl, rfl⟩

theorem sameView_setLife (s : State) (l : Life) : SameView s (s.setLife l) := ⟨rfl, rfl, rfl, rfl, rfl⟩

theorem sameView_beginCommand (s : State) : SameView s s.beginCommand := ⟨rfl, rfl, rfl, rfl, rfl⟩

theorem sameView_portIn (n : Nat) (s : State) : SameView s (portIn n s) := ⟨rfl, rfl, rfl, rfl, rfl⟩

theorem SameView.rxStatus {t u : State} (v : SameView t u) (i : Nat) : u.rxStatus i = t.rxStatus i := by
  rw [State.rxStatus, State.rxStatus, v.cfg, v.mem]

/-- R36 looks at RegShadow and the tails alone. -/
theorem tailsMirrored_congr {t u : State} (hs : u.regShadow = t.regShadow) (htx : u.txTail = t.txTail)
    (hrx : u.rxTail = t.rxTail) (h : t.TailsMirrored) : u.TailsMirrored := by
  rwa [State.TailsMirrored, State.shadow, State.shadow, hs, htx, hrx]

theorem SameView.tailsMirrored {t u : State} (v : SameView t u) (h : t.TailsMirrored) : u.TailsMirrored :=
  tailsMirrored_congr v.regShadow v.txTail v.rxTail h

theorem SameView.rxTailDeviceOwned {t u : State} (v : SameView t u) (h : t.RxTailDeviceOwned) : u.RxTailDeviceOwned := by
  rwa [State.RxTailDeviceOwned, v.rxTail, v.rxStatus]

/-- What `State.Inv` asks of an attached state beyond its canonical form. -/
def InOrder (s : State) : Prop := s.TailsInRange ∧ SlotsOk s.cfg s.mem

theorem SameView.inOrder {t u : State} (v : SameView t u) (h : InOrder t) : InOrder u := by
  rwa [InOrder, State.TailsInRange, v.cfg, v.mem, v.txTail, v.rxTail]

/-! ### The one look at the lifecycle -/

/-- P is a property of the view, ATTACH's completion establishes it, and every other meaning that executes keeps it. The
meaning runs from a state t that agrees with s: the entry taken, the command counted, the payload consumed. -/
structure KeptOnceAttached (s : State) (P : State → Prop) : Prop where
  view : ∀ {t u : State}, SameView t u → P t → P u
  attach : ∀ t, SameView s t → P (putRegAll (attachWrites t.cfg) (attachRings t))
  transmit : s.Attached → ∀ t len payload, SameView s t → payload.length = len.toNat → P (transmitChecked len payload t)
  receive : s.Attached → ∀ t, SameView s t → P (receiveBody t)
  txDone : s.Attached → ∀ t slot, SameView s t → txDoneEnabled slot t = true → P (txDoneStep slot t)
  rxFill : s.Attached → ∀ t slot e l, SameView s t → rxFillEnabled slot l t = true → P (rxFillStep slot e l t)

theorem not_attached_of_unattached {s : State} (h : s.life = .unattached) : ¬ s.Attached := by simp [State.Attached, h]

/-- ATTACH ends attached only where it completes. -/
theorem attachDraw_attached {t : State} (hl : t.life = .unattached) (ha : (attachDraw t).Attached) :
    ∃ u, SameView t u ∧ SameView (putRegAll (attachWrites u.cfg) (attachRings u)) (attachDraw t) := by
  have polled : ∀ op, SameView t ((t.drew 1).logReg op) := fun _ => ⟨rfl, rfl, rfl, rfl, rfl⟩
  have hend := attachBody_end (Config.freeStatus t.draws) (t.drew 1)
  unfold attachDraw at ha ⊢
  generalize attachBody (Config.freeStatus t.draws) (t.drew 1) = r at hend ha
  cases hend with
  | blind => exact absurd ha (not_attached_of_unattached hl)
  | failed => simp [State.Attached] at ha
  | stopped _ _ pre =>
    obtain ⟨⟨-, life, -⟩, -⟩ :=
      putRegAll_same pre (attachRings ((t.drew 1).logReg (.rd regSTATUS (Config.freeStatus t.draws))))
    exact absurd ha (not_attached_of_unattached (life.trans hl))
  | attached => exact ⟨_, polled _, (sameView_setLife _ _).trans (sameView_ret _ _ _)⟩

/-- An engine command under its lifecycle test: where it does not execute the view and the lifecycle stay. -/
theorem runCommand_keeps {P : State → Prop} {adm : Admission} {body : State → State} {t : State}
    (view : ∀ {t u : State}, SameView t u → P t → P u) (ht : t.Attached → P t)
    (hbody : adm = .executes → (body t.beginCommand).Attached → P (body t.beginCommand))
    (ha : (runCommand adm body t).Attached) : P (runCommand adm body t) := by
  obtain ⟨-, e⟩ | ⟨f, -, e⟩ | ⟨he, e⟩ := runCommand_cases adm body t <;> rw [e] at ha ⊢
  · exact ht ha
  · exact view ((sameView_beginCommand t).trans (sameView_raise _ f)) (ht ha)
  · exact hbody he ha

theorem exec_keeps {P : State → Prop} {s t s' : State} {i : Instr} (kept : KeptOnceAttached s P)
    (hv : SameView s t) (hl : t.life = s.life) (ht : t.Attached → P t) (h : exec i t = .next s') (ha : s'.Attached) :
    P s' := by
  have attached : t.Attached → s.Attached := by simp [State.Attached, hl]
  have counted : SameView s t.beginCommand := hv.trans (sameView_beginCommand t)
  have running : admitRing t = .executes → s.Attached := fun he => attached (.inl ((admitRing_executes t).mp he).1)
  obtain ⟨-, rfl⟩ | ⟨len, -, rfl⟩ | ⟨-, rfl⟩ | ⟨slot, -, rfl⟩ | ⟨slot, e, l, -, rfl⟩ := exec_cases h
  · refine runCommand_keeps kept.view ht (fun he hr => ?_) ha
    obtain ⟨u, hu, hend⟩ := attachDraw_attached (t := t.beginCommand) ((admitAttach_executes t).mp he).1 hr
    exact kept.view hend (kept.attach u (counted.trans hu))
  · refine runCommand_keeps kept.view ht (fun he _ => ?_) ha
    have consumed : SameView s (portIn len.toNat t.beginCommand) := counted.trans (sameView_portIn _ _)
    exact kept.transmit (running he) _ len _ consumed (portInBytes_length ..)
  · exact runCommand_keeps kept.view ht (fun he _ => kept.receive (running he) _ counted) ha
  · by_cases hen : txDoneEnabled slot t = true
    · rw [if_pos hen]
      exact kept.txDone (attached ((txDoneEnabled_iff slot t).mp hen).1) t slot hv hen
    · rw [if_neg hen] at ha ⊢
      exact ht ha
  · by_cases hen : rxFillEnabled slot l t = true
    · rw [if_pos hen]
      exact kept.rxFill (attached ((rxFillEnabled_iff slot l t).mp hen).1) t slot e l hv hen
    · rw [if_neg hen] at ha ⊢
      exact ht ha

/-- The step lemma of every invariant that speaks of attached states. -/
theorem step_keeps {P : State → Prop} {s s' : State} (kept : KeptOnceAttached s P) (hs : s.Attached → P s)
    (h : step s = .next s') (ha : s'.Attached) : P s' := by
  have taken := sameView_takeInput s
  have ht : s.takeInput.Attached → P s.takeInput := fun ht => kept.view taken (hs ((takeInput_attached s).mp ht))
  obtain ⟨-, rfl⟩ | ⟨r, -, rfl⟩ | ⟨i, -, -, hi⟩ := step_cases h
  · exact hs ha
  · exact kept.view (sameView_refuse _ r) (ht ha)
  · exact exec_keeps kept taken (takeInput_life s) ht hi ha

end Sys2Proof.Proofs

/-! SUPPORT. Where an instruction stores: only in slots that belong to its agent at the start of the step
(spec/10_state.md R39, spec/40_ring_arbiter.md R136). -/

namespace Sys2Proof.Proofs

open Sys2Proof.Machine Sys2Proof.Laws

/-! ### The slots in one state -/

/-- Address a belongs to a TX slot whose descriptor is in state x. -/
def InTxSlotAt (s : State) (x : TxState) (a : Nat) : Prop :=
  ∃ k, k < s.cfg.nTx ∧ s.txState k = some x ∧ InTxSlot s.cfg k a

/-- Address a belongs to an RX slot whose descriptor is in state x. -/
def InRxSlotAt (s : State) (x : RxState) (a : Nat) : Prop :=
  ∃ k, k < s.cfg.nRx ∧ s.rxState k = some x ∧ InRxSlot s.cfg k a

theorem txState_of_status {s : State} {k : Nat} {st : Byte} {x : TxState} (hs : s.txStatus k = some st)
    (hx : txStateOf st = x) : s.txState k = some x := by
  rw [State.txState, hs, Option.map_some, hx]

theorem rxState_of_status {s : State} {k : Nat} {st : Byte} {x : RxState} (hs : s.rxStatus k = some st)
    (hx : rxStateOf st = x) : s.rxState k = some x := by
  rw [State.rxState, hs, Option.map_some, hx]

/-- An address tells the state of its slot: no two slots share one (R52). -/
theorem InTxSlotAt.txState {s : State} {k a : Nat} {x : TxState} (h : InTxSlotAt s x a) (hp : s.cfg.admitted = true)
    (hk : k < s.cfg.nTx) (ha : InTxSlot s.cfg k a) : s.txState k = some x := by
  obtain ⟨j, hj, hx, hja⟩ := h
  by_cases e : k = j
  · exact e ▸ hx
  · exact absurd hja (txSlot_txSlot hp hk hj e ha)

theorem InRxSlotAt.rxState {s : State} {k a : Nat} {x : RxState} (h : InRxSlotAt s x a) (hp : s.cfg.admitted = true)
    (hk : k < s.cfg.nRx) (ha : InRxSlot s.cfg k a) : s.rxState k = some x := by
  obtain ⟨j, hj, hx, hja⟩ := h
  by_cases e : k = j
  · exact e ▸ hx
  · exact absurd hja (rxSlot_rxSlot hp hk hj e ha)

/-- No address lies in slots of both rings (R52). -/
theorem InTxSlotAt.not_inRxSlot {s : State} {k a : Nat} {x : TxState} (h : InTxSlotAt s x a) (hp : s.cfg.admitted = true)
    (hk : k < s.cfg.nRx) : ¬ InRxSlot s.cfg k a :=
  fun ha => match h with | ⟨_, hj, _, hja⟩ => txSlot_rxSlot hp hj hk hja ha

theorem InRxSlotAt.not_inTxSlot {s : State} {k a : Nat} {x : RxState} (h : InRxSlotAt s x a) (hp : s.cfg.admitted = true)
    (hk : k < s.cfg.nTx) : ¬ InTxSlot s.cfg k a :=
  fun ha => match h with | ⟨_, hj, _, hja⟩ => txSlot_rxSlot hp hk hj ha hja

/-! ### Where each meaning stores -/

/-- A register write that is made is `putReg`. -/
theorem regWrite_ok {idx : Nat} {v : Word} {s s' : State} (h : regWrite idx v s = .ok s') : s' = s.putReg idx v := by
  unfold regWrite at h
  split at h <;> cases h
  rfl

/-- The tail registers are in an admitted instance's window, so a doorbell never faults (R6, R51). -/
theorem tailRegs_lt_regCount {p : Params} (hp : p.admitted = true) : regTDT < p.regCount ∧ regRDT < p.regCount := by
  obtain ⟨-, -, -, -, -, -, -, -, -, -, hreg⟩ := admitted_ranges hp
  simp only [regTDT, regRDT]
  omega

/-- What TRANSMIT stores lies in its tail slot, which is free (R150). -/
theorem transmitStores_free {s : State} {t : Half} {st : Byte} {len n a : Nat} (hn : t.toNat < s.cfg.nTx)
    (hs : s.txStatus t.toNat = some st) (hd : isDone st = true) (hl : len ≤ s.cfg.maxTx) (hpl : n = len)
    (ha : TransmitStores s.cfg t.toNat n a) : InTxSlotAt s .free a :=
  ⟨t.toNat, hn, txState_of_status hs ((txStateOf_free st).mpr hd), transmitStores_slot (hpl ▸ hl) ha⟩

theorem memStep_transmitChecked (s : State) {len : Half} {payload : List Byte} (hpl : payload.length = len.toNat) :
    MemStep s.mem (transmitChecked len payload s).mem (InTxSlotAt s .free) := by
  have hend := transmitChecked_end len payload s
  generalize transmitChecked len payload s = r at hend
  cases hend with
  | tooLarge => exact .refl _ _
  | full => exact .refl _ _
  | fault f m hm =>
    obtain rfl | ⟨t, st, -, hn, hl, hs, hd, hm⟩ := hm
    · exact .refl _ _
    · exact hm.mono fun a => transmitStores_free hn hs hd (Nat.le_of_not_lt hl) hpl
  | queued t st m u hl _ hn hs hd _ hm s' hr =>
    rw [regWrite_ok hr]
    exact hm.mono fun a => transmitStores_free hn hs hd (Nat.le_of_not_lt hl) hpl
  | lost t st m u hl _ hn hs hd hm => exact hm.mono fun a => transmitStores_free hn hs hd (Nat.le_of_not_lt hl) hpl

theorem memStep_receiveBody {s : State} (hp : s.cfg.admitted = true) :
    MemStep s.mem (receiveBody s).mem (InRxSlotAt s .full) := by
  have hend := receiveBody_end s
  generalize receiveBody s = r at hend
  cases hend with
  | empty => exact .refl _ _
  | frag => exact .refl _ _
  | fault => exact .refl _ _
  | lost _ _ _ _ _ _ _ _ hr => exact absurd (tailRegs_lt_regCount hp).2 (Nat.not_lt.mpr hr)
  | taken _ c st _ _ _ _ hn hs hd he =>
    have full : s.rxState c = some .full := rxState_of_status hs ((rxStateOf_full st).mpr ⟨hd, he⟩)
    exact (memStep_rxStatus s.mem c _).mono fun a e => ⟨c, hn, full, e ▸ inRxSlot_desc c 12 (by decide)⟩

theorem memStep_txDoneStep {slot : Half} {s : State} (h : txDoneEnabled slot s = true) :
    MemStep s.mem (txDoneStep slot s).mem (InTxSlotAt s .queued) := by
  obtain ⟨-, hn, ⟨st, hs, hd⟩, -⟩ := (txDoneEnabled_iff slot s).mp h
  obtain ⟨frame, n, e, -⟩ := txDoneStep_cases slot s
  rw [e]
  have queued : s.txState slot.toNat = some .queued := txState_of_status hs ((txStateOf_queued st).mpr hd)
  exact (memStep_txStatus s.mem slot.toNat _).mono fun a e => ⟨_, hn, queued, e ▸ inTxSlot_desc _ 12 (by decide)⟩

theorem memStep_rxFillStep {slot l : Half} {s : State} (e : Bool) (h : rxFillEnabled slot l s = true) :
    MemStep s.mem (rxFillStep slot e l s).mem (InRxSlotAt s .empty) := by
  obtain ⟨-, hn, ⟨st, hs, hd⟩, hl, -⟩ := (rxFillEnabled_iff slot l s).mp h
  have empty : s.rxState slot.toNat = some .empty := rxState_of_status hs ((rxStateOf_empty st).mpr hd)
  rw [rxFillStep_mem]
  exact (memStep_rxFillMem s.cfg s.mem slot.toNat e l s.devData s.draws hl).mono fun a ha =>
    ⟨_, hn, empty, rxFillStores_slot ha⟩

/-! ### Every instruction -/

/-- Where an instruction may store once the machine is attached (R39): a command in slots the engine owns, an event in
slots the device owns. -/
def MayStore (s : State) : Instr → Nat → Prop
  | .attach => fun _ => False
  | .transmit _ => InTxSlotAt s .free
  | .receive => InRxSlotAt s .full
  | .devTxdone _ => InTxSlotAt s .queued
  | .devRxfill _ _ _ => InRxSlotAt s .empty

/-- A command under its lifecycle test stores where its body does. -/
theorem memStep_runCommand {adm : Admission} {body : State → State} {s : State} {P : Nat → Prop}
    (h : adm = .executes → MemStep s.mem (body s.beginCommand).mem P) :
    MemStep s.mem (runCommand adm body s).mem P := by
  obtain ⟨-, e⟩ | ⟨f, -, e⟩ | ⟨he, e⟩ := runCommand_cases adm body s <;> rw [e]
  · exact .refl _ _
  · exact .refl _ _
  · exact h he

theorem exec_memStep {i : Instr} {s s' : State} (hp : s.cfg.admitted = true) (ha : s.Attached)
    (h : exec i s = .next s') : MemStep s.mem s'.mem (MayStore s i) := by
  obtain ⟨rfl, rfl⟩ | ⟨len, rfl, rfl⟩ | ⟨rfl, rfl⟩ | ⟨slot, rfl, rfl⟩ | ⟨slot, e, l, rfl, rfl⟩ := exec_cases h
  · exact memStep_runCommand fun he => absurd ha (not_attached_of_unattached ((admitAttach_executes s).mp he).1)
  · exact memStep_runCommand fun _ => memStep_transmitChecked (portIn len.toNat s.beginCommand) (portInBytes_length ..)
  · exact memStep_runCommand fun _ => memStep_receiveBody (s := s.beginCommand) hp
  · split
    · next hen => exact memStep_txDoneStep hen
    · exact .refl _ _
  · split
    · next hen => exact memStep_rxFillStep e hen
    · exact .refl _ _

/-- A step executes the instruction its entry spells (R65). -/
theorem step_exec {i : Instr} {s s' : State} (hf : fetch s = some (.ok i)) (h : step s = .next s') :
    exec i s.takeInput = .next s' := by
  unfold step at h
  rwa [hf] at h

/-- The slot states are those of the state before the entry was taken. -/
theorem mayStore_takeInput (s : State) (i : Instr) : MayStore s.takeInput i = MayStore s i := by
  have tx : ∀ x, InTxSlotAt s.takeInput x = InTxSlotAt s x := fun x => by
    funext a
    simp only [InTxSlotAt, State.txState, State.txStatus, takeInput_cfg, takeInput_mem]
  have rx : ∀ x, InRxSlotAt s.takeInput x = InRxSlotAt s x := fun x => by
    funext a
    simp only [InRxSlotAt, State.rxState, State.rxStatus, takeInput_cfg, takeInput_mem]
  cases i <;> simp only [MayStore, tx, rx]

/-- A TX slot an instruction stores in belongs to its agent (R126, R136). -/
theorem MayStore.txState {s : State} {i : Instr} {k a : Nat} (h : MayStore s i a) (hp : s.cfg.admitted = true)
    (hk : k < s.cfg.nTx) (ha : InTxSlot s.cfg k a) : s.txState k = some (if isCommand i then .free else .queued) := by
  cases i with
  | attach => exact h.elim
  | transmit => exact InTxSlotAt.txState h hp hk ha
  | receive => exact absurd ha (InRxSlotAt.not_inTxSlot h hp hk)
  | devTxdone => exact InTxSlotAt.txState h hp hk ha
  | devRxfill => exact absurd ha (InRxSlotAt.not_inTxSlot h hp hk)

/-- An RX slot an instruction stores in belongs to its agent (R127, R136). -/
theorem MayStore.rxState {s : State} {i : Instr} {k a : Nat} (h : MayStore s i a) (hp : s.cfg.admitted = true)
    (hk : k < s.cfg.nRx) (ha : InRxSlot s.cfg k a) : s.rxState k = some (if isCommand i then .full else .empty) := by
  cases i with
  | attach => exact h.elim
  | transmit => exact absurd ha (InTxSlotAt.not_inRxSlot h hp hk)
  | receive => exact InRxSlotAt.rxState h hp hk ha
  | devTxdone => exact absurd ha (InTxSlotAt.not_inRxSlot h hp hk)
  | devRxfill => exact InRxSlotAt.rxState h hp hk ha

/-- Settles O57: a step stores only in slots of the agent that makes it, so a slot in a state of the other agent's keeps
every byte. -/
theorem singleWriter : Obligations.SingleWriter := by
  rintro s s' i ⟨hp, -⟩ hatt hf h
  have stores := exec_memStep (by rwa [takeInput_cfg]) ((takeInput_attached s).mpr hatt) (step_exec hf h)
  rw [takeInput_mem, mayStore_takeInput] at stores
  refine ⟨fun hc => ⟨fun k a hk hx ha => stores.same a fun hs => ?_, fun k a hk hx ha => stores.same a fun hs => ?_⟩,
    fun hc => ⟨fun k a hk hx ha => stores.same a fun hs => ?_, fun k a hk hx ha => stores.same a fun hs => ?_⟩⟩
  · simp [hs.txState hp hk ha, hc] at hx
  · simp [hs.rxState hp hk ha, hc] at hx
  · simp [hs.txState hp hk ha, hc] at hx
  · simp [hs.rxState hp hk ha, hc] at hx

end Sys2Proof.Proofs

/-! SUPPORT. Every step keeps the invariants of spec/10_state.md on attached states: descriptors bound, rings and pools
written and lengths that fit (R35, R83, R177), tails in range (R38), tail registers equal to the cursors (R36), and under
ring order a device-owned slot at the RX tail (R37). -/

namespace Sys2Proof.Proofs

open Sys2Proof.Machine Sys2Proof.Laws

/-- A ring index of an admitted instance fits the 16 bits of a cursor (R7, R22). -/
theorem toNat_cursor {n i : Nat} (hi : i < n) (hn : n ≤ 4096) : (BitVec.ofNat 16 i).toNat = i := by
  rw [BitVec.toNat_ofNat]
  omega

/-! ### The invariant's share of attached states -/

/-- Memory after TRANSMIT has queued a packet in slot i whose `cmd` and `status` bytes were c and st (R150). -/
def queuedMem (p : Params) (m : List Host.Cell) (i : Nat) (len : Half) (payload : List Byte) (c st : Byte) :
    List Host.Cell :=
  cellWrite (cellWrite (transmitFields p m i len payload) (txDescAddr p i + offTxCmd) [setCmdEopRs c])
    (txDescAddr p i + offStatus) [clearDone st]

theorem memStep_queuedMem (p : Params) (m : List Host.Cell) (i : Nat) (len : Half) (payload : List Byte) (c st : Byte) :
    MemStep m (queuedMem p m i len payload c st) (TransmitStores p i payload.length) := by
  refine ((memStep_transmitFields p m i len payload).trans (memStep_write _ _ _ _ ?_)).trans
    (memStep_txStatus _ i _ |>.mono fun a e => .inr (.inr (.inr e)))
  intro b h1 h2
  simp only [List.length_singleton] at h2
  exact .inr (.inr (.inl (by omega)))

theorem readHalf_write (m : List Host.Cell) (a : Nat) (v : Half) : readHalf (cellWrite m a (halfBytes v)) a = some v := by
  have h0 := cellRead_write_self m a 0 (halfBytes v) (by simp)
  have h1 := cellRead_write_self m a 1 (halfBytes v) (by simp)
  simp only [readHalf, Nat.add_zero] at h0 ⊢
  rw [h0, h1]
  exact congrArg some (halfOfBytes_halfBytes v)

/-- The queued slot's `length` field is the packet's length. -/
theorem readHalf_queuedMem (p : Params) (m : List Host.Cell) (i : Nat) (len : Half) (payload : List Byte) (c st : Byte) :
    readHalf (queuedMem p m i len payload c st) (txDescAddr p i + offLength) = some len := by
  have hcmd := memStep_write (transmitFields p m i len payload) (txDescAddr p i + offTxCmd) [setCmdEopRs c]
    (fun a => txDescAddr p i + offTxCmd ≤ a) fun b h1 _ => h1
  rw [queuedMem,
    (memStep_txStatus _ i _).readHalf _ (by simp only [offLength, offStatus]; omega)
      (by simp only [offLength, offStatus]; omega),
    hcmd.readHalf _ (by simp only [offLength, offTxCmd]; omega) (by simp only [offLength, offTxCmd]; omega), transmitFields]
  exact readHalf_write _ _ len

/-- A queued packet that fits keeps the slots' share (R83). -/
theorem slotsOk_queuedMem {p : Params} {m : List Host.Cell} (hp : p.admitted = true) (ok : SlotsOk p m) {i : Nat}
    (hi : i < p.nTx) {len : Half} {payload : List Byte} (hl : len.toNat ≤ p.maxTx) (hpl : payload.length = len.toNat)
    (c st : Byte) : SlotsOk p (queuedMem p m i len payload c st) := by
  have hm := memStep_queuedMem p m i len payload c st
  have slot : ∀ {a}, TransmitStores p i payload.length a → InTxSlot p i a := transmitStores_slot (hpl ▸ hl)
  have tx : ∀ j k, j < p.nTx → k < 16 → j ≠ i → ¬ TransmitStores p i payload.length (txDescAddr p j + k) :=
    fun j k hj hk hne h => txSlot_txSlot hp hj hi hne (inTxSlot_desc j k hk) (slot h)
  have rx : ∀ j k, j < p.nRx → k < 16 → ¬ TransmitStores p i payload.length (rxDescAddr p j + k) :=
    fun j k hj hk h => txSlot_rxSlot hp hi hj (slot h) (inRxSlot_desc j k hk)
  refine ok.store hm (fun j k hj hk => ?_) (fun j k hj hk => rx j k hj (by omega)) (fun j n hj hn => ?_)
    (fun j n hj hn => ?_)
  · by_cases hji : j = i
    · have hb := txDesc_txBuf hp hi
      subst hji
      simp only [TransmitStores, InRange, offLength, offTxCmd, offStatus]
      omega
    · exact tx j k hj (by omega) hji
  · by_cases hji : j = i
    · rw [hji, readHalf_queuedMem] at hn
      exact Option.some.inj hn ▸ hl
    · rw [hm.readHalf (txDescAddr p j + offLength) (tx j 8 hj (by omega) hji) (tx j 9 hj (by omega) hji)] at hn
      exact ok.2.2.1 j n hj hn
  · rw [hm.readHalf (rxDescAddr p j + offLength) (rx j 8 hj (by omega)) (rx j 9 hj (by omega))] at hn
    exact ok.2.2.2 j n hj hn

/-- The bytes TRANSMIT reads in its tail slot hold values once the slots are in order. -/
theorem InOrder.tailBytes {s : State} (h : InOrder s) :
    ∃ c st, cellRead s.mem (txDescAddr s.cfg s.txTail.toNat + offTxCmd) = some c ∧ s.txStatus s.txTail.toNat = some st := by
  obtain ⟨⟨hn, -⟩, -, ⟨written, -⟩, -⟩ := h
  obtain ⟨c, hc⟩ := Option.isSome_iff_exists.mp (written _ _ hn (inTxSlot_desc _ offTxCmd (by decide)))
  obtain ⟨st, hs⟩ := Option.isSome_iff_exists.mp (written _ _ hn (inTxSlot_desc _ offStatus (by decide)))
  exact ⟨c, st, hc, hs⟩

/-- All TRANSMIT can do from slots in order: it refuses a long packet, refuses a full ring, or queues the packet. -/
theorem transmitChecked_of_inOrder {s : State} {len : Half} {payload : List Byte} (hp : s.cfg.admitted = true)
    (h : InOrder s) (hpl : payload.length = len.toNat) :
    (s.cfg.maxTx < len.toNat ∧ transmitChecked len payload s = s.ret .packetTooLarge 0#16) ∨
    (len.toNat ≤ s.cfg.maxTx ∧ s.txState s.txTail.toNat = some .queued ∧
      transmitChecked len payload s = s.ret .ringFull 0#16) ∨
    (len.toNat ≤ s.cfg.maxTx ∧ s.txState s.txTail.toNat = some .free ∧ ∃ c st,
      transmitChecked len payload s = (State.putReg
        { s with
          mem := queuedMem s.cfg s.mem s.txTail.toNat len payload c st
          txTail := nextCursor s.cfg.nTx s.txTail }
        regTDT ((nextCursor s.cfg.nTx s.txTail).setWidth 32)).ret .ok 0#16) := by
  obtain ⟨c, st, hc, hs⟩ := h.tailBytes
  obtain ⟨⟨hn, -⟩, -⟩ := h
  by_cases hl : len.toNat ≤ s.cfg.maxTx
  · right
    cases hd : isDone st with
    | false =>
      refine .inl ⟨hl, txState_of_status hs ((txStateOf_queued st).mpr hd), ?_⟩
      simp [transmitChecked, transmitSlot, Nat.not_lt.mpr hl, Nat.not_le.mpr hn, hs, hd]
    | true =>
      exact .inr ⟨hl, txState_of_status hs ((txStateOf_free st).mpr hd), c, st,
        transmitChecked_queued hp hl hpl rfl hn hc hs hd⟩
  · exact .inl ⟨Nat.lt_of_not_le hl, if_pos (Nat.lt_of_not_le hl)⟩

theorem transmitChecked_inOrder {s : State} {len : Half} {payload : List Byte} (hp : s.cfg.admitted = true)
    (h : InOrder s) (hpl : payload.length = len.toNat) : InOrder (transmitChecked len payload s) := by
  obtain ⟨-, e⟩ | ⟨-, -, e⟩ | ⟨hl, -, c, st, e⟩ := transmitChecked_of_inOrder hp h hpl <;> rw [e]
  · exact (sameView_ret _ _ _).inOrder h
  · exact (sameView_ret _ _ _).inOrder h
  · obtain ⟨nTx8, nTxLe, -⟩ := admitted_ranges hp
    obtain ⟨⟨hn, hrx⟩, ok⟩ := h
    have next : nextIdx s.cfg.nTx s.txTail.toNat < s.cfg.nTx := Nat.mod_lt _ (by omega)
    exact ⟨⟨(toNat_cursor next nTxLe).symm ▸ next, hrx⟩, slotsOk_queuedMem hp ok hn hl hpl c st⟩

theorem receiveBody_inOrder {s : State} (hp : s.cfg.admitted = true) (h : InOrder s) : InOrder (receiveBody s) := by
  have hend := receiveBody_end s
  generalize receiveBody s = r at hend
  cases hend with
  | empty => exact (sameView_ret _ _ _).inOrder h
  | frag => exact ((sameView_setLife _ _).trans (sameView_ret _ _ _)).inOrder h
  | fault => exact (sameView_raise _ _).inOrder h
  | lost _ _ _ _ _ _ _ _ hr => exact absurd (tailRegs_lt_regCount hp).2 (Nat.not_lt.mpr hr)
  | taken _ c st _ _ _ _ hc =>
    obtain ⟨-, -, -, nRxLe, -⟩ := admitted_ranges hp
    obtain ⟨⟨htx, -⟩, ok⟩ := h
    exact ⟨⟨htx, (toNat_cursor hc nRxLe).symm ▸ hc⟩,
      ok.status hp (memStep_rxStatus s.mem c _) fun a e => .inr ⟨c, hc, e⟩⟩

theorem txDoneStep_inOrder {slot : Half} {s : State} (hp : s.cfg.admitted = true) (h : InOrder s)
    (hen : txDoneEnabled slot s = true) : InOrder (txDoneStep slot s) := by
  obtain ⟨-, hn, -⟩ := (txDoneEnabled_iff slot s).mp hen
  obtain ⟨frame, n, e, -⟩ := txDoneStep_cases slot s
  rw [e]
  exact ⟨h.1, h.2.status hp (memStep_txStatus s.mem slot.toNat _) fun a e => .inl ⟨_, hn, e⟩⟩

theorem rxFillStep_inOrder {slot l : Half} (e : Bool) {s : State} (hp : s.cfg.admitted = true) (h : InOrder s)
    (hen : rxFillEnabled slot l s = true) : InOrder (rxFillStep slot e l s) := by
  obtain ⟨-, hn, -, hl, -⟩ := (rxFillEnabled_iff slot l s).mp hen
  refine ⟨by simpa [State.TailsInRange] using h.1, ?_⟩
  rw [rxFillStep_cfg, rxFillStep_mem]
  exact slotsOk_rxFill hp h.2 slot.toNat e l s.devData s.draws hn hl

/-- What ATTACH completes is in order (R191, R192). -/
theorem attached_inOrder {s : State} (hp : s.cfg.admitted = true) (ws : List (Nat × Word)) :
    InOrder (putRegAll ws (attachRings s)) := by
  obtain ⟨⟨hcfg, -, htx, hrx, -, hmem, -⟩, -⟩ := putRegAll_same ws (attachRings s)
  obtain ⟨nTx8, -, nRx8, nRxLe, -⟩ := admitted_ranges hp
  rw [InOrder, State.TailsInRange, hcfg, htx, hrx, hmem]
  refine ⟨⟨show 0 < s.cfg.nTx by omega, ?_⟩, slotsOk_initMem hp s.mem⟩
  rw [attachRings_rxTail, toNat_cursor (n := s.cfg.nRx) (by omega) nRxLe, attachRings_cfg]
  omega

theorem inOrder_kept {s : State} (hp : s.cfg.admitted = true) (h : s.Attached → InOrder s) :
    KeptOnceAttached s InOrder where
  view := SameView.inOrder
  attach _ v := attached_inOrder (v.cfg ▸ hp) _
  transmit ha _ _ _ v hpl := transmitChecked_inOrder (v.cfg ▸ hp) (v.inOrder (h ha)) hpl
  receive ha _ v := receiveBody_inOrder (v.cfg ▸ hp) (v.inOrder (h ha))
  txDone ha _ _ v hen := txDoneStep_inOrder (v.cfg ▸ hp) (v.inOrder (h ha)) hen
  rxFill ha _ _ e _ v hen := rxFillStep_inOrder e (v.cfg ▸ hp) (v.inOrder (h ha)) hen

/-- Settles O15: the canonical forms are kept from any state, and the rest from states in order, meaning by meaning. -/
theorem stepKeepsInv : Obligations.StepKeepsInv := by
  intro s s' hinv h
  obtain ⟨hp, hmem, hshadow, hord⟩ := (inv_iff_slotsOk s).mp hinv
  have form := step_keepsForm h
  exact (inv_iff_slotsOk s').mpr ⟨form.cfg ▸ hp, form.mem hmem, form.regShadow hshadow,
    step_keeps (inOrder_kept hp hord) hord h⟩

end Sys2Proof.Proofs

/-! SUPPORT. Every step keeps R36 (the tail registers hold the cursors) and, under ring order, R37 (a device-owned slot at
the RX tail), where the platform's extra writes leave the tail registers alone (log 22). -/

namespace Sys2Proof.Proofs

open Sys2Proof.Machine Sys2Proof.Laws

/-! ### R36: the tail registers -/

/-- ATTACH's last write to each tail register is its ring write (R191; log 22). -/
theorem attachWrites_tails {p : Params} (hx : ExtraSparesTails p) (s : State) :
    (putRegAll (attachWrites p) s).shadow regTDT = some 0#32 ∧
    (putRegAll (attachWrites p) s).shadow regRDT = some (BitVec.ofNat 32 (p.nRx - 1)) := by
  have toTDT : attachWrites p = (ringWrites p).take 4 ++ (regTDT, 0#32) ::
      ((ringWrites p).drop 5 ++ (p.extra ++ [(regRCTL, p.rctlVal)])) := by simp [attachWrites, ringWrites]
  have toRDT : attachWrites p = (ringWrites p).take 11 ++ (regRDT, BitVec.ofNat 32 (p.nRx - 1)) ::
      (p.extra ++ [(regRCTL, p.rctlVal)]) := by simp [attachWrites, ringWrites]
  have spared : ∀ w ∈ p.extra ++ [(regRCTL, p.rctlVal)], w.1 ≠ regTDT ∧ w.1 ≠ regRDT := by
    intro w hw
    obtain hw | hw := List.mem_append.mp hw
    · exact hx w hw
    · obtain rfl := List.mem_singleton.mp hw
      exact ⟨by simp [regRCTL, regTDT], by simp [regRCTL, regRDT]⟩
  have own : ∀ w ∈ (ringWrites p).drop 5, w.1 ≠ regTDT := by
    simp [ringWrites, regTDT, regTCTL, regTIPG, regRDBAL, regRDBAH, regRDLEN, regRDH, regRDT]
  constructor
  · rw [toTDT]
    refine putRegAll_shadow_last _ _ _ _ _ fun w hw => ?_
    obtain hw | hw := List.mem_append.mp hw
    · exact own w hw
    · exact (spared w hw).1
  · rw [toRDT]
    exact putRegAll_shadow_last _ _ _ _ _ fun w hw => (spared w hw).2

theorem attached_tailsMirrored {s : State} (hp : s.cfg.admitted = true) (hx : ExtraSparesTails s.cfg) :
    (putRegAll (attachWrites s.cfg) (attachRings s)).TailsMirrored := by
  obtain ⟨⟨-, -, htx, hrx, -⟩, -⟩ := putRegAll_same (attachWrites s.cfg) (attachRings s)
  obtain ⟨htdt, hrdt⟩ := attachWrites_tails hx (attachRings s)
  obtain ⟨-, -, nRx8, nRxLe, -⟩ := admitted_ranges hp
  refine ⟨by rw [htdt, htx]; rfl, ?_⟩
  rw [hrdt, hrx, attachRings_rxTail]
  congr 1
  apply BitVec.eq_of_toNat_eq
  rw [BitVec.toNat_setWidth, toNat_cursor (n := s.cfg.nRx) (by omega) nRxLe, BitVec.toNat_ofNat]

/-- A tail moved together with its doorbell keeps the mirror (R150, R170). -/
theorem tailsMirrored_putTDT {s : State} (h : s.TailsMirrored) (m : List Host.Cell) (u : Half) :
    (State.putReg { s with mem := m, txTail := u } regTDT (u.setWidth 32)).TailsMirrored :=
  ⟨putReg_shadow_same _ _ _, (putReg_shadow_other _ _ _ _ (by decide)).trans h.2⟩

theorem tailsMirrored_putRDT {s : State} (h : s.TailsMirrored) (m : List Host.Cell) (u : Half) (out : List Byte) :
    (State.putReg { s with mem := m, rxTail := u, dataOut := out } regRDT (u.setWidth 32)).TailsMirrored :=
  ⟨(putReg_shadow_other _ _ _ _ (by decide)).trans h.1, putReg_shadow_same _ _ _⟩

theorem transmitChecked_tailsMirrored {s : State} (hp : s.cfg.admitted = true) (h : s.TailsMirrored) (len : Half)
    (payload : List Byte) : (transmitChecked len payload s).TailsMirrored := by
  have hend := transmitChecked_end len payload s
  generalize transmitChecked len payload s = r at hend
  cases hend with
  | tooLarge => exact h
  | full => exact h
  | fault => exact h
  | queued _ _ m u _ _ _ _ _ _ _ s' hr => exact regWrite_ok hr ▸ tailsMirrored_putTDT h m u
  | lost _ _ _ _ _ _ _ _ _ _ hr => exact absurd (tailRegs_lt_regCount hp).1 (Nat.not_lt.mpr hr)

theorem receiveBody_tailsMirrored {s : State} (hp : s.cfg.admitted = true) (h : s.TailsMirrored) :
    (receiveBody s).TailsMirrored := by
  have hend := receiveBody_end s
  generalize receiveBody s = r at hend
  cases hend with
  | empty => exact h
  | frag => exact h
  | fault => exact h
  | lost _ _ _ _ _ _ _ _ hr => exact absurd (tailRegs_lt_regCount hp).2 (Nat.not_lt.mpr hr)
  | taken => exact tailsMirrored_putRDT h _ _ _

theorem tailsMirrored_kept {s : State} (hp : s.cfg.admitted = true) (hx : ExtraSparesTails s.cfg)
    (h : s.Attached → s.TailsMirrored) : KeptOnceAttached s State.TailsMirrored where
  view := SameView.tailsMirrored
  attach _ v := attached_tailsMirrored (v.cfg ▸ hp) (v.cfg ▸ hx)
  transmit ha _ len payload v _ := transmitChecked_tailsMirrored (v.cfg ▸ hp) (v.tailsMirrored (h ha)) len payload
  receive ha _ v := receiveBody_tailsMirrored (v.cfg ▸ hp) (v.tailsMirrored (h ha))
  txDone ha t slot v _ := by
    obtain ⟨frame, n, e, -⟩ := txDoneStep_cases slot t
    exact e ▸ tailsMirrored_congr rfl rfl rfl (v.tailsMirrored (h ha))
  rxFill ha _ _ _ _ v _ :=
    tailsMirrored_congr (rxFillStep_regShadow ..) (rxFillStep_txTail ..) (rxFillStep_rxTail ..) (v.tailsMirrored (h ha))

/-- Settles O17: ATTACH writes both tail registers last with the cursors' values, and later a tail moves only with its
doorbell. -/
theorem stepKeepsTailMirror : Obligations.StepKeepsTailMirror :=
  fun _ _ hp hx h hstep => step_keeps (tailsMirrored_kept hp hx h) h hstep

/-! ### R37: the slot at the RX tail -/

/-- Stores that spare the status byte of the RX tail's slot, where the tail stays. -/
theorem rxTailDeviceOwned_of_memStep {s s' : State} {P : Nat → Prop} (h : s.RxTailDeviceOwned) (hc : s'.cfg = s.cfg)
    (hr : s'.rxTail = s.rxTail) (hm : MemStep s.mem s'.mem P)
    (hP : ¬ P (rxDescAddr s.cfg s.rxTail.toNat + offStatus)) : s'.RxTailDeviceOwned := by
  obtain ⟨st, hs, hd⟩ := h
  exact ⟨st, by rw [State.rxStatus, hc, hr, hm.same _ hP]; exact hs, hd⟩

/-- ATTACH leaves the last slot at the RX tail, not done (R191, R192). -/
theorem attached_rxTailDeviceOwned {s : State} (hp : s.cfg.admitted = true) (ws : List (Nat × Word)) :
    (putRegAll ws (attachRings s)).RxTailDeviceOwned := by
  obtain ⟨⟨hcfg, -, -, hrx, -, hmem, -⟩, -⟩ := putRegAll_same ws (attachRings s)
  obtain ⟨-, -, nRx8, nRxLe, -⟩ := admitted_ranges hp
  refine ⟨0x00#8, ?_, by decide⟩
  rw [State.rxStatus, hcfg, hrx, hmem, attachRings_rxTail, toNat_cursor (n := s.cfg.nRx) (by omega) nRxLe]
  exact (initMem_status hp s.mem).2 _ (by omega)

theorem transmitChecked_rxTail (len : Half) (payload : List Byte) (s : State) :
    (transmitChecked len payload s).cfg = s.cfg ∧ (transmitChecked len payload s).rxTail = s.rxTail := by
  have hend := transmitChecked_end len payload s
  generalize transmitChecked len payload s = r at hend
  cases hend with
  | queued _ _ _ _ _ _ _ _ _ _ _ s' hr => rw [regWrite_ok hr]; exact ⟨rfl, rfl⟩
  | _ => exact ⟨rfl, rfl⟩

/-- RECEIVE moves the tail only to the slot it has just recycled (R170). -/
theorem receiveBody_rxTailDeviceOwned {s : State} (hp : s.cfg.admitted = true) (h : s.RxTailDeviceOwned) :
    (receiveBody s).RxTailDeviceOwned := by
  have hend := receiveBody_end s
  generalize receiveBody s = r at hend
  cases hend with
  | empty => exact h
  | frag => exact h
  | fault => exact h
  | lost _ _ _ _ _ _ _ _ hr => exact absurd (tailRegs_lt_regCount hp).2 (Nat.not_lt.mpr hr)
  | taken _ c st _ _ _ _ hc =>
    obtain ⟨-, -, -, nRxLe, -⟩ := admitted_ranges hp
    refine ⟨clearDoneEop st, ?_, isDone_clearDoneEop st⟩
    show cellRead (cellWrite s.mem _ _) (rxDescAddr s.cfg (BitVec.ofNat 16 c).toNat + offStatus) = _
    rw [toNat_cursor hc nRxLe]
    exact cellRead_write_one _ _ _

/-- The guard of DEV_RXFILL under ring spares the slot that the tail register names (R216). -/
theorem rxFillEnabled_ne_rxTail {slot l : Half} {s : State} (ho : s.cfg.order = .ring) (hm : s.TailsMirrored)
    (hen : rxFillEnabled slot l s = true) : s.rxTail ≠ slot := by
  obtain ⟨-, -, -, -, order⟩ := (rxFillEnabled_iff slot l s).mp hen
  rintro rfl
  simp [orderAllows, ho, hm.2] at order

theorem rxFillStep_rxTailDeviceOwned {slot l : Half} (e : Bool) {s : State} (hp : s.cfg.admitted = true)
    (hr : s.rxTail.toNat < s.cfg.nRx) (ho : s.cfg.order = .ring) (hm : s.TailsMirrored) (h : s.RxTailDeviceOwned)
    (hen : rxFillEnabled slot l s = true) : (rxFillStep slot e l s).RxTailDeviceOwned := by
  obtain ⟨-, hn, -, hl, -⟩ := (rxFillEnabled_iff slot l s).mp hen
  have ne : s.rxTail.toNat ≠ slot.toNat := fun e => rxFillEnabled_ne_rxTail ho hm hen (BitVec.eq_of_toNat_eq e)
  have stores := memStep_rxFillMem s.cfg s.mem slot.toNat e l s.devData s.draws hl
  rw [← rxFillStep_mem] at stores
  exact rxTailDeviceOwned_of_memStep h (rxFillStep_cfg ..) (rxFillStep_rxTail ..) stores fun ha =>
    rxSlot_rxSlot hp hr hn ne (inRxSlot_desc _ offStatus (by decide)) (rxFillStores_slot ha)

/-- Stores in TX slots spare every RX descriptor (R52). -/
theorem rxTailDeviceOwned_of_txStores {s s' : State} {x : TxState} (hp : s.cfg.admitted = true)
    (hr : s.rxTail.toNat < s.cfg.nRx) (h : s.RxTailDeviceOwned) (hc : s'.cfg = s.cfg) (ht : s'.rxTail = s.rxTail)
    (hm : MemStep s.mem s'.mem (InTxSlotAt s x)) : s'.RxTailDeviceOwned :=
  rxTailDeviceOwned_of_memStep h hc ht hm fun hs => hs.not_inRxSlot hp hr (inRxSlot_desc _ offStatus (by decide))

theorem rxTailDeviceOwned_kept {s : State} (hp : s.cfg.admitted = true) (ho : s.cfg.order = .ring)
    (hr : s.Attached → s.rxTail.toNat < s.cfg.nRx) (h : s.Attached → s.TailsMirrored ∧ s.RxTailDeviceOwned) :
    KeptOnceAttached s State.RxTailDeviceOwned := by
  have inRange : ∀ {t}, SameView s t → s.Attached → t.rxTail.toNat < t.cfg.nRx := fun v ha => by
    rw [v.rxTail, v.cfg]
    exact hr ha
  have owned : ∀ {t}, SameView s t → s.Attached → t.RxTailDeviceOwned := fun v ha => v.rxTailDeviceOwned (h ha).2
  exact {
    view := SameView.rxTailDeviceOwned
    attach := fun _ v => attached_rxTailDeviceOwned (v.cfg ▸ hp) _
    transmit := fun ha t len payload v hpl => by
      obtain ⟨hc, ht⟩ := transmitChecked_rxTail len payload t
      exact rxTailDeviceOwned_of_txStores (v.cfg ▸ hp) (inRange v ha) (owned v ha) hc ht (memStep_transmitChecked t hpl)
    receive := fun ha _ v => receiveBody_rxTailDeviceOwned (v.cfg ▸ hp) (owned v ha)
    txDone := fun ha t slot v hen => by
      have stores := memStep_txDoneStep hen
      obtain ⟨frame, n, e, -⟩ := txDoneStep_cases slot t
      rw [e] at stores ⊢
      exact rxTailDeviceOwned_of_txStores (v.cfg ▸ hp) (inRange v ha) (owned v ha) rfl rfl stores
    rxFill := fun ha _ _ e _ v hen => rxFillStep_rxTailDeviceOwned e (v.cfg ▸ hp) (inRange v ha) (v.cfg ▸ ho)
      (v.tailsMirrored (h ha).1) (owned v ha) hen }

/-- Settles O18: a device-owned RX tail loses its slot only to a DEV_RXFILL at the tail, which the ring guard excludes, and
RECEIVE moves the tail to the slot it recycles. -/
theorem stepKeepsRxTailDeviceOwned : Obligations.StepKeepsRxTailDeviceOwned := by
  rintro s s' ⟨hp, -, -, hord⟩ - ho h hstep
  exact step_keeps (rxTailDeviceOwned_kept hp ho (fun ha => (hord ha).1.2) h) (fun ha => (h ha).2) hstep

end Sys2Proof.Proofs

/-! SUPPORT. The command counter (spec/10_state.md R33): the lifecycle test counts a command that takes a step, and no
meaning touches the counter after it. -/

namespace Sys2Proof.Proofs

open Sys2Proof.Machine Sys2Proof.Laws

/-- The instruction is an engine command that takes a step (R33, R236, R238). -/
def TakesCommandStep (s : State) (i : Instr) : Prop :=
  isCommand i = true ∧ s.fault = none ∧ (s.life = .unattached ∨ s.life = .ready)

/-- From s to s' the counter advances where C holds and stays where it does not. -/
def CountsIff (C : Prop) (s s' : State) : Prop :=
  (C → s'.cmdCount = s.cmdCount + 1) ∧ (¬ C → s'.cmdCount = s.cmdCount)

theorem putRegAll_cmdCount (ws : List (Nat × Word)) (s : State) : (putRegAll ws s).cmdCount = s.cmdCount := by
  obtain ⟨⟨-, -, -, -, -, -, -, -, count, -⟩, -⟩ := putRegAll_same ws s
  exact count

theorem attachDraw_cmdCount (s : State) : (attachDraw s).cmdCount = s.cmdCount := by
  have hend := attachBody_end (Config.freeStatus s.draws) (s.drew 1)
  unfold attachDraw
  generalize attachBody (Config.freeStatus s.draws) (s.drew 1) = r at hend
  cases hend with
  | blind => rfl
  | failed => rfl
  | stopped => exact putRegAll_cmdCount _ _
  | attached => exact putRegAll_cmdCount _ _

theorem transmitBody_cmdCount (len : Half) (s : State) : (transmitBody len s).cmdCount = s.cmdCount := by
  have hend := transmitChecked_end len (portInBytes len.toNat s) (portIn len.toNat s)
  unfold transmitBody
  generalize transmitChecked len (portInBytes len.toNat s) (portIn len.toNat s) = r at hend
  cases hend with
  | queued _ _ _ _ _ _ _ _ _ _ _ s' hr => rw [regWrite_ok hr]; rfl
  | _ => rfl

theorem receiveBody_cmdCount (s : State) : (receiveBody s).cmdCount = s.cmdCount := by
  have hend := receiveBody_end s
  generalize receiveBody s = r at hend
  cases hend <;> rfl

/-- No step is what the lifecycle test says of a command exactly where R33 counts none. -/
theorem admitRing_noStep_iff (s : State) :
    admitRing s = .noStep ↔ ¬ (s.fault = none ∧ (s.life = .unattached ∨ s.life = .ready)) := by
  rw [admitRing_noStep]
  cases s.life <;> simp

theorem admitAttach_noStep_iff (s : State) :
    admitAttach s = .noStep ↔ ¬ (s.fault = none ∧ (s.life = .unattached ∨ s.life = .ready)) := by
  rw [admitAttach_noStep]
  cases s.life <;> simp

/-- A command is counted unless it takes no step. -/
theorem runCommand_counts {adm : Admission} {body : State → State} {s : State} {C : Prop} (hadm : adm = .noStep ↔ ¬ C)
    (hbody : ∀ t, (body t).cmdCount = t.cmdCount) : CountsIff C s (runCommand adm body s) := by
  obtain ⟨he, e⟩ | ⟨f, he, e⟩ | ⟨he, e⟩ := runCommand_cases adm body s <;> rw [e]
  · exact ⟨fun hc => absurd hc (hadm.mp he), fun _ => rfl⟩
  · exact ⟨fun _ => rfl, fun hc => absurd (hadm.mpr hc) (he ▸ nofun)⟩
  · exact ⟨fun _ => hbody _, fun hc => absurd (hadm.mpr hc) (he ▸ nofun)⟩

theorem exec_counts {i : Instr} {s s' : State} (h : exec i s = .next s') : CountsIff (TakesCommandStep s i) s s' := by
  have command : ∀ {j}, isCommand j = true →
      (TakesCommandStep s j ↔ s.fault = none ∧ (s.life = .unattached ∨ s.life = .ready)) := fun hj => by
    simp [TakesCommandStep, hj]
  obtain ⟨rfl, rfl⟩ | ⟨len, rfl, rfl⟩ | ⟨rfl, rfl⟩ | ⟨slot, rfl, rfl⟩ | ⟨slot, e, l, rfl, rfl⟩ := exec_cases h
  · exact runCommand_counts (by rw [command rfl, admitAttach_noStep_iff]) attachDraw_cmdCount
  · exact runCommand_counts (by rw [command rfl, admitRing_noStep_iff]) (transmitBody_cmdCount len)
  · exact runCommand_counts (by rw [command rfl, admitRing_noStep_iff]) receiveBody_cmdCount
  · refine ⟨fun ⟨hc, _⟩ => absurd hc (by simp [isCommand]), fun _ => ?_⟩
    obtain ⟨frame, n, e, -⟩ := txDoneStep_cases slot s
    split
    · rw [e]; rfl
    · rfl
  · refine ⟨fun ⟨hc, _⟩ => absurd hc (by simp [isCommand]), fun _ => ?_⟩
    split
    · exact rxFillStep_cmdCount ..
    · rfl

/-- Settles O23: the lifecycle test alone counts, and it counts every command but those that take no step. -/
theorem commandCount : Obligations.CommandCount := by
  intro s s' h
  obtain ⟨he, rfl⟩ | ⟨r, hf, rfl⟩ | ⟨i, hf, -, hi⟩ := step_cases h
  · have none : fetch s' = none := by simp [fetch, he]
    exact ⟨fun ⟨i, hf, _⟩ => (nomatch none.symm.trans hf), fun _ => rfl⟩
  · exact ⟨fun ⟨i, hf', _⟩ => (nomatch hf.symm.trans hf'), fun _ => takeInput_cmdCount s⟩
  · have counts := exec_counts hi
    simp only [CountsIff, TakesCommandStep, takeInput_fault, takeInput_life, takeInput_cmdCount] at counts
    refine ⟨fun ⟨j, hj, hc⟩ => ?_, fun hn => counts.2 fun hc => hn ⟨i, hf, hc⟩⟩
    obtain rfl : i = j := by simpa using hf.symm.trans hj
    exact counts.1 hc

end Sys2Proof.Proofs

/-! SUPPORT. Under DEVICE_ORDER = free nothing keeps the RX tail's slot device-owned (spec/10_state.md R37,
spec/44_device_agent.md R219): the device may fill the slot at the tail. -/

namespace Sys2Proof.Proofs

open Sys2Proof.Machine Sys2Proof.Laws

/-- What ATTACH makes of s once it has its STATUS word: rings, pools, cursors and registers, and READY (R191). -/
def attachedFrom (s : State) : State := (putRegAll (attachWrites s.cfg) (attachRings s)).setLife .ready

theorem sameView_attachedFrom (s : State) : SameView (putRegAll (attachWrites s.cfg) (attachRings s)) (attachedFrom s) :=
  sameView_setLife _ _

theorem attachedFrom_inv {s : State} (hp : s.cfg.admitted = true) (hm : Memory.wf s.mem) (hr : Shadow.wf s.regShadow) :
    (attachedFrom s).Inv := by
  have form : KeepsForm s (putRegAll (attachWrites s.cfg) (attachRings s)) :=
    (attachRings_keepsForm s).trans (putRegAll_keepsForm _ _)
  exact (inv_iff_slotsOk _).mpr ⟨form.cfg ▸ hp, form.mem hm, form.regShadow hr,
    fun _ => (sameView_attachedFrom s).inOrder (attached_inOrder hp _)⟩

theorem attachedFrom_fields (s : State) :
    (attachedFrom s).cfg = s.cfg ∧ (attachedFrom s).rxTail = BitVec.ofNat 16 (s.cfg.nRx - 1) ∧
      (attachedFrom s).inputs = s.inputs ∧ (s.fault = none → s.refused = none → (attachedFrom s).Good) := by
  obtain ⟨⟨cfg, -, -, rxTail, -, -, -, refused, -, -, -, inputs, -⟩, fault⟩ :=
    putRegAll_same (attachWrites s.cfg) (attachRings s)
  exact ⟨cfg, rxTail, inputs, fun hf hr => ⟨rfl, fault.trans hf, refused.trans hr⟩⟩

/-- A DEV_RXFILL at the RX tail leaves the tail's slot with the engine (R214). -/
theorem rxFillStep_at_rxTail {s : State} {l : Half} (e : Bool) (hp : s.cfg.admitted = true)
    (hen : rxFillEnabled s.rxTail l s = true) : ¬ (rxFillStep s.rxTail e l s).RxTailDeviceOwned := by
  obtain ⟨-, hn, -, hl, -⟩ := (rxFillEnabled_iff s.rxTail l s).mp hen
  obtain ⟨status, -⟩ := rxFillMem_reads hp s.mem s.rxTail.toNat e l s.devData s.draws hn hl
  rintro ⟨st, hs, hd⟩
  rw [State.rxStatus, rxFillStep_cfg, rxFillStep_rxTail, rxFillStep_mem, status] at hs
  obtain rfl := Option.some.inj hs
  simp [isDone_rxFillStatus] at hd

/-- The event that fills the last RX slot of the reference instance with a frame of one byte. -/
def fillLastSlot : Input := .event [0x003F0019#32, 0x00000001#32] [0x55#8]

/-- The reference instance at reset, with that event presented. -/
def resetThenFill : State := { State.reset with inputs := [fillLastSlot] }

theorem resetThenFill_admitted : resetThenFill.cfg.admitted = true := by decide +kernel

/-- Settles O19: the reference instance, attached, and a DEV_RXFILL at the slot its RX tail names. -/
theorem rxTailNotHeldUnderFree : Obligations.RxTailNotHeldUnderFree := by
  have hp := resetThenFill_admitted
  obtain ⟨cfg, rxTail, inputs, good⟩ := attachedFrom_fields resetThenFill
  replace good := good rfl rfl
  have inv := attachedFrom_inv hp .nil .nil
  have mirrored := (sameView_attachedFrom resetThenFill).tailsMirrored (attached_tailsMirrored hp nofun)
  have owned := (sameView_attachedFrom resetThenFill).rxTailDeviceOwned (attached_rxTailDeviceOwned hp _)
  generalize attachedFrom resetThenFill = s at cfg rxTail inputs good inv mirrored owned
  have fetched : fetch s = some (.ok (.devRxfill s.rxTail true 1#16)) := by
    rw [fetch, inputs, cfg, rxTail]
    rfl
  have enabled : rxFillEnabled s.takeInput.rxTail 1#16 s.takeInput = true := by
    obtain ⟨st, hs, hd⟩ := owned
    refine (rxFillEnabled_iff _ _ _).mpr ⟨.inl ((takeInput_life s).trans good.1), ?_, ⟨st, ?_, hd⟩, ?_, ?_⟩
    · rw [takeInput_rxTail, takeInput_cfg, rxTail, cfg]; decide
    · rwa [takeInput_rxTail, (sameView_takeInput s).rxStatus]
    · rw [takeInput_cfg, cfg]; decide
    · rw [takeInput_cfg, cfg]; rfl
  refine ⟨s, rxFillStep s.takeInput.rxTail true 1#16 s.takeInput, inv, good, cfg ▸ rfl, mirrored, owned, ?_, ?_,
    rxFillStep_at_rxTail true (by rw [takeInput_cfg, cfg]; exact hp) enabled⟩
  · rw [takeInput_rxTail] at enabled ⊢
    simp only [step, fetched, exec, execDevRxfill, enabled, if_true]
  · simpa [State.Good] using good

end Sys2Proof.Proofs

/-! SUPPORT. A step on an entry the decoder admits is that entry's instruction, executed (spec/20_memory.md R65). -/

namespace Sys2Proof.Proofs

open Sys2Proof.Machine Sys2Proof.Laws

theorem admitInput_of_wf {p : Params} {inp : Input} {i : Instr} (hd : decodeInput inp = .ok i) (hw : i.wf p = true) :
    admitInput p inp = .ok i := by
  simp [admitInput, hd, hw]

theorem fetch_cons {s : State} {inp : Input} {rest : List Input} (h : s.inputs = inp :: rest) :
    fetch s = some (admitInput s.cfg inp) := by
  simp [fetch, h]

theorem step_of_fetch_ok {s : State} {i : Instr} (hf : fetch s = some (.ok i)) : step s = exec i s.takeInput := by
  simp [step, hf]

/-- Settles O10: the next entry is fetched as its instruction, and taking it off moves only the schedule and the latch. -/
theorem stepRunsDecoded : Obligations.StepRunsDecoded := by
  intro s inp rest i hs hd hw
  have fetched : fetch s = some (.ok i) := by rw [fetch_cons hs, admitInput_of_wf hd hw]
  rw [step_of_fetch_ok fetched, takeInput_cons s inp rest hs]

end Sys2Proof.Proofs

/-! SUPPORT. The decoder and the encoder are each other's inverses (spec/30_encoding.md R103–R105): which words spell which
instruction, said once as an equivalence, and read both ways. -/

namespace Sys2Proof.Proofs

open Sys2Proof.Machine Sys2Proof.Laws

/-- Which command words spell which command (R103). -/
theorem decodeCommand_eq_ok_iff (w : Word) (i : Instr) :
    decodeCommand w = .ok i ↔ commandReserved w = 0#12 ∧
      ((fieldOp w = 0x1#4 ∧ fieldHigh w = 0#16 ∧ i = .attach) ∨ (fieldOp w = 0x2#4 ∧ i = .transmit (fieldHigh w)) ∨
        (fieldOp w = 0x3#4 ∧ fieldHigh w = 0#16 ∧ i = .receive)) := by
  unfold decodeCommand
  by_cases hr : commandReserved w = 0#12
  · by_cases h1 : fieldOp w = 0x1#4
    · by_cases hh : fieldHigh w = 0#16 <;> simp [hr, h1, hh, eq_comm]
    by_cases h2 : fieldOp w = 0x2#4
    · simp [hr, h2, eq_comm]
    by_cases h3 : fieldOp w = 0x3#4
    · by_cases hh : fieldHigh w = 0#16 <;> simp [hr, h3, hh, eq_comm]
    · simp [hr, h1, h2, h3]
  · simp [hr]

/-- Which single event words spell DEV_TXDONE (R104). -/
theorem decodeEvent_one_eq_ok_iff (w : Word) (i : Instr) :
    decodeEvent [w] = .ok i ↔ fieldOp w = 0x8#4 ∧ fieldE w = false ∧ eventReserved w = 0#11 ∧
      i = .devTxdone (fieldHigh w) := by
  simp only [decodeEvent]
  split
  · next h => simp [h, eq_comm]
  · next h => exact ⟨nofun, fun ⟨ho, he, hr, _⟩ => absurd ⟨ho, he, hr⟩ h⟩

/-- Which pairs of event words spell DEV_RXFILL (R104). -/
theorem decodeEvent_two_eq_ok_iff (w w2 : Word) (i : Instr) :
    decodeEvent [w, w2] = .ok i ↔ fieldOp w = 0x9#4 ∧ eventReserved w = 0#11 ∧ fieldHigh w2 = 0#16 ∧
      i = .devRxfill (fieldHigh w) (fieldE w) (fieldLow w2) := by
  simp only [decodeEvent]
  split
  · next h => simp [h, eq_comm]
  · next h => exact ⟨nofun, fun ⟨ho, hr, hh, _⟩ => absurd ⟨ho, hr, hh⟩ h⟩

/-- A word with nothing in its reserved bits is its LEN and OP (R103). -/
theorem command_word {w : Word} {op : BitVec 4} (hr : commandReserved w = 0#12) (ho : fieldOp w = op) :
    w = fieldHigh w ++ (0#12 ++ op : Half) := by
  rw [← ho, ← hr, ← command_low, high_low]

/-- A word with nothing in its reserved bits is its SLOT, E and EV (R104). -/
theorem event_word {w : Word} {ev : BitVec 4} (hr : eventReserved w = 0#11) (ho : fieldOp w = ev) :
    w = fieldHigh w ++ (0#11 ++ (BitVec.ofBool (fieldE w) ++ ev) : Half) := by
  rw [← ho, ← hr, ← event_low, high_low]

/-- Settles O2: the fields of each encoded word, put into what the decoder asks of them. -/
theorem decodeOfEncode : Obligations.DecodeOfEncode := by
  intro i data
  cases i with
  | attach => rfl
  | transmit len =>
    refine (decodeCommand_eq_ok_iff _ _).mpr ⟨?_, .inr (.inl ⟨?_, ?_⟩)⟩
    · rw [commandReserved_append]; rfl
    · rw [fieldOp_append]; rfl
    · rw [fieldHigh_append]
  | receive => rfl
  | devTxdone slot =>
    refine (decodeEvent_one_eq_ok_iff _ _).mpr ⟨?_, ?_, ?_, ?_⟩
    · rw [fieldOp_append]; rfl
    · rw [fieldE_append]; rfl
    · rw [eventReserved_append]; rfl
    · rw [fieldHigh_append]
  | devRxfill slot e l =>
    refine (decodeEvent_two_eq_ok_iff _ _ _).mpr ⟨?_, ?_, ?_, ?_⟩
    · rw [fieldOp_append]; cases e <;> rfl
    · rw [eventReserved_append]; cases e <;> rfl
    · rw [fieldHigh_append]
    · rw [fieldHigh_append, fieldLow_append, fieldE_append]; cases e <;> rfl

/-- Settles O3: the fields the decoder has tested are all of each word. -/
theorem encodeOfDecode : Obligations.EncodeOfDecode := by
  intro inp i h
  cases inp with
  | command w =>
    obtain ⟨hr, ⟨ho, hh, rfl⟩ | ⟨ho, rfl⟩ | ⟨ho, hh, rfl⟩⟩ := (decodeCommand_eq_ok_iff w i).mp h
    · exact congrArg Input.command ((command_word hr ho).trans (hh ▸ rfl))
    · exact congrArg Input.command (command_word hr ho)
    · exact congrArg Input.command ((command_word hr ho).trans (hh ▸ rfl))
  | event words data =>
    match words with
    | [] => cases h
    | [w] =>
      obtain ⟨ho, he, hr, rfl⟩ := (decodeEvent_one_eq_ok_iff w i).mp h
      have word := event_word hr ho
      rw [he] at word
      exact congrArg (Input.event [·] data) word
    | [w, w2] =>
      obtain ⟨ho, hr, hh, rfl⟩ := (decodeEvent_two_eq_ok_iff w w2 i).mp h
      have second : w2 = 0#16 ++ fieldLow w2 := by rw [← hh, high_low]
      exact congrArg₂ (fun a b => Input.event [a, b] data) (event_word hr ho) second
    | _ :: _ :: _ :: _ => cases h

end Sys2Proof.Proofs

/-! SUPPORT. What a presented entry may be (spec/30_encoding.md R108): the words of the spec's decode vectors, and exactly
which entries an instance refuses. -/

namespace Sys2Proof.Proofs

open Sys2Proof.Machine Sys2Proof.Laws

/-- Settles O1: the decoder, run on the twelve words. -/
theorem specWordsDecode : Obligations.SpecWordsDecode :=
  ⟨rfl, rfl, rfl, rfl, rfl, rfl, rfl, rfl, rfl, rfl, rfl, rfl⟩

/-- The reason an entry that spells nothing is refused with, by who presents it (R108, R239). -/
def refusalOf : Input → Refusal
  | .command _ => .illegalCommand
  | .event _ _ => .illegalEvent

theorem decodeInput_total (inp : Input) : (∃ i, decodeInput inp = .ok i) ∨ decodeInput inp = .error (refusalOf inp) := by
  cases inp with
  | command w =>
    show (∃ i, decodeCommand w = .ok i) ∨ decodeCommand w = .error .illegalCommand
    unfold decodeCommand
    split_ifs <;> simp
  | event words data =>
    show (∃ i, decodeEvent words = .ok i) ∨ decodeEvent words = .error .illegalEvent
    unfold decodeEvent
    split
    · split <;> simp
    · split <;> simp
    · exact .inr rfl

/-- A command word that decodes is a command of every instance (R108). -/
theorem wf_of_decodeCommand {w : Word} {i : Instr} (p : Params) (h : decodeCommand w = .ok i) : i.wf p = true := by
  obtain ⟨-, ⟨-, -, rfl⟩ | ⟨-, rfl⟩ | ⟨-, -, rfl⟩⟩ := (decodeCommand_eq_ok_iff w i).mp h <;> rfl

/-- An instance refuses exactly the entries that spell none of its instructions. -/
theorem admitInput_refuses_iff (p : Params) (inp : Input) :
    admitInput p inp = .error (refusalOf inp) ↔ ∀ i, decodeInput inp = .ok i → i.wf p = false := by
  unfold admitInput
  obtain ⟨i, hi⟩ | hr := decodeInput_total inp
  · simp only [hi]
    cases hw : i.wf p with
    | true => simp [hw]
    | false =>
      cases inp with
      | command w => exact absurd (wf_of_decodeCommand p hi) (by simp [hw])
      | event words data => simp [refusalOf, hw]
  · simp [hr]

/-- An entry that spells the one instruction j, and that under C alone, is refused unless C holds and j is in range. -/
theorem admitInput_refuses_of_spells {p : Params} {inp : Input} {j : Instr} {C : Prop}
    (h : ∀ i, decodeInput inp = .ok i ↔ C ∧ i = j) :
    admitInput p inp = .error (refusalOf inp) ↔ ¬ C ∨ j.wf p = false := by
  rw [admitInput_refuses_iff, ← imp_iff_not_or]
  simp only [h, and_imp, forall_eq_apply_imp_iff]

/-- Which command words spell nothing (R108). -/
theorem command_refused_iff (p : Params) (w : Word) :
    admitInput p (.command w) = .error .illegalCommand ↔
      (fieldOp w ≠ 0x1#4 ∧ fieldOp w ≠ 0x2#4 ∧ fieldOp w ≠ 0x3#4) ∨ commandReserved w ≠ 0#12 ∨
      ((fieldOp w = 0x1#4 ∨ fieldOp w = 0x3#4) ∧ fieldHigh w ≠ 0#16) := by
  have spells : (∃ i, decodeCommand w = .ok i) ↔ commandReserved w = 0#12 ∧
      ((fieldOp w = 0x1#4 ∧ fieldHigh w = 0#16) ∨ fieldOp w = 0x2#4 ∨ (fieldOp w = 0x3#4 ∧ fieldHigh w = 0#16)) := by
    simp [decodeCommand_eq_ok_iff, exists_or]
  have refused : admitInput p (.command w) = .error .illegalCommand ↔ ¬ ∃ i, decodeCommand w = .ok i := by
    refine (admitInput_refuses_iff p (.command w)).trans ⟨fun h ⟨i, hi⟩ => ?_, fun h i hi => absurd ⟨i, hi⟩ h⟩
    exact absurd (wf_of_decodeCommand p hi) (by simp [h i hi])
  rw [refused, spells]
  by_cases hr : commandReserved w = 0#12
  · by_cases h2 : fieldOp w = 0x2#4
    · simp [hr, h2]
    · by_cases hh : fieldHigh w = 0#16
      · simp [hr, h2, hh]
      · simp [hr, h2, hh, ← not_or, em']
  · simp [hr]

/-- Which events of one word spell nothing, where EV does not call for two (R108). -/
theorem event_one_refused_iff (p : Params) (w : Word) (data : List Byte) :
    admitInput p (.event [w] data) = .error .illegalEvent ↔
      fieldOp w ≠ 0x8#4 ∨ eventReserved w ≠ 0#11 ∨ fieldE w = true ∨ p.nTx ≤ (fieldHigh w).toNat := by
  have spells : ∀ i, decodeInput (.event [w] data) = .ok i ↔
      (fieldOp w = 0x8#4 ∧ fieldE w = false ∧ eventReserved w = 0#11) ∧ i = .devTxdone (fieldHigh w) := fun i =>
    (decodeEvent_one_eq_ok_iff w i).trans (by simp only [and_assoc])
  have outOfRange : Instr.wf p (.devTxdone (fieldHigh w)) = false ↔ p.nTx ≤ (fieldHigh w).toNat := by simp [Instr.wf]
  refine (admitInput_refuses_of_spells spells).trans ?_
  rw [outOfRange]
  cases fieldE w <;> simp [imp_iff_not_or, or_assoc]

/-- Which events of two words spell nothing, where EV calls for two (R108). -/
theorem event_two_refused_iff {w : Word} (ho : fieldOp w = 0x9#4) (p : Params) (w2 : Word) (data : List Byte) :
    admitInput p (.event [w, w2] data) = .error .illegalEvent ↔
      eventReserved w ≠ 0#11 ∨ p.nRx ≤ (fieldHigh w).toNat ∨ p.rxBuf < (fieldLow w2).toNat ∨ fieldHigh w2 ≠ 0#16 := by
  have spells : ∀ i, decodeInput (.event [w, w2] data) = .ok i ↔
      (eventReserved w = 0#11 ∧ fieldHigh w2 = 0#16) ∧ i = .devRxfill (fieldHigh w) (fieldE w) (fieldLow w2) := fun i =>
    (decodeEvent_two_eq_ok_iff w w2 i).trans (by simp only [ho, true_and, and_assoc])
  have outOfRange : Instr.wf p (.devRxfill (fieldHigh w) (fieldE w) (fieldLow w2)) = false ↔
      p.nRx ≤ (fieldHigh w).toNat ∨ p.rxBuf < (fieldLow w2).toNat := by
    simp [Instr.wf, imp_iff_not_or]
  refine (admitInput_refuses_of_spells spells).trans ?_
  rw [outOfRange]
  tauto

theorem step_of_fetch_error {s : State} {r : Refusal} (hf : fetch s = some (.error r)) :
    step s = .next (s.takeInput.refuse r) := by
  simp [step, hf]

/-- Settles O4: the refused words are those that no case of the decoder's equivalences accepts, and a step on one takes it
off the schedule and marks it. -/
theorem illegalWordsAreRefused : Obligations.IllegalWordsAreRefused := by
  refine ⟨command_refused_iff, fun p w data _ => event_one_refused_iff p w data,
    fun p w w2 data ho => event_two_refused_iff ho p w2 data, fun s inp rest r hs hr => ?_⟩
  rw [step_of_fetch_error (by rw [fetch_cons hs, hr]), takeInput_cons s inp rest hs]
  rfl

end Sys2Proof.Proofs

/-! SUPPORT. The descriptor layouts (spec/30_encoding.md R80, R84). -/

namespace Sys2Proof.Proofs

open Sys2Proof.Machine Sys2Proof.Laws

/-- Settles O6: the laws of both layouts, and the two descriptors' bytes, computed. -/
theorem descriptorLayout : Obligations.DescriptorLayout :=
  ⟨txDescOfBytes_txDescBytes, rxDescOfBytes_rxDescBytes, by decide, by decide⟩

end Sys2Proof.Proofs

/-! SUPPORT. The words written to the ring registers fit their fields (spec/30_encoding.md R96): each register's test as
arithmetic, ATTACH's ring writes (spec/43_attach.md R191), and what each instruction adds to RegLog (spec/10_state.md
R31). -/

namespace Sys2Proof.Proofs

open Sys2Proof.Machine Sys2Proof.Laws

/-! ### The fields as arithmetic -/

theorem ringBaseLowOk_iff (w : Word) : ringBaseLowOk w = true ↔ w.toNat % 16 = 0 := by
  simp [ringBaseLowOk, ← BitVec.toNat_inj]

theorem ringLenOk_iff (w : Word) : ringLenOk w = true ↔ w.toNat % 128 = 0 ∧ w.toNat < 2 ^ 20 := by
  have := w.isLt
  simp only [ringLenOk, Bool.and_eq_true, decide_eq_true_eq, ← BitVec.toNat_inj, BitVec.extractLsb'_toNat,
    Nat.shiftRight_eq_div_pow, BitVec.toNat_ofNat]
  omega

theorem ringIndexOk_iff (w : Word) : ringIndexOk w = true ↔ w.toNat < 2 ^ 16 := by
  have := w.isLt
  simp only [ringIndexOk, decide_eq_true_eq, ← BitVec.toNat_inj, BitVec.extractLsb'_toNat, Nat.shiftRight_eq_div_pow,
    BitVec.toNat_ofNat]
  omega

/-! ### Words that fit, by register -/

theorem fits_base {idx : Nat} {w : Word} (hi : idx = regTDBAL ∨ idx = regRDBAL) (h : w.toNat % 16 = 0) :
    FitsRingRegister idx w := by
  refine ⟨fun _ => (ringBaseLowOk_iff w).mpr h, fun e => absurd e ?_, fun e => absurd e ?_⟩
  all_goals obtain rfl | rfl := hi <;> decide

theorem fits_length {idx : Nat} {w : Word} (hi : idx = regTDLEN ∨ idx = regRDLEN) (h : w.toNat % 128 = 0)
    (hlt : w.toNat < 2 ^ 20) : FitsRingRegister idx w := by
  refine ⟨fun e => absurd e ?_, fun _ => (ringLenOk_iff w).mpr ⟨h, hlt⟩, fun e => absurd e ?_⟩
  all_goals obtain rfl | rfl := hi <;> decide

theorem fits_index {idx : Nat} {w : Word} (hi : idx = regTDH ∨ idx = regRDH ∨ idx = regTDT ∨ idx = regRDT)
    (h : w.toNat < 2 ^ 16) : FitsRingRegister idx w := by
  refine ⟨fun e => absurd e ?_, fun e => absurd e ?_, fun _ => (ringIndexOk_iff w).mpr h⟩
  all_goals obtain rfl | rfl | rfl | rfl := hi <;> decide

/-- A register without ring fields takes any word. -/
theorem fits_other {idx : Nat} (w : Word)
    (hi : idx ∉ [regTDBAL, regRDBAL, regTDLEN, regRDLEN, regTDH, regRDH, regTDT, regRDT]) : FitsRingRegister idx w := by
  simp only [List.mem_cons, List.not_mem_nil, or_false, not_or] at hi
  simp [FitsRingRegister, hi]

/-- A cursor fits the tail registers (R22, R23). -/
theorem fits_tail {idx : Nat} (hi : idx = regTDT ∨ idx = regRDT) (c : Half) : FitsRingRegister idx (c.setWidth 32) := by
  have := c.isLt
  exact fits_index (.inr (.inr hi)) (by rw [BitVec.toNat_setWidth]; omega)

/-! ### ATTACH's ring writes -/

theorem toNat_ringLength {n : Nat} (hn : n ≤ 4096) : (BitVec.ofNat 32 (16 * n)).toNat = 16 * n := by
  rw [BitVec.toNat_ofNat]
  omega

theorem toNat_lastSlot {n : Nat} (hn : n ≤ 4096) : (BitVec.ofNat 32 (n - 1)).toNat = n - 1 := by
  rw [BitVec.toNat_ofNat]
  omega

theorem toNat_baseLow (a : PAddr) : (a.extractLsb' 0 32).toNat % 16 = a.toNat % 16 := by
  rw [BitVec.extractLsb'_toNat, Nat.shiftRight_zero]
  omega

theorem ringWrites_fit {p : Params} (hp : p.admitted = true) : ∀ w ∈ ringWrites p, FitsRingRegister w.1 w.2 := by
  obtain ⟨-, nTxLe, -, nRxLe, -⟩ := admitted_ranges hp
  obtain ⟨nTx8, nRx8, txBase, rxBase⟩ := admitted_alignment hp
  have txLen := toNat_ringLength nTxLe
  have rxLen := toNat_ringLength nRxLe
  have last := toNat_lastSlot nRxLe
  simp only [ringWrites, List.forall_mem_cons]
  refine ⟨fits_base (.inl rfl) ?_, fits_other _ (by decide), fits_length (.inl rfl) ?_ ?_, fits_index (.inl rfl) (by decide),
    fits_index (.inr (.inr (.inl rfl))) (by decide), fits_other _ (by decide), fits_other _ (by decide),
    fits_base (.inr rfl) ?_, fits_other _ (by decide), fits_length (.inr rfl) ?_ ?_,
    fits_index (.inr (.inl rfl)) (by decide), fits_index (.inr (.inr (.inr rfl))) ?_, nofun⟩
  · rw [toNat_baseLow, txBase]
  · omega
  · omega
  · rw [toNat_baseLow, rxBase]
  · omega
  · omega
  · omega

/-- Each of the three registers has one ring write, of a value that its word holds whole. -/
theorem ringWrites_not_truncated {p : Params} (hp : p.admitted = true) : ∀ w ∈ ringWrites p,
    (w.1 = regTDLEN → w.2.toNat = 16 * p.nTx) ∧ (w.1 = regRDLEN → w.2.toNat = 16 * p.nRx) ∧
      (w.1 = regRDT → w.2.toNat = p.nRx - 1) := by
  obtain ⟨-, nTxLe, -, nRxLe, -⟩ := admitted_ranges hp
  simp [ringWrites, toNat_ringLength nTxLe, toNat_ringLength nRxLe, toNat_lastSlot nRxLe, regTDBAL, regTDBAH, regTDLEN,
    regTDH, regTDT, regTCTL, regTIPG, regRDBAL, regRDBAH, regRDLEN, regRDH, regRDT]

/-- Every register write of ATTACH fits, where the platform's own do (R191). -/
theorem attachWrites_fit {p : Params} (hp : p.admitted = true) (hx : ∀ w ∈ p.extra, FitsRingRegister w.1 w.2) :
    ∀ w ∈ attachWrites p, FitsRingRegister w.1 w.2 := by
  intro w hw
  simp only [attachWrites, List.mem_append, List.mem_singleton] at hw
  obtain (hw | hw) | rfl := hw
  · exact ringWrites_fit hp w hw
  · exact hx w hw
  · exact fits_other (idx := regRCTL) _ (by decide)

/-! ### What the instructions add to RegLog -/

/-- From s to s' RegLog only grows, and every new write fits its register. -/
def LogsFitting (s s' : State) : Prop :=
  ∃ new : List RegEntry, s'.regLog = s.regLog ++ new ∧
    ∀ e ∈ new, ∀ (idx : Nat) (v : Word), e.op = .wr idx v → FitsRingRegister idx v

theorem LogsFitting.of_eq {s s' : State} (h : s'.regLog = s.regLog) : LogsFitting s s' :=
  ⟨[], by rw [h, List.append_nil], nofun⟩

theorem LogsFitting.trans {s t u : State} (h : LogsFitting s t) (h' : LogsFitting t u) : LogsFitting s u := by
  obtain ⟨new, e, fit⟩ := h
  obtain ⟨new', e', fit'⟩ := h'
  exact ⟨new ++ new', by rw [e', e, List.append_assoc], List.forall_mem_append.mpr ⟨fit, fit'⟩⟩

theorem logReg_rd_logsFitting (s : State) (idx : Nat) (w : Word) : LogsFitting s (s.logReg (.rd idx w)) :=
  ⟨_, rfl, by simp⟩

theorem putReg_logsFitting (s : State) {idx : Nat} {v : Word} (h : FitsRingRegister idx v) :
    LogsFitting s (s.putReg idx v) :=
  ⟨_, rfl, by simpa using h⟩

theorem putRegAll_logsFitting {ws : List (Nat × Word)} (s : State) (h : ∀ w ∈ ws, FitsRingRegister w.1 w.2) :
    LogsFitting s (putRegAll ws s) := by
  induction ws generalizing s with
  | nil => exact .of_eq rfl
  | cons w ws ih =>
    obtain ⟨hw, hws⟩ := List.forall_mem_cons.mp h
    exact (putReg_logsFitting s hw).trans (ih _ hws)

theorem attachDraw_logsFitting {s : State} (h : ∀ w ∈ attachWrites s.cfg, FitsRingRegister w.1 w.2) :
    LogsFitting s (attachDraw s) := by
  have polled : ∀ w, LogsFitting s ((s.drew 1).logReg (.rd regSTATUS w)) := fun w =>
    logReg_rd_logsFitting (s.drew 1) regSTATUS w
  have hend := attachBody_end (Config.freeStatus s.draws) (s.drew 1)
  unfold attachDraw
  generalize attachBody (Config.freeStatus s.draws) (s.drew 1) = t at hend
  cases hend with
  | blind => exact .of_eq rfl
  | failed => exact polled _
  | stopped _ _ pre post i v hs =>
    have made : ∀ w ∈ pre, FitsRingRegister w.1 w.2 := fun w hw => h w (by
      rw [drew_cfg] at hs
      rw [hs]
      exact List.mem_append_left _ hw)
    exact (polled _).trans (putRegAll_logsFitting (attachRings _) made)
  | attached => exact (polled _).trans (putRegAll_logsFitting (attachRings _) h)

theorem transmitBody_logsFitting (len : Half) (s : State) : LogsFitting s (transmitBody len s) := by
  have hend := transmitChecked_end len (portInBytes len.toNat s) (portIn len.toNat s)
  unfold transmitBody
  generalize transmitChecked len (portInBytes len.toNat s) (portIn len.toNat s) = t at hend
  cases hend with
  | queued _ _ _ u _ _ _ _ _ _ _ s' hr =>
    rw [regWrite_ok hr]
    exact putReg_logsFitting _ (fits_tail (.inl rfl) u)
  | _ => exact .of_eq rfl

theorem receiveBody_logsFitting (s : State) : LogsFitting s (receiveBody s) := by
  have hend := receiveBody_end s
  generalize receiveBody s = t at hend
  cases hend with
  | taken => exact putReg_logsFitting _ (fits_tail (.inr rfl) _)
  | _ => exact .of_eq rfl

theorem runCommand_logsFitting {body : State → State} {adm : Admission} {s : State}
    (h : LogsFitting s.beginCommand (body s.beginCommand)) : LogsFitting s (runCommand adm body s) := by
  obtain ⟨-, e⟩ | ⟨f, -, e⟩ | ⟨-, e⟩ := runCommand_cases adm body s <;> rw [e]
  · exact .of_eq rfl
  · exact .of_eq rfl
  · exact h

theorem exec_logsFitting {i : Instr} {s s' : State} (hp : s.cfg.admitted = true)
    (hx : ∀ w ∈ s.cfg.extra, FitsRingRegister w.1 w.2) (h : exec i s = .next s') : LogsFitting s s' := by
  obtain ⟨-, rfl⟩ | ⟨len, -, rfl⟩ | ⟨-, rfl⟩ | ⟨slot, -, rfl⟩ | ⟨slot, e, l, -, rfl⟩ := exec_cases h
  · exact runCommand_logsFitting (attachDraw_logsFitting (attachWrites_fit hp hx))
  · exact runCommand_logsFitting (transmitBody_logsFitting len _)
  · exact runCommand_logsFitting (receiveBody_logsFitting _)
  · obtain ⟨frame, n, e, -⟩ := txDoneStep_cases slot s
    split
    · exact .of_eq (by rw [e, txDoneWith_regLog])
    · exact .of_eq rfl
  · split
    · exact .of_eq (rxFillStep_regLog ..)
    · exact .of_eq rfl

/-- Settles O9: the ring writes register by register, and instruction by instruction what RegLog gains. -/
theorem ringRegisterFields : Obligations.RingRegisterFields :=
  ⟨fun _ w hp hw => ⟨ringWrites_fit hp w hw, ringWrites_not_truncated hp w hw⟩, fun _ _ _ => exec_logsFitting⟩

end Sys2Proof.Proofs

/-! SUPPORT. Ring arithmetic and status bits (spec/40_ring_arbiter.md R121, R123, R126, R127; spec/30_encoding.md R87). -/

namespace Sys2Proof.Proofs

open Sys2Proof.Machine Sys2Proof.Laws

/-- Settles O7: the successor of the last slot is `n % n`; every other one is below `n` already. -/
theorem ringSuccessor : Obligations.RingSuccessor := by
  intro n i hi
  refine ⟨?_, Nat.mod_lt _ (by omega)⟩
  split
  · exact Nat.mod_eq_of_lt (by omega)
  · have last : i + 1 = n := by omega
    rw [nextIdx, last, Nat.mod_self]

/-! ### The accessors' masks, bit by bit -/

theorem clearDone_mask : ∀ k, k < 8 → (0xFE#8).getLsbD k = decide (k ≠ 0) := by decide

theorem clearDoneEop_mask : ∀ k, k < 8 → (0xFC#8).getLsbD k = decide (k ≠ 0 ∧ k ≠ 1) := by decide

theorem setDone_mask : ∀ k, k < 8 → (0x01#8).getLsbD k = decide (k = 0) := by decide

theorem setCmdEopRs_mask : ∀ k, k < 8 → (0x09#8).getLsbD k = decide (k = 0 ∨ k = 3) := by decide

theorem ownerOf_software (b : Byte) : ownerOf b = .software ↔ isDone b = true := by
  unfold ownerOf
  cases isDone b <;> simp

theorem ownerOf_device (b : Byte) : ownerOf b = .device ↔ isDone b = false := by
  unfold ownerOf
  cases isDone b <;> simp

/-- Settles O8: each accessor by its mask, each state and owner by the two bits it reads. -/
theorem accessorsAndStates : Obligations.AccessorsAndStates := fun b =>
  ⟨fun k hk => by rw [clearDone, BitVec.getLsbD_and, clearDone_mask k hk],
    fun k hk => by rw [clearDoneEop, BitVec.getLsbD_and, clearDoneEop_mask k hk],
    fun k hk => by rw [setDone, BitVec.getLsbD_or, setDone_mask k hk],
    fun k hk => by rw [setCmdEopRs, BitVec.getLsbD_or, setCmdEopRs_mask k hk],
    txStateOf_free b, txStateOf_queued b, rxStateOf_empty b, rxStateOf_full b, rxStateOf_frag b,
    ownerOf_software b, ownerOf_device b⟩

end Sys2Proof.Proofs

/-! SUPPORT. The state machines of the slots (spec/40_ring_arbiter.md R130–R133): all that one instruction of an attached
machine can do to the bytes and the state of one slot. -/

namespace Sys2Proof.Proofs

open Sys2Proof.Machine Sys2Proof.Laws

/-! ### Stores in one slot -/

/-- Stores in TX slot i leave every byte of another TX slot alone (R52). -/
theorem memStep_otherTxSlot {p : Params} {m m' : List Host.Cell} {P : Nat → Prop} {i k a : Nat} (h : MemStep m m' P)
    (hP : ∀ b, P b → InTxSlot p i b) (hp : p.admitted = true) (hi : i < p.nTx) (hk : k < p.nTx) (hne : k ≠ i)
    (ha : InTxSlot p k a) : cellRead m' a = cellRead m a :=
  h.same a fun hPa => txSlot_txSlot hp hk hi hne ha (hP a hPa)

/-- Stores in RX slot i leave every byte of another RX slot alone (R52). -/
theorem memStep_otherRxSlot {p : Params} {m m' : List Host.Cell} {P : Nat → Prop} {i k a : Nat} (h : MemStep m m' P)
    (hP : ∀ b, P b → InRxSlot p i b) (hp : p.admitted = true) (hi : i < p.nRx) (hk : k < p.nRx) (hne : k ≠ i)
    (ha : InRxSlot p k a) : cellRead m' a = cellRead m a :=
  h.same a fun hPa => rxSlot_rxSlot hp hk hi hne ha (hP a hPa)

theorem txStatus_inTxSlot {p : Params} (i : Nat) : ∀ a, a = txDescAddr p i + offStatus → InTxSlot p i a :=
  fun _ e => e ▸ inTxSlot_desc i 12 (by decide)

theorem rxStatus_inRxSlot {p : Params} (i : Nat) : ∀ a, a = rxDescAddr p i + offStatus → InRxSlot p i a :=
  fun _ e => e ▸ inRxSlot_desc i 12 (by decide)

/-! ### The states of the slots -/

theorem SameView.txState {t u : State} (v : SameView t u) (k : Nat) : u.txState k = t.txState k := by
  rw [State.txState, State.txState, State.txStatus, State.txStatus, v.cfg, v.mem]

theorem SameView.rxState {t u : State} (v : SameView t u) (k : Nat) : u.rxState k = t.rxState k := by
  rw [State.rxState, State.rxState, v.rxStatus]

theorem takeInput_running (s : State) : s.takeInput.Running ↔ s.Running := by simp [State.Running]

/-- What `State.Inv` says of an attached state. -/
theorem inOrder_of_inv {s : State} (h : s.Inv) (ha : s.Attached) : InOrder s :=
  ((inv_iff_slotsOk s).mp h).2.2.2 ha

/-! ### TRANSMIT from a state in order -/

/-- From s to s' the tail slot became queued, and no other byte of the TX ring and pool changed (R150, R152). -/
structure QueuesTail (s s' : State) : Prop where
  cfg : s'.cfg = s.cfg
  life : s'.life = s.life
  fault : s'.fault = s.fault
  result : s'.result = 0x00000000#32
  txTail : s'.txTail = nextCursor s.cfg.nTx s.txTail
  queued : s'.txState s.txTail.toNat = some .queued
  others : ∀ k a, k < s.cfg.nTx → k ≠ s.txTail.toNat → InTxSlot s.cfg k a → cellRead s'.mem a = cellRead s.mem a

/-- A slot's status byte is one of its bytes, so the other slots keep their states. -/
theorem QueuesTail.txState_other {s s' : State} (h : QueuesTail s s') {k : Nat} (hk : k < s.cfg.nTx)
    (hne : k ≠ s.txTail.toNat) : s'.txState k = s.txState k := by
  rw [State.txState, State.txState, State.txStatus, State.txStatus, h.cfg,
    h.others k _ hk hne (txStatus_inTxSlot k _ rfl)]

/-- All TRANSMIT can do in READY from slots in order: it refuses a long packet, refuses a full ring, or queues the
tail slot (R150, R156). -/
theorem transmitBody_of_inOrder {s : State} (hp : s.cfg.admitted = true) (h : InOrder s) (len : Half) :
    (s.cfg.maxTx < len.toNat ∧ transmitBody len s = (portIn len.toNat s).ret .packetTooLarge 0#16) ∨
    (len.toNat ≤ s.cfg.maxTx ∧ s.txState s.txTail.toNat = some .queued ∧
      transmitBody len s = (portIn len.toNat s).ret .ringFull 0#16) ∨
    (len.toNat ≤ s.cfg.maxTx ∧ s.txState s.txTail.toNat = some .free ∧ QueuesTail s (transmitBody len s)) := by
  have consumed := sameView_portIn len.toNat s
  have hpl := portInBytes_length len.toNat s
  obtain ⟨hl, e⟩ | ⟨hl, hq, e⟩ | ⟨hl, hf, c, st, e⟩ :=
    transmitChecked_of_inOrder (s := portIn len.toNat s) hp (consumed.inOrder h) hpl
  · exact .inl ⟨hl, e⟩
  · exact .inr (.inl ⟨hl, hq, e⟩)
  · refine .inr (.inr ⟨hl, hf, ?_⟩)
    obtain ⟨⟨hn, -⟩, -⟩ := h
    rw [transmitBody, e]
    have stores := memStep_queuedMem s.cfg s.mem s.txTail.toNat len (portInBytes len.toNat s) c st
    refine ⟨rfl, rfl, rfl, rfl, rfl, ?_, fun k a hk hne ha => ?_⟩
    · exact txState_of_status (cellRead_write_one _ _ _) ((txStateOf_queued _).mpr (isDone_clearDone st))
    · exact memStep_otherTxSlot stores (fun b => transmitStores_slot (hpl.le.trans hl)) hp hn hk hne ha

/-! ### TX slots -/

/-- What instruction i does to TX slot k (R130, R131): nothing, or one of the two transitions under its guard. -/
inductive TxSlotStep (s s' : State) (k : Nat) : Instr → Prop where
  | kept {i : Instr} (h : ∀ a, InTxSlot s.cfg k a → cellRead s'.mem a = cellRead s.mem a) : TxSlotStep s s' k i
  | queues {len : Half} (free : s.txState k = some .free) (queued : s'.txState k = some .queued) (running : s.Running)
      (fits : len.toNat ≤ s.cfg.maxTx) (tail : s.txTail.toNat = k) : TxSlotStep s s' k (.transmit len)
  | done {slot : Half} (queued : s.txState k = some .queued) (free : s'.txState k = some .free) (hslot : slot.toNat = k) :
      TxSlotStep s s' k (.devTxdone slot)

/-- An instruction that may not store in the slot keeps it. -/
theorem txSlotStep_kept {i : Instr} {s s' : State} {k : Nat} (hp : s.cfg.admitted = true) (hatt : s.Attached)
    (he : exec i s = .next s') (h : ∀ a, InTxSlot s.cfg k a → ¬ MayStore s i a) : TxSlotStep s s' k i :=
  .kept fun a ha => (exec_memStep hp hatt he).same a (h a ha)

theorem txSlotStep_transmit {s : State} {k : Nat} (len : Half) (hp : s.cfg.admitted = true) (hord : InOrder s)
    (hk : k < s.cfg.nTx) (hr : s.Running) : TxSlotStep s (transmitBody len s.beginCommand) k (.transmit len) := by
  obtain ⟨-, e⟩ | ⟨-, -, e⟩ | ⟨hl, hf, q⟩ :=
    transmitBody_of_inOrder (s := s.beginCommand) hp ((sameView_beginCommand s).inOrder hord) len
  · rw [e]
    exact .kept fun _ _ => rfl
  · rw [e]
    exact .kept fun _ _ => rfl
  · by_cases hkt : k = s.txTail.toNat
    · subst hkt
      exact .queues hf q.queued hr hl rfl
    · exact .kept fun a ha => q.others k a hk hkt ha

theorem txSlotStep_devTxdone {s : State} {k : Nat} {slot : Half} (hp : s.cfg.admitted = true) (hk : k < s.cfg.nTx)
    (hen : txDoneEnabled slot s = true) : TxSlotStep s (txDoneStep slot s) k (.devTxdone slot) := by
  obtain ⟨-, hn, ⟨st, hs, hd⟩, -⟩ := (txDoneEnabled_iff slot s).mp hen
  obtain ⟨frame, n, e, -⟩ := txDoneStep_cases slot s
  rw [e]
  by_cases hks : k = slot.toNat
  · subst hks
    exact .done (txState_of_status hs ((txStateOf_queued st).mpr hd))
      (txState_of_status (cellRead_write_one _ _ _) ((txStateOf_free _).mpr (isDone_txDoneStatus _))) rfl
  · exact .kept fun a ha => memStep_otherTxSlot (memStep_txStatus s.mem slot.toNat _) (txStatus_inTxSlot _) hp hn hk hks ha

theorem exec_txSlotStep {i : Instr} {s s' : State} {k : Nat} (hp : s.cfg.admitted = true) (hatt : s.Attached)
    (hord : InOrder s) (hk : k < s.cfg.nTx) (he : exec i s = .next s') : TxSlotStep s s' k i := by
  obtain ⟨rfl, -⟩ | ⟨len, rfl, e⟩ | ⟨rfl, -⟩ | ⟨slot, rfl, e⟩ | ⟨slot, eop, l, rfl, -⟩ := exec_cases he
  · exact txSlotStep_kept hp hatt he fun _ _ h => h
  · obtain ⟨-, e'⟩ | ⟨f, -, e'⟩ | ⟨hx, e'⟩ := runCommand_cases (admitRing s) (transmitBody len) s <;> rw [e, e']
    · exact .kept fun _ _ => rfl
    · exact .kept fun _ _ => rfl
    · exact txSlotStep_transmit len hp hord hk ((admitRing_executes s).mp hx)
  · exact txSlotStep_kept hp hatt he fun a ha h => InRxSlotAt.not_inTxSlot h hp hk ha
  · by_cases hen : txDoneEnabled slot s = true
    · rw [e, if_pos hen]
      exact txSlotStep_devTxdone hp hk hen
    · rw [e, if_neg hen]
      exact .kept fun _ _ => rfl
  · exact txSlotStep_kept hp hatt he fun a ha h => InRxSlotAt.not_inTxSlot h hp hk ha

/-- Settles O55: an idle or refused step stores nothing, and an executed instruction makes one of the slot's own steps. -/
theorem txStateMachine : Obligations.TxStateMachine := by
  intro s s' k hinv hatt hk h
  have taken := sameView_takeInput s
  have hord := taken.inOrder (inOrder_of_inv hinv hatt)
  obtain ⟨-, rfl⟩ | ⟨r, -, rfl⟩ | ⟨i, hf, -, he⟩ := step_cases h
  · exact .inl fun _ _ => rfl
  · exact .inl fun a _ => by rw [refuse_mem, takeInput_mem]
  · rw [hf]
    cases exec_txSlotStep (taken.cfg ▸ hinv.1) ((takeInput_attached s).mpr hatt) hord (taken.cfg ▸ hk) he with
    | kept same => exact .inl fun a ha => (same a (taken.cfg ▸ ha)).trans (by rw [taken.mem])
    | queues free queued running fits tail =>
      exact .inr (.inl ⟨taken.txState k ▸ free, queued, (takeInput_running s).mp running, _, rfl, taken.cfg ▸ fits,
        taken.txTail ▸ tail⟩)
    | done queued free slot => exact .inr (.inr ⟨taken.txState k ▸ queued, free, _, rfl, slot⟩)

/-! ### RX slots -/

/-- What instruction i does to RX slot k (R132, R133): nothing, or one of the transitions under its guard. -/
inductive RxSlotStep (s s' : State) (k : Nat) : Instr → Prop where
  | kept {i : Instr} (h : ∀ a, InRxSlot s.cfg k a → cellRead s'.mem a = cellRead s.mem a) : RxSlotStep s s' k i
  | fills {slot l : Half} {e : Bool} (empty : s.rxState k = some .empty) (hslot : slot.toNat = k)
      (filled : s'.rxState k = some (if e then .full else .frag)) : RxSlotStep s s' k (.devRxfill slot e l)
  | takes (full : s.rxState k = some .full) (empty : s'.rxState k = some .empty) (running : s.Running)
      (candidate : k = nextIdx s.cfg.nRx s.rxTail.toNat) : RxSlotStep s s' k .receive

/-- An instruction that may not store in the slot keeps it. -/
theorem rxSlotStep_kept {i : Instr} {s s' : State} {k : Nat} (hp : s.cfg.admitted = true) (hatt : s.Attached)
    (he : exec i s = .next s') (h : ∀ a, InRxSlot s.cfg k a → ¬ MayStore s i a) : RxSlotStep s s' k i :=
  .kept fun a ha => (exec_memStep hp hatt he).same a (h a ha)

theorem rxSlotStep_receive {s : State} {k : Nat} (hp : s.cfg.admitted = true) (hk : k < s.cfg.nRx) (hr : s.Running) :
    RxSlotStep s (receiveBody s.beginCommand) k .receive := by
  have hend := receiveBody_end s.beginCommand
  generalize receiveBody s.beginCommand = r at hend
  cases hend with
  | empty => exact .kept fun _ _ => rfl
  | frag => exact .kept fun _ _ => rfl
  | fault => exact .kept fun _ _ => rfl
  | lost _ _ _ _ _ _ _ _ hreg => exact absurd (tailRegs_lt_regCount hp).2 (Nat.not_lt.mpr hreg)
  | taken t c st _ _ ht hc hn hs hd he =>
    by_cases hkc : k = c
    · subst hkc
      exact .takes (rxState_of_status hs ((rxStateOf_full st).mpr ⟨hd, he⟩))
        (rxState_of_status (cellRead_write_one _ _ _) ((rxStateOf_empty _).mpr (isDone_clearDoneEop st))) hr (ht ▸ hc)
    · exact .kept fun a ha => memStep_otherRxSlot (memStep_rxStatus s.mem c _) (rxStatus_inRxSlot c) hp hn hk hkc ha

theorem rxSlotStep_devRxfill {s : State} {k : Nat} {slot l : Half} (e : Bool) (hp : s.cfg.admitted = true)
    (hk : k < s.cfg.nRx) (hen : rxFillEnabled slot l s = true) :
    RxSlotStep s (rxFillStep slot e l s) k (.devRxfill slot e l) := by
  obtain ⟨-, hn, ⟨st, hs, hd⟩, hl, -⟩ := (rxFillEnabled_iff slot l s).mp hen
  by_cases hks : k = slot.toNat
  · subst hks
    have status : (rxFillStep slot e l s).rxStatus slot.toNat = some (rxFillStatus (Config.freeRxStatus s.draws) e) := by
      rw [State.rxStatus, rxFillStep_cfg, rxFillStep_mem]
      exact (rxFillMem_reads hp s.mem slot.toNat e l s.devData s.draws hn hl).1
    exact .fills (rxState_of_status hs ((rxStateOf_empty st).mpr hd)) rfl
      (rxState_of_status status (rxStateOf_rxFillStatus _ e))
  · refine .kept fun a ha => ?_
    rw [rxFillStep_mem]
    exact memStep_otherRxSlot (memStep_rxFillMem s.cfg s.mem slot.toNat e l s.devData s.draws hl)
      (fun _ => rxFillStores_slot) hp hn hk hks ha

theorem exec_rxSlotStep {i : Instr} {s s' : State} {k : Nat} (hp : s.cfg.admitted = true) (hatt : s.Attached)
    (hk : k < s.cfg.nRx) (he : exec i s = .next s') : RxSlotStep s s' k i := by
  obtain ⟨rfl, -⟩ | ⟨len, rfl, -⟩ | ⟨rfl, e⟩ | ⟨slot, rfl, -⟩ | ⟨slot, eop, l, rfl, e⟩ := exec_cases he
  · exact rxSlotStep_kept hp hatt he fun _ _ h => h
  · exact rxSlotStep_kept hp hatt he fun a ha h => InTxSlotAt.not_inRxSlot h hp hk ha
  · obtain ⟨-, e'⟩ | ⟨f, -, e'⟩ | ⟨hx, e'⟩ := runCommand_cases (admitRing s) receiveBody s <;> rw [e, e']
    · exact .kept fun _ _ => rfl
    · exact .kept fun _ _ => rfl
    · exact rxSlotStep_receive hp hk ((admitRing_executes s).mp hx)
  · exact rxSlotStep_kept hp hatt he fun a ha h => InTxSlotAt.not_inRxSlot h hp hk ha
  · by_cases hen : rxFillEnabled slot l s = true
    · rw [e, if_pos hen]
      exact rxSlotStep_devRxfill eop hp hk hen
    · rw [e, if_neg hen]
      exact .kept fun _ _ => rfl

/-- Settles O56: an idle or refused step stores nothing, and an executed instruction makes one of the slot's own steps. -/
theorem rxStateMachine : Obligations.RxStateMachine := by
  intro s s' k hinv hatt hk h
  have taken := sameView_takeInput s
  obtain ⟨-, rfl⟩ | ⟨r, -, rfl⟩ | ⟨i, hf, -, he⟩ := step_cases h
  · exact .inl fun _ _ => rfl
  · exact .inl fun a _ => by rw [refuse_mem, takeInput_mem]
  · rw [hf]
    cases exec_rxSlotStep (taken.cfg ▸ hinv.1) ((takeInput_attached s).mpr hatt) (taken.cfg ▸ hk) he with
    | kept same => exact .inl fun a ha => (same a (taken.cfg ▸ ha)).trans (by rw [taken.mem])
    | fills empty slot filled => exact .inr (.inl ⟨taken.rxState k ▸ empty, _, _, _, rfl, slot, filled⟩)
    | takes full empty running candidate =>
      exact .inr (.inr ⟨taken.rxState k ▸ full, empty, (takeInput_running s).mp running, rfl,
        candidate.trans (by rw [taken.cfg, taken.rxTail]; rfl)⟩)

end Sys2Proof.Proofs

/-! SUPPORT. The capacity of the TX ring (spec/40_ring_arbiter.md R135): TRANSMITs that follow one another fill the slots in
order, and a full ring refuses the next one. -/

namespace Sys2Proof.Proofs

open Sys2Proof.Machine Sys2Proof.Laws

/-- In READY a TRANSMIT is its body, after the command is counted (R33, R236). -/
theorem exec_transmit_running {s : State} (h : s.Running) (len : Half) :
    exec (.transmit len) s = .next (transmitBody len s.beginCommand) := by
  rw [← admitRing_executes] at h
  rw [exec, execTransmit, h, runCommand]

theorem transmitBody_inOrder {s : State} (hp : s.cfg.admitted = true) (h : InOrder s) (len : Half) :
    InOrder (transmitBody len s) :=
  transmitChecked_inOrder hp ((sameView_portIn len.toNat s).inOrder h) (portInBytes_length ..)

/-- The first n TX slots are queued and the others free, and the tail stands after them. -/
structure TxFilled (s : State) (n : Nat) : Prop where
  admitted : s.cfg.admitted = true
  running : s.Running
  inOrder : InOrder s
  txTail : s.txTail = BitVec.ofNat 16 (n % s.cfg.nTx)
  states : ∀ i, i < s.cfg.nTx → s.txState i = some (if i < n then .queued else .free)

theorem txFilled_of_fresh {s : State} (hinv : s.Inv) (h : s.TxFresh) : TxFilled s 0 := by
  obtain ⟨running, tail, free⟩ := h
  exact ⟨hinv.1, running, inOrder_of_inv hinv (.inl running.1), by rw [tail, Nat.zero_mod], free⟩

/-- The tail as a slot number. -/
theorem TxFilled.toNat_txTail {s : State} {n : Nat} (h : TxFilled s n) : s.txTail.toNat = n % s.cfg.nTx := by
  obtain ⟨nTx8, nTxLe, -⟩ := admitted_ranges h.admitted
  rw [h.txTail, toNat_cursor (Nat.mod_lt n (by omega)) nTxLe]

/-- While a slot is free, a TRANSMIT that fits returns OK and queues the next one. -/
theorem TxFilled.transmit {s : State} {n : Nat} {len : Half} (h : TxFilled s n) (hn : n < s.cfg.nTx)
    (hl : len.toNat ≤ s.cfg.maxTx) :
    ∃ s', exec (.transmit len) s = .next s' ∧ s'.cfg = s.cfg ∧ s'.result = 0x00000000#32 ∧ TxFilled s' (n + 1) := by
  refine ⟨_, exec_transmit_running h.running len, ?_⟩
  have tail : s.txTail.toNat = n := h.toNat_txTail.trans (Nat.mod_eq_of_lt hn)
  have free : s.txState s.txTail.toNat = some .free := by rw [tail, h.states n hn, if_neg (Nat.lt_irrefl n)]
  have counted := (sameView_beginCommand s).inOrder h.inOrder
  have next := transmitBody_inOrder (s := s.beginCommand) h.admitted counted len
  obtain ⟨hlong, -⟩ | ⟨-, hfull, -⟩ | ⟨-, -, q⟩ := transmitBody_of_inOrder (s := s.beginCommand) h.admitted counted len
  · exact absurd hl (Nat.not_le.mpr hlong)
  · exact nomatch free.symm.trans hfull
  · refine ⟨q.cfg, q.result, ⟨q.cfg ▸ h.admitted, ⟨q.life.trans h.running.1, q.fault.trans h.running.2⟩, next, ?_, ?_⟩⟩
    · rw [q.txTail, q.cfg, nextCursor, nextIdx, beginCommand_cfg, beginCommand_txTail, tail]
    · intro i hi
      rw [q.cfg] at hi
      by_cases hin : i = n
      · rw [if_pos (by omega), hin, ← tail]
        exact q.queued
      · rw [q.txState_other hi (tail ▸ hin), (sameView_beginCommand s).txState, h.states i hi]
        simp only [show i < n + 1 ↔ i < n by omega]

/-- TRANSMITs that fit, as long as slots are free, all return OK and queue the slots in order. -/
theorem TxFilled.transmitAll {s : State} {n : Nat} {lens : List Half} (h : TxFilled s n)
    (hn : n + lens.length ≤ s.cfg.nTx) (hl : ∀ l ∈ lens, l.toNat ≤ s.cfg.maxTx) :
    ∃ s', execAll (lens.map Instr.transmit) s = .next s' ∧ s'.cfg = s.cfg ∧ (lens ≠ [] → s'.result = 0x00000000#32) ∧
      TxFilled s' (n + lens.length) := by
  induction lens generalizing s n with
  | nil => exact ⟨s, rfl, rfl, fun hne => absurd rfl hne, h⟩
  | cons len lens ih =>
    rw [List.length_cons] at hn ⊢
    obtain ⟨s1, he1, hcfg1, hres1, filled1⟩ := h.transmit (len := len) (by omega) (hl len List.mem_cons_self)
    obtain ⟨s2, he2, hcfg2, hres2, filled2⟩ :=
      ih filled1 (by rw [hcfg1]; omega) fun l hm => hcfg1 ▸ hl l (List.mem_cons_of_mem _ hm)
    refine ⟨s2, ?_, hcfg2.trans hcfg1, fun _ => ?_, ?_⟩
    · rw [List.map_cons, execAll, he1]
      exact he2
    · cases lens with
      | nil =>
        cases he2
        exact hres1
      | cons l ls => exact hres2 (List.cons_ne_nil l ls)
    · rwa [show n + (lens.length + 1) = n + 1 + lens.length by omega]

/-- A full ring refuses the next TRANSMIT that fits and changes nothing else (R232). -/
theorem TxFilled.transmit_full {s : State} {len : Half} (h : TxFilled s s.cfg.nTx) (hl : len.toNat ≤ s.cfg.maxTx) :
    exec (.transmit len) s = .next ((portIn len.toNat s.beginCommand).ret .ringFull 0#16) := by
  have tail : s.txTail.toNat = 0 := h.toNat_txTail.trans (Nat.mod_self _)
  obtain ⟨nTx8, -⟩ := admitted_ranges h.admitted
  have queued : s.txState s.txTail.toNat = some .queued := by rw [tail, h.states 0 (by omega), if_pos (by omega)]
  have counted := (sameView_beginCommand s).inOrder h.inOrder
  rw [exec_transmit_running h.running]
  obtain ⟨hlong, -⟩ | ⟨-, -, e⟩ | ⟨-, hfree, -⟩ := transmitBody_of_inOrder (s := s.beginCommand) h.admitted counted len
  · exact absurd hl (Nat.not_le.mpr hlong)
  · rw [e]
  · exact nomatch queued.symm.trans hfree

/-- Settles O58: TRANSMIT by TRANSMIT the queued slots are the first ones, and once they are all the tail is slot 0 again. -/
theorem txRingCapacity : Obligations.TxRingCapacity := by
  intro s lens hinv hfresh hlen hfit
  obtain ⟨s', he, hcfg, hres, filled⟩ := (txFilled_of_fresh hinv hfresh).transmitAll (by omega) hfit
  rw [Nat.zero_add] at filled
  rw [← hcfg]
  refine ⟨s', he, hres, filled.txTail, filled.states, fun hfull len hl => ?_⟩
  rw [hfull] at filled
  exact filled.transmit_full hl

end Sys2Proof.Proofs

/-! SUPPORT. TRANSMIT (spec/41_transmit.md): the state a queued packet leaves, all that a TRANSMIT in READY returns (R156),
and what no TRANSMIT changes. -/

namespace Sys2Proof.Proofs

open Sys2Proof.Machine Sys2Proof.Laws

/-! ### Descriptor bytes, read as a record -/

theorem halfBytes_halfOfBytes (b0 b1 : Byte) : halfBytes (halfOfBytes b0 b1) = [b0, b1] :=
  congrArg₂ (fun x y => [x, y]) BitVec.extractLsb'_append_eq_right BitVec.extractLsb'_append_eq_left

theorem paddrBytes_paddrOfBytes (b0 b1 b2 b3 b4 b5 b6 b7 : Byte) :
    paddrBytes (paddrOfBytes b0 b1 b2 b3 b4 b5 b6 b7) = [b0, b1, b2, b3, b4, b5, b6, b7] := by
  simp only [paddrBytes, paddrOfBytes, List.cons.injEq, and_true]
  refine ⟨?_, ?_, ?_, ?_, ?_, ?_, ?_, ?_⟩ <;>
  · apply BitVec.eq_of_getLsbD_eq
    intro i hi
    simp only [BitVec.getLsbD_append, BitVec.getLsbD_extractLsb']
    grind

/-- Bytes that spell a TX descriptor are its bytes: the layout has no slack (R80). -/
theorem eq_txDescBytes_of_spells {bs : List Byte} {d : TxDesc} (h : txDescOfBytes bs = some d) : bs = txDescBytes d := by
  unfold txDescOfBytes at h
  split at h
  · cases h
    simp [txDescBytes, paddrBytes_paddrOfBytes, halfBytes_halfOfBytes]
  · cases h

theorem txDesc_eq_some_iff (s : State) (i : Nat) (d : TxDesc) :
    s.txDesc i = some d ↔ cellReadN s.mem (txDescAddr s.cfg i) 16 = some (txDescBytes d) := by
  rw [State.txDesc, Option.bind_eq_some_iff]
  constructor
  · rintro ⟨bs, hbs, hd⟩
    rw [hbs, eq_txDescBytes_of_spells hd]
  · exact fun h => ⟨_, h, txDescOfBytes_txDescBytes d⟩

/-- The status byte of a free slot is done (R87). -/
theorem isDone_of_txState_free {s : State} {i : Nat} {st : Byte} (hs : s.txStatus i = some st)
    (h : s.txState i = some .free) : isDone st = true := by
  rw [txState_of_status hs rfl] at h
  exact (txStateOf_free st).mp (Option.some.inj h)

/-! ### The state a queued packet leaves -/

/-- The doorbell moves no head of the device: it names neither head register (R32, R151). -/
theorem putReg_regTDT (s : State) (v : Word) : s.putReg regTDT v = { s with
    regShadow := cellWrite s.regShadow regTDT [v]
    regLog := s.regLog ++ [⟨s.cmdCount, .wr regTDT v⟩] } := by
  rw [State.putReg, headAfter_other (by decide), headAfter_other (by decide)]

/-- The state after TRANSMIT has queued a packet in the tail slot, whose `cmd` and `status` bytes were c and st (R150). -/
def transmitQueued (s : State) (len : Half) (c st : Byte) : State := { s with
  cmdCount := s.cmdCount + 1
  dataIn := s.dataIn.drop len.toNat
  draws := s.draws + (len.toNat - s.dataIn.length)
  mem := queuedMem s.cfg s.mem s.txTail.toNat len (takeBytes s.dataIn len.toNat s.draws) c st
  txTail := nextCursor s.cfg.nTx s.txTail
  regShadow := cellWrite s.regShadow regTDT [(nextCursor s.cfg.nTx s.txTail).setWidth 32]
  regLog := s.regLog ++ [⟨s.cmdCount + 1, .wr regTDT ((nextCursor s.cfg.nTx s.txTail).setWidth 32)⟩]
  result := 0x00000000#32 }

theorem transmitBody_queued {s : State} {len : Half} {c st : Byte} (hp : s.cfg.admitted = true)
    (hl : len.toNat ≤ s.cfg.maxTx) (hn : s.txTail.toNat < s.cfg.nTx)
    (hc : cellRead s.mem (txDescAddr s.cfg s.txTail.toNat + offTxCmd) = some c)
    (hs : s.txStatus s.txTail.toNat = some st) (hd : isDone st = true) :
    transmitBody len s.beginCommand = transmitQueued s len c st := by
  have hpl := portInBytes_length len.toNat s.beginCommand
  rw [transmitBody, transmitChecked_queued (s := portIn len.toNat s.beginCommand) hp hl hpl rfl hn hc hs hd, putReg_regTDT]
  rfl

/-- Settles O32: the state with its definitions unfolded is the statement's. -/
theorem transmitQueues : Obligations.TransmitQueues := by
  rintro s len _ c st hr hp rfl hn hs hd hc hl
  rw [exec_transmit_running hr, transmitBody_queued hp hl hn hc hs hd]
  rfl

/-! ### All that a TRANSMIT in READY returns -/

/-- The returns of TRANSMIT with their conditions (R150, R231, R232). -/
inductive TransmitReturns (s : State) (len : Half) : State → Prop where
  | tooLarge (long : s.cfg.maxTx < len.toNat) :
      TransmitReturns s len ((portIn len.toNat s.beginCommand).ret .packetTooLarge 0#16)
  | full (fits : len.toNat ≤ s.cfg.maxTx) (queued : s.txState s.txTail.toNat = some .queued) :
      TransmitReturns s len ((portIn len.toNat s.beginCommand).ret .ringFull 0#16)
  | ok (c st : Byte) (fits : len.toNat ≤ s.cfg.maxTx) (free : s.txState s.txTail.toNat = some .free)
      (cmd : cellRead s.mem (txDescAddr s.cfg s.txTail.toNat + offTxCmd) = some c)
      (status : s.txStatus s.txTail.toNat = some st) : TransmitReturns s len (transmitQueued s len c st)

theorem exec_transmit_returns {s s' : State} {len : Half} (hinv : s.Inv) (hr : s.Running)
    (he : exec (.transmit len) s = .next s') : TransmitReturns s len s' := by
  have hord := inOrder_of_inv hinv (.inl hr.1)
  have counted := (sameView_beginCommand s).inOrder hord
  obtain ⟨c, st, hc, hs⟩ := hord.tailBytes
  obtain ⟨⟨hn, -⟩, -⟩ := hord
  rw [exec_transmit_running hr] at he
  cases he
  obtain ⟨long, e⟩ | ⟨fits, queued, e⟩ | ⟨fits, free, -⟩ :=
    transmitBody_of_inOrder (s := s.beginCommand) hinv.1 counted len
  · rw [e]
    exact .tooLarge long
  · rw [e]
    exact .full fits queued
  · rw [transmitBody_queued hinv.1 fits hn hc hs (isDone_of_txState_free hs free)]
    exact .ok c st fits free hc hs

/-- A TRANSMIT that fits a free tail slot returns OK (R156). -/
theorem exec_transmit_ok {s s' : State} {len : Half} (hinv : s.Inv) (hr : s.Running) (fits : len.toNat ≤ s.cfg.maxTx)
    (free : s.txState s.txTail.toNat = some .free) (he : exec (.transmit len) s = .next s') :
    ∃ c st, cellRead s.mem (txDescAddr s.cfg s.txTail.toNat + offTxCmd) = some c ∧
      s.txStatus s.txTail.toNat = some st ∧ s' = transmitQueued s len c st := by
  cases exec_transmit_returns hinv hr he with
  | tooLarge long => exact absurd fits (Nat.not_le.mpr long)
  | full _ queued => exact nomatch free.symm.trans queued
  | ok c st _ _ cmd status => exact ⟨c, st, cmd, status, rfl⟩

/-- Settles O37: both refusals change what the statement names; a queued packet returns OK. -/
theorem failedTransmitChangesNothing : Obligations.FailedTransmitChangesNothing := by
  intro s s' len hinv hr he failed
  cases exec_transmit_returns hinv hr he with
  | tooLarge => rfl
  | full => rfl
  | ok => exact absurd rfl failed

/-- Settles O38: a refusal has its own result code and logs nothing; a queued packet logs its doorbell. -/
theorem transmitRegisterTraffic : Obligations.TransmitRegisterTraffic := by
  intro s s' len hinv hr he
  cases exec_transmit_returns hinv hr he with
  | tooLarge => exact ⟨fun ok => absurd ok (by decide : resultWord .packetTooLarge 0#16 ≠ 0x00000000#32), fun _ => rfl⟩
  | full => exact ⟨fun ok => absurd ok (by decide : resultWord .ringFull 0#16 ≠ 0x00000000#32), fun _ => rfl⟩
  | ok => exact ⟨fun _ => rfl, fun failed => absurd rfl failed⟩

/-- Settles O39: each return has its result code, and none moves the lifecycle or takes a fault. -/
theorem transmitAlwaysReturns : Obligations.TransmitAlwaysReturns := by
  intro s len hinv hr
  obtain ⟨s', he⟩ := exec_next (.transmit len) s
  refine ⟨s', he, ?_⟩
  cases exec_transmit_returns hinv hr he with
  | tooLarge => exact ⟨hr, .inr (.inl rfl)⟩
  | full => exact ⟨hr, .inr (.inr rfl)⟩
  | ok => exact ⟨hr, .inl rfl⟩

/-! ### What a queued packet leaves in memory -/

theorem memStep_transmitQueued (s : State) (len : Half) (c st : Byte) :
    MemStep s.mem (transmitQueued s len c st).mem (TransmitStores s.cfg s.txTail.toNat len.toNat) := by
  have stores := memStep_queuedMem s.cfg s.mem s.txTail.toNat len (takeBytes s.dataIn len.toNat s.draws) c st
  rwa [takeBytes_length] at stores

/-- In any TX buffer TRANSMIT stores at most the first LEN bytes of the tail slot's: no descriptor reaches into a buffer
(R52). -/
theorem transmitStores_txBuf {p : Params} {i t len a : Nat} (hp : p.admitted = true) (hi : i < p.nTx) (ht : t < p.nTx)
    (ha : InRange a (txBufAddr p i) p.maxTx) (h : TransmitStores p t len a) : InRange a (txBufAddr p t) len := by
  obtain ⟨-, ringApart, -⟩ := admitted_apart hp
  have := ringApart i hi
  simp only [TransmitStores, InRange, txDescAddr, offLength, offTxCmd, offStatus] at *
  omega

/-- Settles O33: what TRANSMIT stores lies in the tail slot, and in a buffer within its first LEN bytes. -/
theorem transmitEffect : Obligations.TransmitEffect := by
  rintro s s' len _ hinv hr rfl fits free he
  obtain ⟨c, st, -, -, rfl⟩ := exec_transmit_ok hinv hr fits free he
  have hp := hinv.1
  obtain ⟨⟨hn, -⟩, -⟩ := inOrder_of_inv hinv (.inl hr.1)
  have stores := memStep_transmitQueued s len c st
  have inTail : ∀ a, TransmitStores s.cfg s.txTail.toNat len.toNat a → InTxSlot s.cfg s.txTail.toNat a :=
    fun _ => transmitStores_slot fits
  have rxKept : ∀ i a, i < s.cfg.nRx → InRxSlot s.cfg i a →
      cellRead (transmitQueued s len c st).mem a = cellRead s.mem a :=
    fun i a hi ha => stores.same a fun h => txSlot_rxSlot hp hn hi (inTail a h) ha
  refine ⟨?_, fun i hi hne => ?_, fun i hi => ?_, fun i a hi ha hout => ?_, rxKept, rfl, rfl⟩
  · exact txState_of_status (cellRead_write_one _ _ _) ((txStateOf_queued _).mpr (isDone_clearDone st))
  · exact congrArg (Option.map txStateOf) (memStep_otherTxSlot stores inTail hp hn hi hne (txStatus_inTxSlot i _ rfl))
  · exact congrArg (Option.map rxStateOf) (rxKept i _ hi (rxStatus_inRxSlot i _ rfl))
  · exact stores.same a fun h => hout (transmitStores_txBuf hp hi hn ha h)

/-- The k-th byte of the queued slot's descriptor: `status`, `cmd` and `length` are written, the others stay (R150). -/
theorem cellRead_queuedMem_desc {p : Params} {i : Nat} {len : Half} {payload : List Byte} (hp : p.admitted = true)
    (hi : i < p.nTx) (hpl : payload.length ≤ p.maxTx) (m : List Host.Cell) (c st : Byte) {k : Nat} (hk : k < 16) :
    cellRead (queuedMem p m i len payload c st) (txDescAddr p i + k) =
      if k = 12 then some (clearDone st) else if k = 11 then some (setCmdEopRs c)
      else if 8 ≤ k ∧ k < 10 then (halfBytes len)[k - 8]? else cellRead m (txDescAddr p i + k) := by
  have hb := txDesc_txBuf hp hi
  have payloadApart : ¬ (txBufAddr p i ≤ txDescAddr p i + k ∧ txDescAddr p i + k < txBufAddr p i + payload.length) := by
    omega
  simp only [queuedMem, transmitFields, cellRead_write, offStatus, offTxCmd, offLength, halfBytes_length,
    List.length_singleton, if_neg payloadApart]
  split_ifs <;> grind

/-- The queued slot's descriptor, whole (R150). -/
theorem cellReadN_queuedMem_desc {p : Params} {m : List Host.Cell} {i : Nat} {len : Half} {payload : List Byte} {d : TxDesc}
    (hp : p.admitted = true) (hi : i < p.nTx) (hpl : payload.length ≤ p.maxTx)
    (h : cellReadN m (txDescAddr p i) 16 = some (txDescBytes d)) :
    cellReadN (queuedMem p m i len payload d.cmd d.status) (txDescAddr p i) 16 =
      some (txDescBytes { d with length := len, cmd := setCmdEopRs d.cmd, status := clearDone d.status }) := by
  refine (cellReadN_eq_some _ _ _ _).mpr ⟨rfl, fun k hk => ?_⟩
  rw [cellRead_queuedMem_desc hp hi hpl m _ _ hk, cellRead_of_readN h k hk]
  interval_cases k <;> rfl

/-- The queued slot's buffer begins with the payload: the descriptor's bytes are elsewhere (R150, R52). -/
theorem cellReadN_queuedMem_buf {p : Params} {i : Nat} {payload : List Byte} (hp : p.admitted = true) (hi : i < p.nTx)
    (hpl : payload.length ≤ p.maxTx) (m : List Host.Cell) (len : Half) (c st : Byte) :
    cellReadN (queuedMem p m i len payload c st) (txBufAddr p i) payload.length = some payload := by
  have hb := txDesc_txBuf hp hi
  simp only [queuedMem, transmitFields, offStatus, offTxCmd, offLength]
  rw [cellReadN_write_other _ _ _ _ _ (by simp only [List.length_singleton]; omega),
    cellReadN_write_other _ _ _ _ _ (by simp only [List.length_singleton]; omega),
    cellReadN_write_other _ _ _ _ _ (by simp only [halfBytes_length]; omega)]
  exact cellReadN_write_self m _ payload

/-- Settles O34: the slot's `cmd` and `status` bytes are the descriptor's, so the bytes written spell the new one. -/
theorem transmitReadBack : Obligations.TransmitReadBack := by
  rintro s s' len _ d hinv hr rfl fits hd done he
  rw [txDesc_eq_some_iff] at hd
  have cmd : cellRead s.mem (txDescAddr s.cfg s.txTail.toNat + offTxCmd) = some d.cmd :=
    cellRead_of_readN hd 11 (by decide)
  have status : s.txStatus s.txTail.toNat = some d.status := cellRead_of_readN hd 12 (by decide)
  have free := txState_of_status status ((txStateOf_free d.status).mpr done)
  obtain ⟨c, st, cmd', status', rfl⟩ := exec_transmit_ok hinv hr fits free he
  cases cmd.symm.trans cmd'
  cases status.symm.trans status'
  obtain ⟨⟨hn, -⟩, -⟩ := inOrder_of_inv hinv (.inl hr.1)
  have hpl := takeBytes_length s.dataIn len.toNat s.draws
  refine ⟨?_, ?_, takeBytes_of_le _ _ _, rfl⟩
  · exact (txDesc_eq_some_iff _ _ _).mpr (cellReadN_queuedMem_desc hinv.1 hn (hpl.le.trans fits) hd)
  · have payload := cellReadN_queuedMem_buf hinv.1 hn (hpl.le.trans fits) s.mem len d.cmd d.status
    rw [hpl] at payload
    exact (if_pos fits).trans payload

/-! ### What no TRANSMIT changes -/

/-- From s to s' only fields TRANSMIT may write changed: of RegShadow the tail register, of memory the bytes where P
holds. -/
structure TransmitKeeps (s s' : State) (P : Nat → Prop) : Prop where
  fields : s' = { s with
    cmdCount := s'.cmdCount
    dataIn := s'.dataIn
    draws := s'.draws
    mem := s'.mem
    txTail := s'.txTail
    regShadow := s'.regShadow
    regLog := s'.regLog
    result := s'.result
    fault := s'.fault }
  shadow : ∀ idx, idx ≠ regTDT → s'.shadow idx = s.shadow idx
  mem : ∀ a, ¬ P a → cellRead s'.mem a = cellRead s.mem a

theorem transmitChecked_keeps (s : State) (len : Half) (payload : List Byte) :
    TransmitKeeps s (transmitChecked len payload s) (TransmitStores s.cfg s.txTail.toNat payload.length) := by
  have hend := transmitChecked_end len payload s
  generalize transmitChecked len payload s = r at hend
  cases hend with
  | tooLarge => exact ⟨rfl, fun _ _ => rfl, fun _ _ => rfl⟩
  | full => exact ⟨rfl, fun _ _ => rfl, fun _ _ => rfl⟩
  | fault f m hm =>
    obtain rfl | ⟨_, st, rfl, -, -, -, -, stores⟩ := hm
    · exact ⟨rfl, fun _ _ => rfl, fun _ _ => rfl⟩
    · exact ⟨rfl, fun _ _ => rfl, stores.same⟩
  | queued t st m u _ ht _ _ _ _ stores s'' hw =>
    subst ht
    rw [regWrite_ok hw]
    refine ⟨?_, fun idx hidx => putReg_shadow_other _ _ _ _ hidx, stores.same⟩
    rw [putReg_regTDT]
    rfl
  | lost t st m u _ ht _ _ _ stores =>
    subst ht
    exact ⟨rfl, fun _ _ => rfl, stores.same⟩

/-- On every path: no step, a fault before the tail is read, or the body (R236). -/
theorem exec_transmit_keeps {s s' : State} {len : Half} (he : exec (.transmit len) s = .next s') :
    TransmitKeeps s s' (TransmitStores s.cfg s.txTail.toNat len.toNat) := by
  cases he
  obtain ⟨-, e⟩ | ⟨f, -, e⟩ | ⟨-, e⟩ := runCommand_cases (admitRing s) (transmitBody len) s <;> rw [e]
  · exact ⟨rfl, fun _ _ => rfl, fun _ _ => rfl⟩
  · exact ⟨rfl, fun _ _ => rfl, fun _ _ => rfl⟩
  · have body := transmitChecked_keeps (portIn len.toNat s.beginCommand) len (portInBytes len.toNat s.beginCommand)
    rw [portInBytes_length] at body
    exact ⟨body.fields, body.shadow, body.mem⟩

/-- Settles O40: the next state is the old one but for what TRANSMIT may write. -/
theorem transmitFrame : Obligations.TransmitFrame := by
  intro s s' len he
  obtain ⟨e, shadow, mem⟩ := exec_transmit_keeps he
  rw [e]
  refine ⟨rfl, rfl, rfl, rfl, rfl, rfl, rfl, rfl, rfl, rfl, shadow, fun a hbuf hlen hcmd hstatus => mem a ?_⟩
  rintro (h | h | h | h)
  · exact hbuf h
  · exact hlen h
  · exact hcmd h
  · exact hstatus h

end Sys2Proof.Proofs

/-! SUPPORT. RECEIVE (spec/42_receive.md): its one return or fault for each status of the candidate, the state a taken frame
leaves, all that a RECEIVE in READY returns from a state in order (R176), and what no RECEIVE changes. -/

namespace Sys2Proof.Proofs

open Sys2Proof.Machine Sys2Proof.Laws

/-! ### The poll of the candidate -/

/-- The slot RECEIVE looks at: the one after the tail (R170, R173). -/
def rxCandidate (s : State) : Nat := nextIdx s.cfg.nRx s.rxTail.toNat

theorem rxCandidate_lt {s : State} (h : 0 < s.cfg.nRx) : rxCandidate s < s.cfg.nRx := Nat.mod_lt _ h

/-- The ring of an admitted instance has slots (R7). -/
theorem nRx_pos {p : Params} (hp : p.admitted = true) : 0 < p.nRx := by
  obtain ⟨-, -, nRx8, -⟩ := admitted_ranges hp
  omega

/-- In READY a RECEIVE is its meaning at the candidate, after the command is counted (R33, R236). -/
theorem exec_receive_running {s : State} (h : s.Running) :
    exec .receive s = .next (receiveCandidate (rxCandidate s) s.beginCommand) := by
  rw [← admitRing_executes] at h
  rw [exec, execReceive, h, runCommand]
  rfl

section Poll

variable {s : State} {c : Nat} {st : Byte} (hn : c < s.cfg.nRx) (hs : s.rxStatus c = some st)
include hn hs

/-- A device-owned candidate (R233). -/
theorem receiveCandidate_noPacket (hd : isDone st = false) : receiveCandidate c s = s.ret .noPacket 0#16 := by
  simp [receiveCandidate, Nat.not_le.mpr hn, hs, hd]

/-- A fragment at the candidate (R234). -/
theorem receiveCandidate_unsupportedFrame (hd : isDone st = true) (he : isEop st = false) :
    receiveCandidate c s = (s.setLife .halted).ret .unsupportedFrame 0#16 := by
  simp [receiveCandidate, Nat.not_le.mpr hn, hs, hd, he]

/-- A frame longer than its buffer (R170, R177). -/
theorem receiveCandidate_lengthOverflow {n : Half} (hd : isDone st = true) (he : isEop st = true)
    (hl : s.rxLength c = some n) (hx : s.cfg.rxBuf < n.toNat) : receiveCandidate c s = s.raise .deviceLengthOverflow := by
  simp [receiveCandidate, Nat.not_le.mpr hn, hs, hd, he, hl, hx]

end Poll

/-- Settles O44: with the command counted, it is the fragment case of the poll. -/
theorem receiveUnsupportedFrame : Obligations.ReceiveUnsupportedFrame := by
  rintro s _ st hr rfl hn hs hd he
  rw [exec_receive_running hr,
    receiveCandidate_unsupportedFrame (s := s.beginCommand) (rxCandidate_lt (s := s) hn) hs hd he]
  rfl

/-- Settles O45: the fault is taken before anything is written, and it is the first one. -/
theorem receiveLengthOverflow : Obligations.ReceiveLengthOverflow := by
  rintro s _ n st hr rfl hn hs hd he hl hx
  rw [exec_receive_running hr,
    receiveCandidate_lengthOverflow (s := s.beginCommand) (rxCandidate_lt (s := s) hn) hs hd he hl hx,
    State.raise, beginCommand_fault, hr.2]
  rfl

/-! ### The state a taken frame leaves -/

/-- The doorbell moves no head of the device: it names neither head register (R32, R171). -/
theorem putReg_regRDT (s : State) (v : Word) : s.putReg regRDT v = { s with
    regShadow := cellWrite s.regShadow regRDT [v]
    regLog := s.regLog ++ [⟨s.cmdCount, .wr regRDT v⟩] } := by
  rw [State.putReg, headAfter_other (by decide), headAfter_other (by decide)]

/-- The state after RECEIVE has handed out the n bytes of the candidate, whose status byte was st (R170). -/
def receiveTaken (s : State) (st : Byte) (n : Half) (bytes : List Byte) : State := { s with
  cmdCount := s.cmdCount + 1
  dataOut := s.dataOut ++ bytes
  mem := cellWrite s.mem (rxDescAddr s.cfg (rxCandidate s) + offStatus) [clearDoneEop st]
  rxTail := BitVec.ofNat 16 (rxCandidate s)
  regShadow := cellWrite s.regShadow regRDT [(BitVec.ofNat 16 (rxCandidate s)).setWidth 32]
  regLog := s.regLog ++ [⟨s.cmdCount + 1, .wr regRDT ((BitVec.ofNat 16 (rxCandidate s)).setWidth 32)⟩]
  result := resultWord .ok n }

theorem exec_receive_taken {s : State} {st : Byte} {n : Half} {bytes : List Byte} (hr : s.Running)
    (hp : s.cfg.admitted = true) (hs : s.rxStatus (rxCandidate s) = some st) (hd : isDone st = true)
    (he : isEop st = true) (hl : s.rxLength (rxCandidate s) = some n) (hx : n.toNat ≤ s.cfg.rxBuf)
    (hb : s.rxBufBytes (rxCandidate s) n.toNat = some bytes) :
    exec .receive s = .next (receiveTaken s st n bytes) := by
  have taken := receiveBody_taken (s := s.beginCommand) hp rfl hs hd he hl hx hb
  rw [putReg_regRDT] at taken
  exact (exec_receive_running hr).trans (congrArg _ taken)

/-- Settles O41: the state with its definitions unfolded is the statement's. -/
theorem receiveTakesFrame : Obligations.ReceiveTakesFrame := by
  rintro s _ n _ st bytes hr hp rfl rfl hs hd he hl hx hb
  exact exec_receive_taken hr hp hs hd he hl hx ((if_pos hx).trans hb)

/-! ### All that a RECEIVE in READY returns -/

/-- What RECEIVE reads of the candidate holds values once the slots are in order, and its length fits its buffer (R83). -/
theorem InOrder.candidate {s : State} (hn : 0 < s.cfg.nRx) (h : InOrder s) :
    ∃ st n bytes, s.rxStatus (rxCandidate s) = some st ∧ s.rxLength (rxCandidate s) = some n ∧ n.toNat ≤ s.cfg.rxBuf ∧
      s.rxBufBytes (rxCandidate s) n.toNat = some bytes := by
  have hc := rxCandidate_lt hn
  obtain ⟨-, -, ⟨-, written⟩, -, fits⟩ := h
  have desc : ∀ k, k < 16 → (cellRead s.mem (rxDescAddr s.cfg (rxCandidate s) + k)).isSome :=
    fun k hk => written _ _ hc (inRxSlot_desc _ k hk)
  obtain ⟨st, hs⟩ := Option.isSome_iff_exists.mp (desc offStatus (by decide))
  obtain ⟨n, hl⟩ := readHalf_isSome (desc offLength (by decide)) (desc (offLength + 1) (by decide))
  have hx := fits _ n hc hl
  obtain ⟨bytes, hb⟩ := cellReadN_isSome s.mem (rxBufAddr s.cfg (rxCandidate s)) n.toNat fun k hk =>
    written _ _ hc (.inr ⟨Nat.le_add_right _ k, by omega⟩)
  exact ⟨st, n, bytes, hs, hl, hx, (if_pos hx).trans hb⟩

/-- The returns of RECEIVE with their conditions (R170, R233, R234). -/
inductive ReceiveReturns (s : State) : State → Prop where
  | noPacket (empty : s.rxState (rxCandidate s) = some .empty) : ReceiveReturns s (s.beginCommand.ret .noPacket 0#16)
  | unsupportedFrame (frag : s.rxState (rxCandidate s) = some .frag) :
      ReceiveReturns s ((s.beginCommand.setLife .halted).ret .unsupportedFrame 0#16)
  | ok (st : Byte) (n : Half) (bytes : List Byte) (full : s.rxState (rxCandidate s) = some .full)
      (length : s.rxLength (rxCandidate s) = some n) (buffer : s.rxBufBytes (rxCandidate s) n.toNat = some bytes) :
      ReceiveReturns s (receiveTaken s st n bytes)

theorem exec_receive_returns {s s' : State} (hinv : s.Inv) (hr : s.Running) (h : exec .receive s = .next s') :
    ReceiveReturns s s' := by
  have hn := nRx_pos hinv.1
  have hc := rxCandidate_lt hn
  obtain ⟨st, n, bytes, hs, hl, hx, hb⟩ := (inOrder_of_inv hinv (.inl hr.1)).candidate hn
  cases hd : isDone st with
  | false =>
    rw [exec_receive_running hr, receiveCandidate_noPacket (s := s.beginCommand) hc hs hd] at h
    cases h
    exact .noPacket (rxState_of_status hs ((rxStateOf_empty st).mpr hd))
  | true =>
    cases he : isEop st with
    | false =>
      rw [exec_receive_running hr, receiveCandidate_unsupportedFrame (s := s.beginCommand) hc hs hd he] at h
      cases h
      exact .unsupportedFrame (rxState_of_status hs ((rxStateOf_frag st).mpr ⟨hd, he⟩))
    | true =>
      rw [exec_receive_taken hr hinv.1 hs hd he hl hx hb] at h
      cases h
      exact .ok st n bytes (rxState_of_status hs ((rxStateOf_full st).mpr ⟨hd, he⟩)) hl hb

/-- The CODE field of a result word (R106). -/
theorem resultWord_code (c : ResultCode) (rlen : Half) : (resultWord c rlen).extractLsb' 0 8 = resultCode c := by
  apply BitVec.eq_of_getLsbD_eq
  intro i hi
  rw [BitVec.getLsbD_extractLsb', resultWord, BitVec.getLsbD_append, BitVec.getLsbD_append]
  simp [hi, show i < 16 by omega]

theorem resultWord_code_ok_iff (c : ResultCode) (rlen : Half) :
    (resultWord c rlen).extractLsb' 0 8 = 0x00#8 ↔ c = .ok := by
  rw [resultWord_code]
  cases c <;> decide

/-- Settles O46: an error has its own result code and logs nothing; a taken frame logs its doorbell. -/
theorem receiveRegisterTraffic : Obligations.ReceiveRegisterTraffic := by
  intro s s' hinv hr h
  cases exec_receive_returns hinv hr h with
  | noPacket => exact ⟨fun ok => absurd ((resultWord_code_ok_iff _ _).mp ok) nofun, fun _ => rfl⟩
  | unsupportedFrame => exact ⟨fun ok => absurd ((resultWord_code_ok_iff _ _).mp ok) nofun, fun _ => rfl⟩
  | ok _ n => exact ⟨fun _ => rfl, fun failed => absurd (resultWord_code .ok n) failed⟩

/-- Settles O47: each return has its result code, and a fragment alone moves the lifecycle. -/
theorem receiveAlwaysReturns : Obligations.ReceiveAlwaysReturns := by
  intro s hinv hr
  obtain ⟨s', h⟩ := exec_next .receive s
  refine ⟨s', h, ?_⟩
  cases exec_receive_returns hinv hr h with
  | noPacket => exact ⟨hr.2, .inr (.inl ⟨rfl, hr.1⟩)⟩
  | unsupportedFrame => exact ⟨hr.2, .inr (.inr ⟨rfl, rfl⟩)⟩
  | ok _ n => exact ⟨hr.2, .inl ⟨resultWord_code .ok n, hr.1⟩⟩

/-- A RECEIVE with a full candidate takes its frame (R175). -/
theorem exec_receive_full {s s' : State} (hinv : s.Inv) (hr : s.Running) (full : s.rxState (rxCandidate s) = some .full)
    (h : exec .receive s = .next s') :
    ∃ st n bytes, s.rxLength (rxCandidate s) = some n ∧ s.rxBufBytes (rxCandidate s) n.toNat = some bytes ∧
      s' = receiveTaken s st n bytes := by
  cases exec_receive_returns hinv hr h with
  | noPacket empty => exact nomatch full.symm.trans empty
  | unsupportedFrame frag => exact nomatch full.symm.trans frag
  | ok st n bytes _ length buffer => exact ⟨st, n, bytes, length, buffer, rfl⟩

/-- A buffer is read whole or not at all (R29). -/
theorem rxBufBytes_length {s : State} {i n : Nat} {bytes : List Byte} (h : s.rxBufBytes i n = some bytes) :
    bytes.length = n := by
  rw [State.rxBufBytes, Option.ite_none_right_eq_some] at h
  exact ((cellReadN_eq_some _ _ _ _).mp h.2).1

/-- Settles O42: the one byte stored is the candidate's status byte, which lies in no other slot. -/
theorem receiveEffect : Obligations.ReceiveEffect := by
  rintro s s' _ _ hinv hr rfl rfl full h
  obtain ⟨st, n, bytes, length, buffer, rfl⟩ := exec_receive_full hinv hr full h
  have hp := hinv.1
  have hc := rxCandidate_lt (nRx_pos hp)
  have stores := memStep_rxStatus (p := s.cfg) s.mem (rxCandidate s) (clearDoneEop st)
  have inCandidate := rxStatus_inRxSlot (p := s.cfg) (rxCandidate s)
  refine ⟨?_, fun i hi hne => ?_, fun i hi => ?_, rfl, rfl, n, bytes, length, buffer, rxBufBytes_length buffer, rfl, rfl⟩
  · exact rxState_of_status (cellRead_write_one _ _ _) ((rxStateOf_empty _).mpr (isDone_clearDoneEop st))
  · exact congrArg (Option.map rxStateOf)
      (memStep_otherRxSlot stores inCandidate hp hc hi hne (rxStatus_inRxSlot i _ rfl))
  · exact congrArg (Option.map txStateOf)
      (stores.same _ fun e => txSlot_rxSlot hp hi hc (txStatus_inTxSlot i _ rfl) (inCandidate _ e))

/-! ### What no RECEIVE changes -/

/-- From s to s' only fields RECEIVE may write changed: of RegShadow the tail register, of memory the candidate's status
byte. -/
structure ReceiveKeeps (s s' : State) : Prop where
  fields : s' = { s with
    life := s'.life
    rxTail := s'.rxTail
    result := s'.result
    mem := s'.mem
    regShadow := s'.regShadow
    regLog := s'.regLog
    fault := s'.fault
    cmdCount := s'.cmdCount
    dataOut := s'.dataOut }
  shadow : ∀ idx, idx ≠ regRDT → s'.shadow idx = s.shadow idx
  mem : ∀ a, a ≠ rxDescAddr s.cfg (rxCandidate s) + offStatus → cellRead s'.mem a = cellRead s.mem a

theorem receiveBody_keeps (s : State) : ReceiveKeeps s (receiveBody s) := by
  have hend := receiveBody_end s
  generalize receiveBody s = r at hend
  cases hend with
  | empty => exact ⟨rfl, fun _ _ => rfl, fun _ _ => rfl⟩
  | frag => exact ⟨rfl, fun _ _ => rfl, fun _ _ => rfl⟩
  | fault => exact ⟨rfl, fun _ _ => rfl, fun _ _ => rfl⟩
  | lost _ _ st _ ht hc =>
    subst ht hc
    exact ⟨rfl, fun _ _ => rfl, (memStep_rxStatus s.mem _ (clearDoneEop st)).same⟩
  | taken _ _ st _ _ ht hc =>
    subst ht hc
    refine ⟨?_, fun idx hidx => putReg_shadow_other _ _ _ _ hidx, (memStep_rxStatus s.mem _ (clearDoneEop st)).same⟩
    rw [putReg_regRDT]
    rfl

/-- On every path: no step, a fault before the tail is read, or the body (R236). -/
theorem exec_receive_keeps {s s' : State} (h : exec .receive s = .next s') : ReceiveKeeps s s' := by
  cases h
  obtain ⟨-, e⟩ | ⟨f, -, e⟩ | ⟨-, e⟩ := runCommand_cases (admitRing s) receiveBody s <;> rw [e]
  · exact ⟨rfl, fun _ _ => rfl, fun _ _ => rfl⟩
  · exact ⟨rfl, fun _ _ => rfl, fun _ _ => rfl⟩
  · obtain ⟨fields, shadow, mem⟩ := receiveBody_keeps s.beginCommand
    exact ⟨fields, shadow, mem⟩

/-- Settles O48: the next state is the old one but for what RECEIVE may write. -/
theorem receiveFrame : Obligations.ReceiveFrame := by
  intro s s' h
  obtain ⟨fields, shadow, mem⟩ := exec_receive_keeps h
  rw [fields]
  exact ⟨rfl, rfl, rfl, rfl, rfl, rfl, rfl, rfl, rfl, rfl, shadow, mem⟩

end Sys2Proof.Proofs

/-! SUPPORT. ATTACH (spec/43_attach.md R190–R194): the state its register writes leave, its completion and its stop at an
extra write outside the window, the slots it makes, and what no ATTACH changes. -/

namespace Sys2Proof.Proofs

open Sys2Proof.Machine Sys2Proof.Laws

/-! ### The state after register writes -/

/-- All that register writes in the window change: RegShadow, RegLog and, under ring, the heads (R31, R32). -/
theorem putRegAll_eq (ws : List (Nat × Word)) (s : State) : ∃ (shadow : List (Nat × Word)) (th rh : Half),
    putRegAll ws s = { s with
      regShadow := shadow
      regLog := s.regLog ++ wrLog s.cmdCount ws
      txHead := th
      rxHead := rh } ∧
    (s.cfg.order = .free → th = s.txHead ∧ rh = s.rxHead) := by
  induction ws generalizing s with
  | nil => exact ⟨_, _, _, by rw [wrLog, List.map_nil, List.append_nil]; rfl, fun _ => ⟨rfl, rfl⟩⟩
  | cons w ws ih =>
    obtain ⟨shadow, th, rh, e, heads⟩ := ih (s.putReg w.1 w.2)
    refine ⟨shadow, th, rh, ?_, fun free => ?_⟩
    · rw [putRegAll, e, putReg_regLog, List.append_assoc]
      rfl
    · obtain ⟨rfl, rfl⟩ := heads free
      rw [putReg_txHead, putReg_rxHead, free]
      exact ⟨rfl, rfl⟩

/-- The state once ATTACH has read STATUS (R190). -/
def attachPolled (s : State) : State := (s.drew 1).logReg (.rd regSTATUS (Config.freeStatus s.draws))

/-- The state once ATTACH has also made rings, pools and cursors, and the register writes ws (R191). -/
def attachWritten (ws : List (Nat × Word)) (s : State) : State := putRegAll ws (attachRings (attachPolled s))

/-- That state, field by field: only RegShadow and, under ring, the heads are left open. -/
theorem attachWritten_eq (ws : List (Nat × Word)) (s : State) : ∃ (shadow : List (Nat × Word)) (th rh : Half),
    attachWritten ws s = { s with
      txTail := 0#16
      rxTail := BitVec.ofNat 16 (s.cfg.nRx - 1)
      mem := initMem s.cfg s.mem
      regShadow := shadow
      regLog := s.regLog ++ (RegOp.rd regSTATUS (Config.freeStatus s.draws) :: ws.map fun w => RegOp.wr w.1 w.2).map
        (fun op => RegEntry.mk s.cmdCount op)
      txHead := th
      rxHead := rh
      draws := s.draws + 1 } ∧
    (s.cfg.order = .free → th = s.txHead ∧ rh = s.rxHead) := by
  obtain ⟨shadow, th, rh, e, heads⟩ := putRegAll_eq ws (attachRings (attachPolled s))
  refine ⟨shadow, th, rh, ?_, heads⟩
  rw [attachWritten, e, attachRings_regLog, attachPolled, logReg_regLog, List.append_assoc, List.map_cons, List.map_map]
  rfl

theorem attachWritten_cfg (ws : List (Nat × Word)) (s : State) : (attachWritten ws s).cfg = s.cfg := by
  obtain ⟨shadow, th, rh, e, -⟩ := attachWritten_eq ws s
  rw [e]

/-! ### ATTACH that runs to its end, or to an extra write outside the window -/

/-- In UNATTACHED an ATTACH is its meaning, after the command is counted (R33, R236). -/
theorem exec_attach_unattached {s : State} (hl : s.life = .unattached) (hf : s.fault = none) :
    exec .attach s = .next (attachDraw s.beginCommand) := by
  rw [exec, execAttach, (admitAttach_executes s).mpr ⟨hl, hf⟩]
  rfl

/-- STATUS is in an admitted instance's window, and its read is logged (R60, R190). -/
theorem regRead_polled {s : State} (hp : s.cfg.admitted = true) :
    regRead regSTATUS (Config.freeStatus s.draws) (s.drew 1) = .ok (attachPolled s) :=
  regRead_admitted (s := s.drew 1) hp (by decide)

/-- Register writes in the window are made, and the run goes on with the rest. -/
theorem regWriteAll_append {ws : List (Nat × Word)} {s : State} (h : ∀ w ∈ ws, w.1 < s.cfg.regCount)
    (us : List (Nat × Word)) : regWriteAll (ws ++ us) s = regWriteAll us (putRegAll ws s) := by
  induction ws generalizing s with
  | nil => rfl
  | cons w ws ih =>
    obtain ⟨hw, hws⟩ := List.forall_mem_cons.mp h
    rw [List.cons_append, regWriteAll, regWrite, if_pos hw]
    exact ih hws

theorem regWriteAll_attachWritten {ws : List (Nat × Word)} {s : State} (h : ∀ w ∈ ws, w.1 < s.cfg.regCount)
    (us : List (Nat × Word)) :
    regWriteAll (ws ++ us) (attachRings (attachPolled s)) = regWriteAll us (attachWritten ws s) :=
  regWriteAll_append (s := attachRings (attachPolled s)) h us

/-- The ring, TCTL and TIPG writes are in an admitted instance's window (R6, D39). -/
theorem ringWrites_inWindow {p : Params} (hp : p.admitted = true) : ∀ w ∈ ringWrites p, w.1 < p.regCount := by
  obtain ⟨-, -, -, -, -, -, -, -, -, -, window⟩ := admitted_ranges hp
  have own : ∀ w ∈ ringWrites p, w.1 ≤ 0xE06 := by
    simp [ringWrites, regTDBAL, regTDBAH, regTDLEN, regTDH, regTDT, regTCTL, regTIPG, regRDBAL, regRDBAH, regRDLEN, regRDH,
      regRDT]
  exact fun w hw => Nat.lt_of_le_of_lt (own w hw) window

theorem attachWrites_inWindow {p : Params} (hp : p.admitted = true) (hx : ∀ w ∈ p.extra, w.1 < p.regCount) :
    ∀ w ∈ attachWrites p, w.1 < p.regCount := by
  obtain ⟨-, -, -, -, -, -, -, -, -, -, window⟩ := admitted_ranges hp
  have rctl : ∀ w ∈ [(regRCTL, p.rctlVal)], w.1 < p.regCount := by
    simp only [List.forall_mem_singleton, regRCTL]
    omega
  exact List.forall_mem_append.mpr ⟨List.forall_mem_append.mpr ⟨ringWrites_inWindow hp, hx⟩, rctl⟩

section Passed

variable {s : State} (hp : s.cfg.admitted = true) (hw : Config.freeStatus s.draws ∈ s.cfg.attachOk)
include hp hw

/-- Once the identity check passes, how the register writes end is how ATTACH ends (R191). -/
theorem attachDraw_of_ok {t : State} (ht : regWriteAll (attachWrites s.cfg) (attachRings (attachPolled s)) = .ok t) :
    attachDraw s = (t.setLife .ready).ret .ok 0#16 := by
  simp [attachDraw, attachBody, regRead_polled hp, hw, ht]

theorem attachDraw_of_error {t : State}
    (ht : regWriteAll (attachWrites s.cfg) (attachRings (attachPolled s)) = .error t) : attachDraw s = t := by
  simp [attachDraw, attachBody, regRead_polled hp, hw, ht]

/-- Every write is in the window. -/
theorem attachDraw_completes (hx : ∀ w ∈ s.cfg.extra, w.1 < s.cfg.regCount) :
    attachDraw s = ((attachWritten (attachWrites s.cfg) s).setLife .ready).ret .ok 0#16 := by
  have made := regWriteAll_attachWritten (attachWrites_inWindow hp hx) []
  rw [List.append_nil] at made
  exact attachDraw_of_ok hp hw made

/-- An extra write is the first one outside the window (R51). -/
theorem attachDraw_stops {pre post : List (Nat × Word)} {idx : Nat} {v : Word}
    (hs : s.cfg.extra = pre ++ (idx, v) :: post) (hpre : ∀ w ∈ pre, w.1 < s.cfg.regCount) (hi : s.cfg.regCount ≤ idx) :
    attachDraw s = (attachWritten (ringWrites s.cfg ++ pre) s).raise .regOutOfRange := by
  have cut : attachWrites s.cfg = (ringWrites s.cfg ++ pre) ++ (idx, v) :: (post ++ [(regRCTL, s.cfg.rctlVal)]) := by
    simp [attachWrites, hs]
  have outside : ¬ idx < (attachWritten (ringWrites s.cfg ++ pre) s).cfg.regCount := by
    rw [attachWritten_cfg]
    exact Nat.not_lt.mpr hi
  refine attachDraw_of_error hp hw ?_
  rw [cut, regWriteAll_attachWritten (List.forall_mem_append.mpr ⟨ringWrites_inWindow hp, hpre⟩), regWriteAll, regWrite,
    if_neg outside]

end Passed

/-- Settles O26: the writes leave the statement's state, and RegLog is ATTACH's writes listed in R191's order. -/
theorem attachSucceeds : Obligations.AttachSucceeds := by
  intro s hl hf hp hw hx
  obtain ⟨shadow, th, rh, e, heads⟩ := attachWritten_eq (attachWrites s.cfg) s.beginCommand
  refine ⟨_, exec_attach_unattached hl hf, ?_⟩
  rw [attachDraw_completes (s := s.beginCommand) hp hw hx, beginCommand_cfg, e]
  refine ⟨rfl, rfl, hf, rfl, rfl, rfl, rfl, rfl, ?_, rfl, rfl, rfl, rfl, rfl, rfl, rfl, heads⟩
  have order : (attachWrites s.cfg).map (fun w => RegOp.wr w.1 w.2) = (ringWrites s.cfg).map (fun w => RegOp.wr w.1 w.2) ++
      s.cfg.extra.map (fun w => RegOp.wr w.1 w.2) ++ [RegOp.wr regRCTL s.cfg.rctlVal] := by
    rw [attachWrites, List.map_append, List.map_append]
    rfl
  rw [order]
  rfl

/-- Settles O30: the run of writes stops at the extra write, with the ring writes and the extra ones before it made. -/
theorem attachExtraOutOfWindow : Obligations.AttachExtraOutOfWindow := by
  intro s pre post idx v hl hf hp hw hs hpre hi
  obtain ⟨shadow, th, rh, e, -⟩ := attachWritten_eq (ringWrites s.cfg ++ pre) s.beginCommand
  refine ⟨_, exec_attach_unattached hl hf, ?_⟩
  rw [attachDraw_stops (s := s.beginCommand) hp hw hs hpre hi, beginCommand_cfg, e]
  refine ⟨?_, hl, rfl, rfl, rfl, rfl⟩
  rw [raise_fault, beginCommand_fault, hf]
  rfl

/-! ### The slots an ATTACH makes -/

/-- An ATTACH in UNATTACHED that ends READY has made rings and pools (R191, R192). -/
theorem exec_attach_ready {s t : State} (hl : s.life = .unattached) (h : exec .attach s = .next t)
    (ready : t.life = .ready) : t.cfg = s.cfg ∧ t.mem = initMem s.cfg s.mem := by
  have unattached : ¬ (Life.unattached = Life.ready) := nofun
  cases h
  obtain ⟨-, e⟩ | ⟨f, -, e⟩ | ⟨-, e⟩ := runCommand_cases (admitAttach s) attachDraw s <;> rw [e] at ready ⊢
  · exact absurd (hl.symm.trans ready) unattached
  · exact absurd (hl.symm.trans ready) unattached
  · obtain ⟨u, polled, attached⟩ := attachDraw_attached (t := s.beginCommand) hl (.inl ready)
    obtain ⟨⟨cfg, -, -, -, -, mem, -⟩, -⟩ := putRegAll_same (attachWrites u.cfg) (attachRings u)
    rw [attached.cfg, attached.mem, cfg, mem, attachRings_cfg, attachRings_mem, polled.cfg, polled.mem]
    exact ⟨rfl, rfl⟩

/-- Settles O28: memory is the rings and pools made, read slot by slot. -/
theorem attachMakesRings : Obligations.AttachMakesRings := by
  intro s t hp hl h ready
  obtain ⟨cfg, mem⟩ := exec_attach_ready hl h ready
  obtain ⟨tx, rx⟩ := initMem_read hp s.mem
  obtain ⟨txStatus, rxStatus⟩ := initMem_status hp s.mem
  refine ⟨fun i hi => ?_, fun i hi => ?_⟩
  · obtain ⟨desc, buf⟩ := tx i hi
    rw [State.txDesc, State.txBufBytes, State.txState, State.txStatus, cfg, mem, desc, if_pos (Nat.le_refl _), buf,
      txStatus i hi]
    exact ⟨txDescOfBytes_txDescBytes _, rfl, rfl⟩
  · obtain ⟨desc, buf⟩ := rx i hi
    rw [State.rxDesc, State.rxBufBytes, State.rxState, State.rxStatus, cfg, mem, desc, if_pos (Nat.le_refl _), buf,
      rxStatus i hi]
    exact ⟨rxDescOfBytes_rxDescBytes _, rfl, rfl⟩

/-! ### What no ATTACH changes -/

/-- From s to s' only fields ATTACH may write changed: the heads under ring only, of memory bytes of the slots. -/
structure AttachKeeps (s s' : State) : Prop where
  fields : s' = { s with
    life := s'.life
    txTail := s'.txTail
    rxTail := s'.rxTail
    result := s'.result
    mem := s'.mem
    regShadow := s'.regShadow
    regLog := s'.regLog
    txHead := s'.txHead
    rxHead := s'.rxHead
    fault := s'.fault
    cmdCount := s'.cmdCount
    draws := s'.draws }
  heads : s.cfg.order = .free → s'.txHead = s.txHead ∧ s'.rxHead = s.rxHead
  mem : ∀ a, ¬ ((∃ i, i < s.cfg.nTx ∧ InTxSlot s.cfg i a) ∨ (∃ i, i < s.cfg.nRx ∧ InRxSlot s.cfg i a)) →
    cellRead s'.mem a = cellRead s.mem a

theorem attachWritten_keeps (ws : List (Nat × Word)) (s : State) : AttachKeeps s (attachWritten ws s) := by
  obtain ⟨shadow, th, rh, e, heads⟩ := attachWritten_eq ws s
  rw [e]
  exact ⟨rfl, heads, (memStep_initMem s.mem).same⟩

theorem attachDraw_keeps (s : State) : AttachKeeps s (attachDraw s) := by
  have hend := attachBody_end (Config.freeStatus s.draws) (s.drew 1)
  unfold attachDraw
  generalize attachBody (Config.freeStatus s.draws) (s.drew 1) = r at hend
  cases hend with
  | blind => exact ⟨rfl, fun _ => ⟨rfl, rfl⟩, fun _ _ => rfl⟩
  | failed => exact ⟨rfl, fun _ => ⟨rfl, rfl⟩, fun _ _ => rfl⟩
  | stopped _ _ pre =>
    obtain ⟨fields, heads, mem⟩ := attachWritten_keeps pre s
    exact ⟨congrArg (State.raise · .regOutOfRange) fields, heads, mem⟩
  | attached =>
    obtain ⟨fields, heads, mem⟩ := attachWritten_keeps (attachWrites s.cfg) s
    exact ⟨congrArg (fun t => (t.setLife .ready).ret .ok 0#16) fields, heads, mem⟩

/-- On every path: no step, ReAttach, or the body (R236). -/
theorem exec_attach_keeps {s s' : State} (h : exec .attach s = .next s') : AttachKeeps s s' := by
  cases h
  obtain ⟨-, e⟩ | ⟨f, -, e⟩ | ⟨-, e⟩ := runCommand_cases (admitAttach s) attachDraw s <;> rw [e]
  · exact ⟨rfl, fun _ => ⟨rfl, rfl⟩, fun _ _ => rfl⟩
  · exact ⟨rfl, fun _ => ⟨rfl, rfl⟩, fun _ _ => rfl⟩
  · obtain ⟨fields, heads, mem⟩ := attachDraw_keeps s.beginCommand
    exact ⟨fields, heads, mem⟩

/-- Settles O31: the next state is the old one but for what ATTACH may write. -/
theorem attachFrame : Obligations.AttachFrame := by
  intro s t h
  obtain ⟨fields, heads, mem⟩ := exec_attach_keeps h
  rw [fields]
  refine ⟨rfl, rfl, rfl, rfl, rfl, rfl, rfl, heads, fun a inTx inRx => mem a ?_⟩
  rintro (⟨i, hi, ha⟩ | ⟨i, hi, ha⟩)
  · exact inTx i hi ha
  · exact inRx i hi ha

end Sys2Proof.Proofs

/-! SUPPORT. The device's events (spec/44_device_agent.md R213–R216): each as its step or as no step, the state an enabled
event leaves, what DEV_RXFILL leaves in its slot, and what no event changes. -/

namespace Sys2Proof.Proofs

open Sys2Proof.Machine Sys2Proof.Laws

/-! ### The guards and the order of the device -/

/-- R216's conjunct, in words: free order asks nothing; ring order asks for the head's slot, not the tail register's. -/
theorem orderAllows_iff (order : DeviceOrder) (head : Half) (tailReg : Option Word) (slot : Half) :
    orderAllows order head tailReg slot = true ↔ order = .free ∨ head = slot ∧ tailReg ≠ some (slot.setWidth 32) := by
  cases order <;> simp [orderAllows]

/-- Under ring order an allowed event is at the head, so the head moves to the successor of its slot (R213, R214). -/
theorem headAdvance_of_allowed {order : DeviceOrder} {head slot : Half} {tailReg : Option Word} (n : Nat) :
    order = .free ∨ head = slot ∧ tailReg ≠ some (slot.setWidth 32) →
    headAdvance order n head = match order with
      | .free => head
      | .ring => nextCursor n slot := by
  rintro (rfl | ⟨rfl, -⟩)
  · rfl
  · cases order <;> rfl

theorem exec_devTxdone_enabled {slot : Half} {s : State} (h : txDoneEnabled slot s = true) :
    exec (.devTxdone slot) s = .next (txDoneStep slot s) := by
  rw [exec, execDevTxdone, if_pos h]

theorem exec_devTxdone_disabled {slot : Half} {s : State} (h : ¬ txDoneEnabled slot s = true) :
    exec (.devTxdone slot) s = .next s := by
  rw [exec, execDevTxdone, if_neg h]

theorem exec_devRxfill_enabled {slot l : Half} {s : State} (e : Bool) (h : rxFillEnabled slot l s = true) :
    exec (.devRxfill slot e l) s = .next (rxFillStep slot e l s) := by
  rw [exec, execDevRxfill, if_pos h]

theorem exec_devRxfill_disabled {slot l : Half} {s : State} (e : Bool) (h : ¬ rxFillEnabled slot l s = true) :
    exec (.devRxfill slot e l) s = .next s := by
  rw [exec, execDevRxfill, if_neg h]

/-- Neither UNATTACHED nor FAILED is an attached state (R212). -/
theorem life_of_attached {s : State} (h : s.Attached) : s.life ≠ .unattached ∧ s.life ≠ .failed := by
  obtain e | e := h <;> rw [e] <;> exact ⟨nofun, nofun⟩

/-- Under ring order no event away from the head is allowed, and none at the slot the tail register names (R216). -/
theorem not_orderAllows {order : DeviceOrder} {head slot : Half} {tailReg : Option Word} (ring : order = .ring)
    (stopped : head ≠ slot ∨ tailReg = some (slot.setWidth 32)) : ¬ orderAllows order head tailReg slot = true := by
  rw [orderAllows_iff, ring]
  rintro (free | ⟨atHead, notTail⟩)
  · exact nomatch free
  · exact stopped.elim (· atHead) notTail

/-- Settles O52: each way of failing contradicts one conjunct of the guard. -/
theorem disabledEventChangesNothing : Obligations.DisabledEventChangesNothing := by
  refine ⟨fun s slot h => exec_devTxdone_disabled fun enabled => ?_,
    fun s slot l e h => exec_devRxfill_disabled e fun enabled => ?_⟩
  · obtain ⟨attached, inRing, ⟨st, status, owned⟩, allowed⟩ := (txDoneEnabled_iff slot s).mp enabled
    obtain life | life | outside | ⟨st', status', done⟩ | ⟨ring, stopped⟩ := h
    · exact (life_of_attached attached).1 life
    · exact (life_of_attached attached).2 life
    · exact absurd inRing (Nat.not_lt.mpr outside)
    · cases status.symm.trans status'
      exact Bool.false_ne_true (owned.symm.trans done)
    · exact not_orderAllows ring stopped allowed
  · obtain ⟨attached, inRing, ⟨st, status, owned⟩, fits, allowed⟩ := (rxFillEnabled_iff slot l s).mp enabled
    obtain life | life | outside | long | ⟨st', status', done⟩ | ⟨ring, stopped⟩ := h
    · exact (life_of_attached attached).1 life
    · exact (life_of_attached attached).2 life
    · exact absurd inRing (Nat.not_lt.mpr outside)
    · exact absurd fits (Nat.not_le.mpr long)
    · cases status.symm.trans status'
      exact Bool.false_ne_true (owned.symm.trans done)
    · exact not_orderAllows ring stopped allowed

/-! ### The state an enabled event leaves -/

/-- The frame of a slot whose length and buffer bytes can be read (R218). -/
theorem txFrame_of_read {s : State} {i : Nat} {n : Half} {frame : List Byte} (length : s.txLength i = some n)
    (fits : n.toNat ≤ s.cfg.maxTx) (bytes : cellReadN s.mem (txBufAddr s.cfg i) n.toNat = some frame) :
    txFrame s i = some frame := by
  rw [txFrame, length]
  exact (if_pos fits).trans bytes

theorem txDoneStep_of_frame {slot : Half} {s : State} {frame : List Byte} (h : txFrame s slot.toNat = some frame) :
    txDoneStep slot s = txDoneWith slot frame 1 s := by
  obtain ⟨frame', n, e, unique⟩ := txDoneStep_cases slot s
  obtain ⟨rfl, rfl⟩ := unique frame h
  exact e

/-- Settles O49: the guard holds, the slot's frame is sent, and status byte and head are the statement's. -/
theorem txdoneCompletes : Obligations.TxdoneCompletes := by
  intro s slot n st frame attached inRing status owned order length fits bytes
  have enabled : txDoneEnabled slot s = true := (txDoneEnabled_iff slot s).mpr
    ⟨attached, inRing, ⟨st, status, owned⟩, (orderAllows_iff ..).mpr order⟩
  rw [exec_devTxdone_enabled enabled, txDoneStep_of_frame (txFrame_of_read length fits bytes), txDoneWith,
    txDoneStatus_eq, headAdvance_of_allowed _ order]
  rfl

/-- Settles O50: the guard holds, memory is `rxFillMem`, and status byte and head are the statement's. -/
theorem rxfillDeposits : Obligations.RxfillDeposits := by
  intro s slot l e st attached inRing status owned fits order
  have enabled : rxFillEnabled slot l s = true := (rxFillEnabled_iff slot l s).mpr
    ⟨attached, inRing, ⟨st, status, owned⟩, fits, (orderAllows_iff ..).mpr order⟩
  rw [exec_devRxfill_enabled e enabled, rxFillStep, rxFillMem, rxFillStatus_eq, headAdvance_of_allowed _ order]
  rfl

/-! ### The slot DEV_RXFILL filled -/

/-- The buffer begins with the event's bytes, where it brought them all (R214, log 9). -/
theorem rxFillBytes_take {data : List Byte} {l : Nat} (h : l ≤ data.length) (size d : Nat) :
    (rxFillBytes data l size d).take l = data.take l := by
  rw [rxFillBytes, List.take_left' (takeBytes_length data l d), takeBytes_of_le data l d h]

/-- The slot's status byte, length and bytes after DEV_RXFILL (R214). -/
theorem rxFillStep_slot {slot l : Half} (e : Bool) {s : State} (hp : s.cfg.admitted = true)
    (enabled : rxFillEnabled slot l s = true) :
    (rxFillStep slot e l s).rxStatus slot.toNat = some (rxFillStatus (Config.freeRxStatus s.draws) e) ∧
    (rxFillStep slot e l s).rxLength slot.toNat = some l ∧
    (l.toNat ≤ s.devData.length →
      (rxFillStep slot e l s).rxBufBytes slot.toNat l.toNat = some (s.devData.take l.toNat)) := by
  obtain ⟨-, inRing, -, fits, -⟩ := (rxFillEnabled_iff slot l s).mp enabled
  obtain ⟨status, length, buffer⟩ := rxFillMem_reads hp s.mem slot.toNat e l s.devData s.draws inRing fits
  rw [State.rxStatus, State.rxLength, State.rxBufBytes, rxFillStep_cfg, rxFillStep_mem]
  refine ⟨status, length, fun brought => ?_⟩
  rw [if_pos fits, cellReadN_take buffer fits, rxFillBytes_take brought]

/-- R35 of a state in order. -/
theorem InOrder.rxBound {s : State} (h : InOrder s) {i : Nat} (hi : i < s.cfg.nRx) :
    (s.rxDesc i).map (·.addr) = some (rxBufPa s.cfg i) := by
  obtain ⟨-, ⟨-, bound⟩, -⟩ := h
  exact bound i hi

/-- Settles O51: status, length and bytes as the event leaves them; `addr` is the buffer's address before and after. -/
theorem rxfillReadBack : Obligations.RxfillReadBack := by
  intro s s' slot l e hinv enabled h
  rw [exec_devRxfill_enabled e enabled] at h
  cases h
  obtain ⟨attached, inRing, -, fits, -⟩ := (rxFillEnabled_iff slot l s).mp enabled
  have hp := hinv.1
  have before := inOrder_of_inv hinv attached
  have after := rxFillStep_inOrder e hp before enabled
  obtain ⟨status, length, bytes⟩ := rxFillStep_slot e hp enabled
  refine ⟨rxState_of_status status (rxStateOf_rxFillStatus _ e), length, bytes, ?_, fun a outside => ?_⟩
  · rw [after.rxBound (rxFillStep_cfg s slot e l ▸ inRing), before.rxBound inRing, rxFillStep_cfg]
  · rw [rxFillStep_mem]
    exact (memStep_rxFillMem s.cfg s.mem slot.toNat e l s.devData s.draws fits).same a
      fun ha => outside (rxFillStores_slot ha)

/-! ### What no event changes -/

/-- On every path DEV_TXDONE writes TxWire, the slot's status byte, the head and the draw counter only (R215). -/
theorem exec_devTxdone_keeps {s s' : State} {slot : Half} (h : exec (.devTxdone slot) s = .next s') :
    s' = { s with txWire := s'.txWire, mem := s'.mem, txHead := s'.txHead, draws := s'.draws } ∧
    MemStep s.mem s'.mem (· = txDescAddr s.cfg slot.toNat + offStatus) := by
  by_cases enabled : txDoneEnabled slot s = true
  · rw [exec_devTxdone_enabled enabled] at h
    obtain ⟨frame, n, e, -⟩ := txDoneStep_cases slot s
    rw [e] at h
    cases h
    exact ⟨rfl, memStep_txStatus s.mem slot.toNat _⟩
  · rw [exec_devTxdone_disabled enabled] at h
    cases h
    exact ⟨rfl, .refl _ _⟩

/-- On every path DEV_RXFILL writes the slot's buffer, its descriptor past `addr`, the head and the draw counter only
(R215). -/
theorem exec_devRxfill_keeps {s s' : State} {slot l : Half} {e : Bool} (h : exec (.devRxfill slot e l) s = .next s') :
    s' = { s with mem := s'.mem, rxHead := s'.rxHead, draws := s'.draws } ∧
    MemStep s.mem s'.mem (fun a => InRange a (rxBufAddr s.cfg slot.toNat) s.cfg.rxBuf ∨
      InRange a (rxDescAddr s.cfg slot.toNat + 8) 8) := by
  by_cases enabled : rxFillEnabled slot l s = true
  · rw [exec_devRxfill_enabled e enabled] at h
    cases h
    obtain ⟨-, -, -, fits, -⟩ := (rxFillEnabled_iff slot l s).mp enabled
    exact ⟨rfl, memStep_rxFillMem s.cfg s.mem slot.toNat e l s.devData s.draws fits⟩
  · rw [exec_devRxfill_disabled e enabled] at h
    cases h
    exact ⟨rfl, .refl _ _⟩

/-- Settles O54: the next state is the old one but for what the event may write. -/
theorem deviceFrame : Obligations.DeviceFrame := by
  refine ⟨fun s s' slot h => ?_, fun s s' slot l e h => ?_⟩
  · obtain ⟨fields, stores⟩ := exec_devTxdone_keeps h
    rw [fields]
    exact ⟨rfl, rfl, rfl, rfl, rfl, rfl, rfl, rfl, rfl, rfl, rfl, rfl, rfl, rfl, fun _ => rfl, stores.same⟩
  · obtain ⟨fields, stores⟩ := exec_devRxfill_keeps h
    rw [fields]
    exact ⟨rfl, rfl, rfl, rfl, rfl, rfl, rfl, rfl, rfl, rfl, rfl, rfl, rfl, rfl, rfl, rfl,
      fun a buf desc => stores.same a (not_or.mpr ⟨buf, desc⟩)⟩

/-! ### Ring order only adds conjuncts -/

/-- The same machine under free order. -/
def underFreeOrder (s : State) : State := { s with cfg := { s.cfg with order := .free } }

theorem txDoneEnabled_underFreeOrder {slot : Half} {s : State} (h : txDoneEnabled slot s = true) :
    txDoneEnabled slot (underFreeOrder s) = true := by
  obtain ⟨attached, inRing, owned, -⟩ := (txDoneEnabled_iff slot s).mp h
  exact (txDoneEnabled_iff slot (underFreeOrder s)).mpr ⟨attached, inRing, owned, rfl⟩

theorem rxFillEnabled_underFreeOrder {slot l : Half} {s : State} (h : rxFillEnabled slot l s = true) :
    rxFillEnabled slot l (underFreeOrder s) = true := by
  obtain ⟨attached, inRing, owned, fits, -⟩ := (rxFillEnabled_iff slot l s).mp h
  exact (rxFillEnabled_iff slot l (underFreeOrder s)).mpr ⟨attached, inRing, owned, fits, rfl⟩

/-- An enabled DEV_TXDONE sends the slot's frame, or the one of log 14 where memory does not hold it. -/
theorem txDoneStep_sends (slot : Half) (s : State) :
    ∃ n, txDoneStep slot s = txDoneWith slot ((txFrame s slot.toNat).getD (txFrameDrawn s slot.toNat)) n s := by
  rw [txDoneStep]
  cases txFrame s slot.toNat with
  | none => exact ⟨_, rfl⟩
  | some frame => exact ⟨_, rfl⟩

/-- What an enabled DEV_TXDONE stores and sends reads no order. -/
theorem txDoneStep_underFreeOrder (slot : Half) (s : State) :
    (txDoneStep slot (underFreeOrder s)).mem = (txDoneStep slot s).mem ∧
    (txDoneStep slot (underFreeOrder s)).txWire = (txDoneStep slot s).txWire ∧
    (txDoneStep slot (underFreeOrder s)).fault = (txDoneStep slot s).fault := by
  obtain ⟨n, ring⟩ := txDoneStep_sends slot s
  obtain ⟨k, free⟩ := txDoneStep_sends slot (underFreeOrder s)
  rw [ring, free]
  exact ⟨rfl, rfl, rfl⟩

theorem rxFillStep_underFreeOrder (slot l : Half) (e : Bool) (s : State) :
    (rxFillStep slot e l (underFreeOrder s)).mem = (rxFillStep slot e l s).mem := by
  rw [rxFillStep_mem, rxFillStep_mem]
  rfl

/-- Settles O53: neither guard gains a conjunct under free order, and what an event writes but the heads reads no order. -/
theorem ringEventsAreFreeEvents : Obligations.RingEventsAreFreeEvents :=
  ⟨fun s slot _ enabled => ⟨txDoneEnabled_underFreeOrder enabled, txDoneStep_underFreeOrder slot s⟩,
    fun s slot l e _ enabled => ⟨rxFillEnabled_underFreeOrder enabled, rxFillStep_underFreeOrder slot l e s⟩⟩

end Sys2Proof.Proofs

/-! SUPPORT. Under ring order a full TX ring whose tail register holds the head is stuck (spec/44_device_agent.md R220):
everything R220 speaks of is left as it is by every step. -/

namespace Sys2Proof.Proofs

open Sys2Proof.Machine Sys2Proof.Laws

/-- From s to s' nothing changed that tells whether the TX ring is stuck. -/
structure TxUntouched (s s' : State) : Prop where
  cfg : s'.cfg = s.cfg
  attached : s.Attached → s'.Attached
  txHead : s'.txHead = s.txHead
  tailReg : s'.shadow regTDT = s.shadow regTDT
  slots : ∀ k, k < s.cfg.nTx → s'.txState k = s.txState k

theorem TxUntouched.refl (s : State) : TxUntouched s s := ⟨rfl, id, rfl, rfl, fun _ _ => rfl⟩

theorem TxUntouched.trans {s t u : State} (h : TxUntouched s t) (h' : TxUntouched t u) : TxUntouched s u :=
  ⟨h'.cfg.trans h.cfg, fun ha => h'.attached (h.attached ha), h'.txHead.trans h.txHead, h'.tailReg.trans h.tailReg,
    fun k hk => (h'.slots k (h.cfg ▸ hk)).trans (h.slots k hk)⟩

theorem TxUntouched.txStuck {s s' : State} (h : TxUntouched s s') (stuck : s.TxStuck) : s'.TxStuck := by
  obtain ⟨ring, attached, queued, tail⟩ := stuck
  refine ⟨h.cfg ▸ ring, h.attached attached, fun i hi => ?_, ?_⟩
  · rw [h.cfg] at hi
    rw [h.slots i hi, queued i hi]
  · rw [h.tailReg, h.txHead, tail]

/-- Changes of the counter, the result, the fault, the refused mark, the payload and the schedule. -/
theorem TxUntouched.of_view {s s' : State} (v : SameView s s') (attached : s.Attached → s'.Attached)
    (txHead : s'.txHead = s.txHead) : TxUntouched s s' :=
  ⟨v.cfg, attached, txHead, congrArg (cellRead · regTDT) v.regShadow, fun k _ => v.txState k⟩

/-- Stores in RX slots spare every TX status byte (R52). -/
theorem txState_of_rxStores {s s' : State} {x : RxState} {k : Nat} (hp : s.cfg.admitted = true) (hk : k < s.cfg.nTx)
    (hc : s'.cfg = s.cfg) (stores : MemStep s.mem s'.mem (InRxSlotAt s x)) : s'.txState k = s.txState k := by
  rw [State.txState, State.txState, State.txStatus, State.txStatus, hc,
    stores.same _ fun h => h.not_inTxSlot hp hk (txStatus_inTxSlot k _ rfl)]

/-! ### The guard of DEV_TXDONE and TRANSMIT on a stuck ring -/

theorem txDoneEnabled_of_stuck {s : State} (stuck : s.TxStuck) (slot : Half) : ¬ txDoneEnabled slot s = true := by
  obtain ⟨ring, -, -, tail⟩ := stuck
  intro enabled
  obtain ⟨-, -, -, allowed⟩ := (txDoneEnabled_iff slot s).mp enabled
  refine not_orderAllows ring ?_ allowed
  by_cases atHead : s.txHead = slot
  · exact .inr (atHead ▸ tail)
  · exact .inl atHead

theorem txState_tail_of_stuck {s : State} (hord : InOrder s) (stuck : s.TxStuck) :
    s.txState s.txTail.toNat = some .queued := by
  obtain ⟨-, -, queued, -⟩ := stuck
  exact queued _ hord.1.1

/-- A TRANSMIT that fits finds its tail slot queued (R232). -/
theorem exec_transmit_of_stuck {s : State} {len : Half} (hinv : s.Inv) (stuck : s.TxStuck) (hr : s.Running)
    (fits : len.toNat ≤ s.cfg.maxTx) :
    exec (.transmit len) s = .next ((portIn len.toNat s.beginCommand).ret .ringFull 0#16) := by
  obtain ⟨s', he⟩ := exec_next (.transmit len) s
  rw [he]
  cases exec_transmit_returns hinv hr he with
  | tooLarge long => exact absurd fits (Nat.not_le.mpr long)
  | full => rfl
  | ok c st _ free =>
    exact nomatch free.symm.trans (txState_tail_of_stuck (inOrder_of_inv hinv (.inl hr.1)) stuck)

/-! ### Every step -/

theorem runCommand_txUntouched {adm : Admission} {body : State → State} {s : State}
    (h : adm = .executes → TxUntouched s.beginCommand (body s.beginCommand)) :
    TxUntouched s (runCommand adm body s) := by
  have counted : TxUntouched s s.beginCommand := .of_view (sameView_beginCommand s) id rfl
  obtain ⟨-, e⟩ | ⟨f, -, e⟩ | ⟨executes, e⟩ := runCommand_cases adm body s <;> rw [e]
  · exact .refl s
  · exact counted.trans (.of_view (sameView_raise _ f) id rfl)
  · exact counted.trans (h executes)

theorem transmitBody_txUntouched {s : State} (hp : s.cfg.admitted = true) (hord : InOrder s) (len : Half)
    (full : s.txState s.txTail.toNat = some .queued) : TxUntouched s (transmitBody len s) := by
  obtain ⟨-, e⟩ | ⟨-, -, e⟩ | ⟨-, free, -⟩ := transmitBody_of_inOrder hp hord len
  · rw [e]
    exact .of_view ((sameView_portIn _ s).trans (sameView_ret _ _ _)) id rfl
  · rw [e]
    exact .of_view ((sameView_portIn _ s).trans (sameView_ret _ _ _)) id rfl
  · exact nomatch free.symm.trans full

theorem receiveBody_attached {s : State} (h : s.Attached) : (receiveBody s).Attached := by
  have hend := receiveBody_end s
  generalize receiveBody s = r at hend
  cases hend with
  | frag => exact .inr rfl
  | _ => exact h

theorem receiveBody_txUntouched {s : State} (hp : s.cfg.admitted = true) : TxUntouched s (receiveBody s) := by
  obtain ⟨fields, shadow, -⟩ := receiveBody_keeps s
  have cfg : (receiveBody s).cfg = s.cfg := by rw [fields]
  exact ⟨cfg, receiveBody_attached, by rw [fields], shadow _ (by decide),
    fun k hk => txState_of_rxStores hp hk cfg (memStep_receiveBody hp)⟩

theorem rxFillStep_txUntouched {slot l : Half} (e : Bool) {s : State} (hp : s.cfg.admitted = true)
    (enabled : rxFillEnabled slot l s = true) : TxUntouched s (rxFillStep slot e l s) :=
  ⟨rxFillStep_cfg .., by simp [State.Attached], rxFillStep_txHead ..,
    congrArg (cellRead · regTDT) (rxFillStep_regShadow ..), fun _ hk => txState_of_rxStores hp hk (rxFillStep_cfg ..) (memStep_rxFillStep e enabled)⟩

theorem exec_txUntouched {i : Instr} {s s' : State} (hp : s.cfg.admitted = true) (hord : InOrder s) (stuck : s.TxStuck)
    (h : exec i s = .next s') : TxUntouched s s' := by
  obtain ⟨-, rfl⟩ | ⟨len, -, rfl⟩ | ⟨-, rfl⟩ | ⟨slot, -, rfl⟩ | ⟨slot, e, l, -, rfl⟩ := exec_cases h
  · exact runCommand_txUntouched fun executes =>
      absurd stuck.2.1 (not_attached_of_unattached ((admitAttach_executes s).mp executes).1)
  · exact runCommand_txUntouched fun _ => transmitBody_txUntouched (s := s.beginCommand) hp
      ((sameView_beginCommand s).inOrder hord) len (txState_tail_of_stuck hord stuck)
  · exact runCommand_txUntouched fun _ => receiveBody_txUntouched (s := s.beginCommand) hp
  · rw [if_neg (txDoneEnabled_of_stuck stuck slot)]
    exact .refl s
  · split
    · next enabled => exact rxFillStep_txUntouched e hp enabled
    · exact .refl s

theorem step_txUntouched {s s' : State} (hinv : s.Inv) (stuck : s.TxStuck) (h : step s = .next s') :
    TxUntouched s s' := by
  have view := sameView_takeInput s
  have taken : TxUntouched s s.takeInput := .of_view view (takeInput_attached s).mpr (takeInput_txHead s)
  have hord := view.inOrder (inOrder_of_inv hinv stuck.2.1)
  obtain ⟨-, rfl⟩ | ⟨r, -, rfl⟩ | ⟨i, -, -, he⟩ := step_cases h
  · exact .refl s'
  · exact taken.trans (.of_view (sameView_refuse _ r) id rfl)
  · exact taken.trans (exec_txUntouched (view.cfg ▸ hinv.1) hord (taken.txStuck stuck) he)

/-- Settles O59: the head is the tail register's slot, every tail slot is queued, and no step touches the TX ring. -/
theorem fullTxRingIsStuck : Obligations.FullTxRingIsStuck := by
  intro s hinv stuck
  refine ⟨fun slot => Bool.eq_false_iff.mpr (txDoneEnabled_of_stuck stuck slot), fun hr len fits => ?_,
    fun _ h => (step_txUntouched hinv stuck h).txStuck stuck⟩
  exact ⟨_, exec_transmit_of_stuck hinv stuck hr fits, rfl, rfl, rfl⟩

end Sys2Proof.Proofs

/-! SUPPORT. Refusals (spec/60_exceptions.md R239) and the idle step (R250): why an entry is refused, and that nothing
clears the mark. -/

namespace Sys2Proof.Proofs

open Sys2Proof.Machine Sys2Proof.Laws

/-- Settles O11: no entry is fetched from an empty schedule. -/
theorem idleStep : Obligations.IdleStep := by
  intro s h
  have nothing : fetch s = none := by simp [fetch, h]
  rw [step, nothing]

/-- An instance refuses an entry that decodes to nothing, or an event whose operands are out of its range (R108). -/
theorem admitInput_error_reason {p : Params} {inp : Input} {r : Refusal} (h : admitInput p inp = .error r) :
    r = .illegalCommand ∨ r = .illegalEvent := by
  unfold admitInput at h
  obtain ⟨i, hi⟩ | hr := decodeInput_total inp
  · simp only [hi] at h
    split at h
    · cases h
    · cases h
      exact .inr rfl
  · simp only [hr] at h
    cases h
    cases inp with
    | command => exact .inl rfl
    | event => exact .inr rfl

/-- No instruction writes the refused mark: only `step` does (R239). -/
theorem exec_refused {i : Instr} {s s' : State} (h : exec i s = .next s') : s'.refused = s.refused := by
  cases i with
  | attach => rw [(exec_attach_keeps h).fields]
  | transmit len => rw [(exec_transmit_keeps h).fields]
  | receive => rw [(exec_receive_keeps h).fields]
  | devTxdone slot => rw [(exec_devTxdone_keeps h).1]
  | devRxfill slot e l => rw [(exec_devRxfill_keeps h).1]

theorem step_keeps_refused {s s' : State} {r : Refusal} (marked : s.refused = some r) (h : step s = .next s') :
    s'.refused = some r := by
  have taken : s.takeInput.refused = some r := (takeInput_refused s).trans marked
  obtain ⟨-, rfl⟩ | ⟨r', -, rfl⟩ | ⟨i, -, -, he⟩ := step_cases h
  · exact marked
  · rw [refuse_refused, taken, Option.some_or]
  · exact (exec_refused he).trans taken

/-- Settles O5: a refused entry leaves its mark and nothing else, a later one finds the mark taken, and no instruction
writes it. -/
theorem refusalIsPermanent : Obligations.RefusalIsPermanent := by
  refine ⟨fun p inp r => admitInput_error_reason, fun s inp rest r hs hr unmarked => ?_,
    fun s s' r => step_keeps_refused, fun s marked ⟨_, _, unmarked⟩ => ?_⟩
  · obtain ⟨-, -, -, refuses⟩ := illegalWordsAreRefused
    rw [refuses s inp rest r hs hr, unmarked, Option.none_or]
  · simp [unmarked] at marked

end Sys2Proof.Proofs

/-! SUPPORT. The lifecycle table (spec/60_exceptions.md R236): where a command faults or takes no step and where no device
event is enabled, and the errors a command returns without effect (R231, R232, R233, R235). -/

namespace Sys2Proof.Proofs

open Sys2Proof.Machine Sys2Proof.Laws

/-! ### Where nothing executes -/

/-- TRANSMIT and RECEIVE: the commands that need READY. -/
def IsRingCommand (i : Instr) : Prop := i = .receive ∨ ∃ len, i = .transmit len

/-- After a fault, in HALTED and in FAILED no engine command takes a step (R236, R238). -/
theorem exec_command_noStep {s : State} {i : Instr} (hi : isCommand i = true)
    (stopped : s.fault ≠ none ∨ s.life = .halted ∨ s.life = .failed) : exec i s = .next s := by
  have attach := (admitAttach_noStep s).mpr stopped
  have ring := (admitRing_noStep s).mpr stopped
  cases i with
  | attach => rw [exec, execAttach, attach, runCommand]
  | transmit len => rw [exec, execTransmit, ring, runCommand]
  | receive => rw [exec, execReceive, ring, runCommand]
  | devTxdone slot => cases hi
  | devRxfill slot e l => cases hi

/-- Before ATTACH a ring command is counted and takes NotAttached (R33, R236). -/
theorem exec_ring_unattached {s : State} {i : Instr} (hi : IsRingCommand i) (hf : s.fault = none)
    (hl : s.life = .unattached) :
    exec i s = .next { s with cmdCount := s.cmdCount + 1, fault := some .notAttached } := by
  have faults := (admitRing_faults s .notAttached).mpr ⟨hl, hf, rfl⟩
  have raised : s.beginCommand.raise .notAttached =
      { s with cmdCount := s.cmdCount + 1, fault := some .notAttached } := by
    rw [State.raise, beginCommand_fault, hf]
    rfl
  obtain rfl | ⟨len, rfl⟩ := hi
  · rw [exec, execReceive, faults, runCommand, raised]
  · rw [exec, execTransmit, faults, runCommand, raised]

/-- No device event is enabled before ATTACH or after a failed one (R212). -/
theorem exec_event_noStep {s : State} {i : Instr} (hi : isCommand i = false) (off : ¬ s.Attached) :
    exec i s = .next s := by
  cases i with
  | attach => cases hi
  | transmit len => cases hi
  | receive => cases hi
  | devTxdone slot => exact exec_devTxdone_disabled fun enabled => off ((txDoneEnabled_iff slot s).mp enabled).1
  | devRxfill slot e l => exact exec_devRxfill_disabled e fun enabled => off ((rxFillEnabled_iff slot l s).mp enabled).1

/-- Settles O24: the lifecycle test's answer for each command, and the events' guards. -/
theorem lifecycleTable : Obligations.LifecycleTable := by
  refine ⟨fun s len hf hl => exec_ring_unattached (.inr ⟨len, rfl⟩) hf hl,
    fun s hf hl => exec_ring_unattached (.inl rfl) hf hl,
    fun s i stopped hi => exec_command_noStep hi (.inr stopped),
    fun s i off hi => exec_event_noStep hi fun attached => ?_⟩
  exact off.elim (life_of_attached attached).1 (life_of_attached attached).2

/-! ### Errors returned without effect -/

/-- An ATTACH whose STATUS word fails has made the one read and nothing else (R190, R235). -/
theorem attachDraw_fails {s : State} (hp : s.cfg.admitted = true) (hw : Config.freeStatus s.draws ∉ s.cfg.attachOk) :
    attachDraw s = ((attachPolled s).setLife .failed).ret .attachFailure 0#16 := by
  simp [attachDraw, attachBody, regRead_polled hp, hw]

/-- Settles O29: with the command counted, it is that state. -/
theorem attachFails : Obligations.AttachFails := by
  intro s hl hf hp hw
  rw [exec_attach_unattached hl hf, attachDraw_fails (s := s.beginCommand) hp hw]
  rfl

/-- Settles O35: the length is checked before the tail slot is looked at. -/
theorem transmitTooLarge : Obligations.TransmitTooLarge := by
  intro s len hr long
  have refused : ∀ payload, transmitChecked len payload (portIn len.toNat s.beginCommand) =
      (portIn len.toNat s.beginCommand).ret .packetTooLarge 0#16 := fun _ => if_pos long
  rw [exec_transmit_running hr, transmitBody, refused]
  rfl

/-- A packet that fits finds its tail slot device-owned (R232). -/
theorem transmitChecked_full {s : State} {len : Half} {st : Byte} (fits : len.toNat ≤ s.cfg.maxTx)
    (hn : s.txTail.toNat < s.cfg.nTx) (hs : s.txStatus s.txTail.toNat = some st) (hd : isDone st = false)
    (payload : List Byte) : transmitChecked len payload s = s.ret .ringFull 0#16 := by
  simp [transmitChecked, transmitSlot, Nat.not_lt.mpr fits, Nat.not_le.mpr hn, hs, hd]

/-- Settles O36: the poll ends the command, with its payload consumed. -/
theorem transmitRingFull : Obligations.TransmitRingFull := by
  rintro s len _ st hr fits rfl hn hs hd
  rw [exec_transmit_running hr, transmitBody,
    transmitChecked_full (s := portIn len.toNat s.beginCommand) fits hn hs hd]
  rfl

/-- Settles O43: with the command counted, it is the empty case of the poll. -/
theorem receiveNoPacket : Obligations.ReceiveNoPacket := by
  rintro s _ st hr rfl hn hs hd
  rw [exec_receive_running hr, receiveCandidate_noPacket (s := s.beginCommand) (rxCandidate_lt (s := s) hn) hs hd]
  rfl

end Sys2Proof.Proofs

/-! SUPPORT. The lifecycle's transitions (spec/60_exceptions.md R237): ATTACH leaves UNATTACHED with a result, a fragment
leaves READY, and nothing else moves the lifecycle. -/

namespace Sys2Proof.Proofs

open Sys2Proof.Machine Sys2Proof.Laws

/-- What instruction i does to the lifecycle (R237): nothing, or a transition with its result. -/
inductive LifeStep (s s' : State) : Instr → Prop where
  | stays {i : Instr} (life : s'.life = s.life) : LifeStep s s' i
  | attached (before : s.life = .unattached) (after : s'.life = .ready) (result : s'.result = 0x00000000#32) :
      LifeStep s s' .attach
  | failed (before : s.life = .unattached) (after : s'.life = .failed) (result : s'.result = 0x00000005#32) :
      LifeStep s s' .attach
  | halted (before : s.life = .ready) (after : s'.life = .halted) (result : s'.result = 0x00000004#32) :
      LifeStep s s' .receive

/-- A command that faults or takes no step stays where it is. -/
theorem runCommand_lifeStep {adm : Admission} {body : State → State} {s : State} {i : Instr}
    (h : adm = .executes → LifeStep s (body s.beginCommand) i) : LifeStep s (runCommand adm body s) i := by
  obtain ⟨-, e⟩ | ⟨f, -, e⟩ | ⟨executes, e⟩ := runCommand_cases adm body s <;> rw [e]
  · exact .stays rfl
  · exact .stays rfl
  · exact h executes

theorem attachDraw_lifeStep {s : State} (hl : s.life = .unattached) : LifeStep s (attachDraw s.beginCommand) .attach := by
  have hend := attachBody_end (Config.freeStatus s.beginCommand.draws) (s.beginCommand.drew 1)
  unfold attachDraw
  generalize attachBody (Config.freeStatus s.beginCommand.draws) (s.beginCommand.drew 1) = r at hend
  cases hend with
  | blind => exact .stays rfl
  | failed => exact .failed hl rfl rfl
  | stopped _ _ pre =>
    obtain ⟨⟨-, life, -⟩, -⟩ := putRegAll_same pre (attachRings (attachPolled s.beginCommand))
    exact .stays life
  | attached => exact .attached hl rfl rfl

theorem receiveBody_lifeStep {s : State} (hl : s.life = .ready) : LifeStep s (receiveBody s.beginCommand) .receive := by
  have hend := receiveBody_end s.beginCommand
  generalize receiveBody s.beginCommand = r at hend
  cases hend with
  | frag => exact .halted hl rfl rfl
  | _ => exact .stays rfl

theorem exec_lifeStep {i : Instr} {s s' : State} (h : exec i s = .next s') : LifeStep s s' i := by
  cases i with
  | attach =>
    cases h
    exact runCommand_lifeStep fun executes => attachDraw_lifeStep ((admitAttach_executes s).mp executes).1
  | transmit len => exact .stays (by rw [(exec_transmit_keeps h).fields])
  | receive =>
    cases h
    exact runCommand_lifeStep fun executes => receiveBody_lifeStep ((admitRing_executes s).mp executes).1
  | devTxdone slot => exact .stays (by rw [(exec_devTxdone_keeps h).1])
  | devRxfill slot e l => exact .stays (by rw [(exec_devRxfill_keeps h).1])

/-- Settles O20: an idle or refused step stays, and an executed instruction makes its own transition. -/
theorem lifecycleTransitions : Obligations.LifecycleTransitions := by
  intro s s' h
  obtain ⟨-, rfl⟩ | ⟨r, -, rfl⟩ | ⟨i, fetched, -, he⟩ := step_cases h
  · exact .inl rfl
  · exact .inl (takeInput_life s)
  · have taken := takeInput_life s
    rw [fetched]
    cases exec_lifeStep he with
    | stays life => exact .inl (life.trans taken)
    | attached before after result => exact .inr (.inl ⟨taken ▸ before, after, rfl, result⟩)
    | failed before after result => exact .inr (.inr (.inl ⟨taken ▸ before, after, rfl, result⟩))
    | halted before after result => exact .inr (.inr (.inr ⟨taken ▸ before, after, rfl, result⟩))

end Sys2Proof.Proofs

/-! SUPPORT. Faults (spec/60_exceptions.md R238): a fault stays as it is, and from the invariant each fault that can be taken
has its command and its lifecycle state. -/

namespace Sys2Proof.Proofs

open Sys2Proof.Machine Sys2Proof.Laws

/-! ### A fault is never cleared or replaced -/

/-- A device event takes no fault and clears none (R213, R230). -/
theorem exec_event_fault {i : Instr} {s s' : State} (hi : isCommand i = false) (h : exec i s = .next s') :
    s'.fault = s.fault := by
  cases i with
  | attach => cases hi
  | transmit len => cases hi
  | receive => cases hi
  | devTxdone slot => rw [(exec_devTxdone_keeps h).1]
  | devRxfill slot e l => rw [(exec_devRxfill_keeps h).1]

theorem exec_keeps_fault {i : Instr} {s s' : State} (faulted : s.fault ≠ none) (h : exec i s = .next s') :
    s'.fault = s.fault := by
  cases hi : isCommand i with
  | true =>
    rw [exec_command_noStep hi (.inl faulted)] at h
    cases h
    rfl
  | false => exact exec_event_fault hi h

theorem step_keeps_fault {s s' : State} {f : Fault} (faulted : s.fault = some f) (h : step s = .next s') :
    s'.fault = some f := by
  have taken : s.takeInput.fault = some f := (takeInput_fault s).trans faulted
  obtain ⟨-, rfl⟩ | ⟨r, -, rfl⟩ | ⟨i, -, -, he⟩ := step_cases h
  · exact faulted
  · exact taken
  · exact (exec_keeps_fault (taken ▸ Option.some_ne_none f) he).trans taken

/-- Settles O21: after a fault a command takes no step, and an event writes no fault. -/
theorem faultIsPermanentAndStops : Obligations.FaultIsPermanentAndStops := by
  refine ⟨fun s s' f => step_keeps_fault, fun s i faulted hi => ?_, fun s faulted ⟨_, clear, _⟩ => ?_⟩
  · exact exec_command_noStep hi (.inl (Option.isSome_iff_ne_none.mp faulted))
  · simp [clear] at faulted

/-! ### The faults that can be taken -/

theorem takeInput_inv {s : State} (h : s.Inv) : s.takeInput.Inv := by
  unfold State.takeInput
  split
  · exact h
  · exact h

/-- What instruction i does to a clear fault field from a state of the invariant (R238). -/
inductive FaultStep (s s' : State) : Instr → Prop where
  | clear {i : Instr} (fault : s'.fault = none) : FaultStep s s' i
  | notAttached {i : Instr} (ring : IsRingCommand i) (life : s.life = .unattached) (fault : s'.fault = some .notAttached) :
      FaultStep s s' i
  | reAttach (life : s.life = .ready) (fault : s'.fault = some .reAttach) : FaultStep s s' .attach
  | regOutOfRange (life : s.life = .unattached) (outside : ∃ w ∈ s.cfg.extra, s.cfg.regCount ≤ w.1)
      (fault : s'.fault = some .regOutOfRange) : FaultStep s s' .attach

/-- The one write of ATTACH that can be outside an admitted instance's window is an extra one (R51). -/
theorem extra_outside_of_attachWrites {p : Params} (hp : p.admitted = true) {w : Nat × Word} (hw : w ∈ attachWrites p)
    (outside : p.regCount ≤ w.1) : ∃ u ∈ p.extra, p.regCount ≤ u.1 := by
  by_contra allInside
  have inside : ∀ u ∈ p.extra, u.1 < p.regCount := fun u hu => Nat.lt_of_not_le fun h => allInside ⟨u, hu, h⟩
  exact absurd (attachWrites_inWindow hp inside w hw) (Nat.not_lt.mpr outside)

theorem attachDraw_faultStep {s : State} (hp : s.cfg.admitted = true) (hl : s.life = .unattached) (hf : s.fault = none) :
    FaultStep s (attachDraw s.beginCommand) .attach := by
  have hend := attachBody_end (Config.freeStatus s.beginCommand.draws) (s.beginCommand.drew 1)
  have written : ∀ ws, (attachWritten ws s.beginCommand).fault = none := fun ws =>
    (putRegAll_same ws (attachRings (attachPolled s.beginCommand))).2.trans hf
  unfold attachDraw
  generalize attachBody (Config.freeStatus s.beginCommand.draws) (s.beginCommand.drew 1) = r at hend
  cases hend with
  | blind blind =>
    obtain ⟨-, -, -, -, -, -, -, -, -, -, window⟩ := admitted_ranges hp
    exact absurd (Nat.lt_of_le_of_lt (by decide) window) (Nat.not_lt.mpr blind)
  | failed => exact .clear hf
  | stopped _ _ pre post i v writes _ outside =>
    refine .regOutOfRange hl (extra_outside_of_attachWrites hp (w := (i, v)) ?_ outside)
      (congrArg (Option.or · (some Fault.regOutOfRange)) (written pre))
    exact writes ▸ List.mem_append_right pre (List.mem_cons_self ..)
  | attached => exact .clear (written _)

theorem attach_faultStep {s s' : State} (hp : s.cfg.admitted = true) (hf : s.fault = none)
    (h : exec .attach s = .next s') : FaultStep s s' .attach := by
  cases h
  obtain ⟨-, e⟩ | ⟨f, faults, e⟩ | ⟨executes, e⟩ := runCommand_cases (admitAttach s) attachDraw s <;> rw [e]
  · exact .clear hf
  · obtain ⟨running, rfl⟩ := (admitAttach_faults s f).mp faults
    exact .reAttach running.1 (congrArg (Option.or · (some Fault.reAttach)) hf)
  · exact attachDraw_faultStep hp ((admitAttach_executes s).mp executes).1 hf

theorem IsRingCommand.isCommand {i : Instr} (h : IsRingCommand i) : isCommand i = true := by
  obtain rfl | ⟨len, rfl⟩ := h <;> rfl

/-- A ring command that returns in READY can take NotAttached only. -/
theorem ring_faultStep {s s' : State} {i : Instr} (ring : IsRingCommand i) (hf : s.fault = none)
    (h : exec i s = .next s') (returns : s.Running → s'.fault = none) : FaultStep s s' i := by
  have idle : s.life = .halted ∨ s.life = .failed → FaultStep s s' i := fun stopped => by
    rw [exec_command_noStep ring.isCommand (.inr stopped)] at h
    cases h
    exact .clear hf
  cases hl : s.life with
  | unattached =>
    rw [exec_ring_unattached ring hf hl] at h
    cases h
    exact .notAttached ring hl rfl
  | ready => exact .clear (returns ⟨hl, hf⟩)
  | halted => exact idle (.inl hl)
  | failed => exact idle (.inr hl)

/-- Every TRANSMIT and RECEIVE in READY returns (R156, R176). -/
theorem transmit_returns_fault {s s' : State} {len : Half} (hinv : s.Inv) (hr : s.Running)
    (h : exec (.transmit len) s = .next s') : s'.fault = none := by
  cases exec_transmit_returns hinv hr h <;> exact hr.2

theorem receive_returns_fault {s s' : State} (hinv : s.Inv) (hr : s.Running) (h : exec .receive s = .next s') :
    s'.fault = none := by
  cases exec_receive_returns hinv hr h <;> exact hr.2

theorem exec_faultStep {i : Instr} {s s' : State} (hinv : s.Inv) (hf : s.fault = none) (h : exec i s = .next s') :
    FaultStep s s' i := by
  cases i with
  | attach => exact attach_faultStep hinv.1 hf h
  | transmit len => exact ring_faultStep (.inr ⟨len, rfl⟩) hf h fun hr => transmit_returns_fault hinv hr h
  | receive => exact ring_faultStep (.inl rfl) hf h fun hr => receive_returns_fault hinv hr h
  | devTxdone slot => exact .clear ((exec_event_fault rfl h).trans hf)
  | devRxfill slot e l => exact .clear ((exec_event_fault rfl h).trans hf)

/-- Settles O22: an idle or refused step takes no fault, and an executed instruction takes its own. -/
theorem onlyReachableFaults : Obligations.OnlyReachableFaults := by
  intro s s' hinv hf h
  have clear : s.takeInput.fault = none := (takeInput_fault s).trans hf
  obtain ⟨-, rfl⟩ | ⟨r, -, rfl⟩ | ⟨i, fetched, -, he⟩ := step_cases h
  · exact .inl hf
  · exact .inl clear
  · have life := takeInput_life s
    rw [fetched]
    cases exec_faultStep (takeInput_inv hinv) clear he with
    | clear fault => exact .inl fault
    | notAttached ring before fault =>
      refine .inr (.inl ⟨fault, life ▸ before, ?_⟩)
      obtain rfl | ⟨len, rfl⟩ := ring
      · exact .inl rfl
      · exact .inr ⟨len, rfl⟩
    | reAttach before fault => exact .inr (.inr (.inl ⟨fault, life ▸ before, rfl⟩))
    | regOutOfRange before outside fault =>
      exact .inr (.inr (.inr ⟨fault, life ▸ before, rfl, takeInput_cfg s ▸ outside⟩))

end Sys2Proof.Proofs

/-! SUPPORT. RegShadow and the heads after ATTACH (spec/43_attach.md R191, R261): which of its register writes is the last
one to a register. -/

namespace Sys2Proof.Proofs

open Sys2Proof.Machine Sys2Proof.Laws

/-! ### The last write to a register -/

/-- The last of the writes ws to register idx writes v. -/
def LastWrite (ws : List (Nat × Word)) (idx : Nat) (v : Word) : Prop :=
  ∃ pre post, ws = pre ++ (idx, v) :: post ∧ ∀ w ∈ post, w.1 ≠ idx

section LastWrite

variable {ws : List (Nat × Word)} {idx : Nat} {v : Word}

/-- Later writes to other registers leave it the last one. -/
theorem LastWrite.append (h : LastWrite ws idx v) {us : List (Nat × Word)} (spared : ∀ w ∈ us, w.1 ≠ idx) :
    LastWrite (ws ++ us) idx v := by
  obtain ⟨pre, post, rfl, last⟩ := h
  exact ⟨pre, post ++ us, by simp, List.forall_mem_append.mpr ⟨last, spared⟩⟩

/-- Where no register is written twice every write is the last one to its register. -/
theorem lastWrite_of_mem (once : (ws.map Prod.fst).Nodup) (h : (idx, v) ∈ ws) : LastWrite ws idx v := by
  obtain ⟨pre, post, rfl⟩ := List.append_of_mem h
  obtain ⟨-, fromHere, -⟩ := List.pairwise_append.mp (List.pairwise_map.mp once)
  exact ⟨pre, post, rfl, fun w hw => (List.rel_of_pairwise_cons fromHere hw).symm⟩

theorem LastWrite.shadow (h : LastWrite ws idx v) (s : State) : (putRegAll ws s).shadow idx = some v := by
  obtain ⟨pre, post, rfl, last⟩ := h
  exact putRegAll_shadow_last pre post idx v s last

theorem LastWrite.txHead (h : LastWrite ws regTDH v) {s : State} (ring : s.cfg.order = .ring) :
    (putRegAll ws s).txHead = v.extractLsb' 0 16 := by
  obtain ⟨pre, post, rfl, last⟩ := h
  exact (putRegAll_heads_last pre post v s ring).1 last

theorem LastWrite.rxHead (h : LastWrite ws regRDH v) {s : State} (ring : s.cfg.order = .ring) :
    (putRegAll ws s).rxHead = v.extractLsb' 0 16 := by
  obtain ⟨pre, post, rfl, last⟩ := h
  exact (putRegAll_heads_last pre post v s ring).2 last

end LastWrite

/-! ### The last write of ATTACH to each register -/

section Attach

variable {p : Params} {idx : Nat} {v : Word}

/-- RCTL and the registers of the twelve ring, TCTL and TIPG writes are thirteen registers. -/
theorem ringWrites_regs_nodup (p : Params) : (regRCTL :: (ringWrites p).map Prod.fst).Nodup :=
  (by decide : [regRCTL, regTDBAL, regTDBAH, regTDLEN, regTDH, regTDT, regTCTL, regTIPG, regRDBAL, regRDBAH, regRDLEN, regRDH,
    regRDT].Nodup)

theorem ringWrites_ne_rctl {w : Nat × Word} (hw : w ∈ ringWrites p) : w.1 ≠ regRCTL := fun e =>
  (List.nodup_cons.mp (ringWrites_regs_nodup p)).1 (e ▸ List.mem_map_of_mem hw)

theorem attachWrites_last_rctl (p : Params) : LastWrite (attachWrites p) regRCTL p.rctlVal :=
  ⟨ringWrites p ++ p.extra, [], rfl, nofun⟩

/-- ATTACH's closing write to RCTL spares every other register. -/
theorem rctlWrite_spares (h : idx ≠ regRCTL) : ∀ w ∈ [(regRCTL, p.rctlVal)], w.1 ≠ idx :=
  List.forall_mem_singleton.mpr h.symm

/-- A ring, TCTL or TIPG write no extra write overrides. -/
theorem attachWrites_last_own (own : (idx, v) ∈ ringWrites p) (spared : ∀ w ∈ p.extra, w.1 ≠ idx) :
    LastWrite (attachWrites p) idx v :=
  have last : LastWrite (ringWrites p) idx v := lastWrite_of_mem (List.nodup_cons.mp (ringWrites_regs_nodup p)).2 own
  (last.append spared).append (rctlWrite_spares (ringWrites_ne_rctl own))

/-- The last extra write to any register but RCTL. -/
theorem attachWrites_last_extra (h : LastWrite p.extra idx v) (hi : idx ≠ regRCTL) : LastWrite (attachWrites p) idx v := by
  obtain ⟨pre, post, e, last⟩ := h
  have extra : LastWrite (ringWrites p ++ p.extra) idx v := ⟨ringWrites p ++ pre, post, by rw [e, List.append_assoc], last⟩
  exact extra.append (rctlWrite_spares hi)

theorem attachWrites_spare (own : ∀ w ∈ ringWrites p, w.1 ≠ idx) (extra : ∀ w ∈ p.extra, w.1 ≠ idx) (hi : idx ≠ regRCTL) :
    ∀ w ∈ attachWrites p, w.1 ≠ idx :=
  List.forall_mem_append.mpr ⟨List.forall_mem_append.mpr ⟨own, extra⟩, rctlWrite_spares hi⟩

end Attach

/-- A successful ATTACH makes every write, and then goes to READY (R191). -/
theorem exec_attach_completes {s t : State} (hl : s.life = .unattached) (hf : s.fault = none) (hp : s.cfg.admitted = true)
    (hx : ∀ w ∈ s.cfg.extra, w.1 < s.cfg.regCount) (hw : Config.freeStatus s.draws ∈ s.cfg.attachOk)
    (h : exec .attach s = .next t) :
    t = ((attachWritten (attachWrites s.cfg) s.beginCommand).setLife .ready).ret .ok 0#16 := by
  rw [exec_attach_unattached hl hf, attachDraw_completes (s := s.beginCommand) hp hw hx] at h
  cases h
  rfl

/-- Settles O27: every register reads as the last of ATTACH's writes to it, and a register none names reads as before. -/
theorem attachShadow : Obligations.AttachShadow := by
  intro s t hl hf hp hx hw h own
  rw [exec_attach_completes hl hf hp hx hw h]
  have shadow : ∀ {idx v}, LastWrite (attachWrites s.cfg) idx v →
      (attachWritten (attachWrites s.cfg) s.beginCommand).shadow idx = some v := fun last => last.shadow _
  refine ⟨shadow (attachWrites_last_rctl s.cfg), fun r hr spared => shadow (attachWrites_last_own hr spared),
    fun pre post idx v e last hi => shadow (attachWrites_last_extra ⟨pre, post, e, last⟩ hi),
    fun idx hi notOwn spared => putRegAll_shadow_other _ _ _ (attachWrites_spare notOwn spared hi), fun ring => ?_⟩
  have txHead : ∀ {v}, LastWrite (attachWrites s.cfg) regTDH v →
      (attachWritten (attachWrites s.cfg) s.beginCommand).txHead = v.extractLsb' 0 16 := fun last => last.txHead ring
  have rxHead : ∀ {v}, LastWrite (attachWrites s.cfg) regRDH v →
      (attachWritten (attachWrites s.cfg) s.beginCommand).rxHead = v.extractLsb' 0 16 := fun last => last.rxHead ring
  have ownTDH : (regTDH, 0#32) ∈ ringWrites s.cfg := by simp [ringWrites]
  have ownRDH : (regRDH, 0#32) ∈ ringWrites s.cfg := by simp [ringWrites]
  exact ⟨fun spared => txHead (attachWrites_last_own ownTDH spared),
    fun spared => rxHead (attachWrites_last_own ownRDH spared),
    fun pre post v => ⟨fun e last => txHead (attachWrites_last_extra ⟨pre, post, e, last⟩ (by decide)),
      fun e last => rxHead (attachWrites_last_extra ⟨pre, post, e, last⟩ (by decide))⟩⟩

end Sys2Proof.Proofs

/-! SUPPORT. TRANSMIT and RECEIVE are independent (spec/70_reset_and_hazards.md R265): neither writes the other's pipeline,
and two states that agree on one pipeline still agree on it after its command. -/

namespace Sys2Proof.Proofs

open Sys2Proof.Machine Sys2Proof.Laws

/-- A byte that reads the same in two memories still does after the same write to both. -/
theorem cellRead_write_congr {m m' : List Host.Cell} {b : Nat} (h : cellRead m' b = cellRead m b) (a : Nat) (vs : List Byte) :
    cellRead (cellWrite m' a vs) b = cellRead (cellWrite m a vs) b := by
  rw [cellRead_write, cellRead_write, h]

/-! ### The TX pipeline -/

/-- The two states agree on all of the TX pipeline: the cursor, the data-in port with its draws, and the slots. -/
structure SameTx (s r : State) : Prop where
  cfg : r.cfg = s.cfg
  txTail : r.txTail = s.txTail
  dataIn : r.dataIn = s.dataIn
  draws : r.draws = s.draws
  slots : ∀ k a, k < s.cfg.nTx → InTxSlot s.cfg k a → cellRead r.mem a = cellRead s.mem a

section SameTx

variable {s r : State} (same : SameTx s r)
include same

/-- A byte of the tail slot's descriptor. -/
theorem SameTx.tailByte (hn : s.txTail.toNat < s.cfg.nTx) {k : Nat} (hk : k < 16) :
    cellRead r.mem (txDescAddr r.cfg r.txTail.toNat + k) = cellRead s.mem (txDescAddr s.cfg s.txTail.toNat + k) := by
  rw [same.cfg, same.txTail]
  exact same.slots _ _ hn (inTxSlot_desc _ k hk)

/-- A TRANSMIT that queues nothing leaves both pipelines with the payload consumed. -/
theorem SameTx.refused (len : Half) (res : Word) : SameTx
    { s with cmdCount := s.cmdCount + 1, dataIn := s.dataIn.drop len.toNat,
             draws := s.draws + (len.toNat - s.dataIn.length), result := res }
    { r with cmdCount := r.cmdCount + 1, dataIn := r.dataIn.drop len.toNat,
             draws := r.draws + (len.toNat - r.dataIn.length), result := res } where
  cfg := same.cfg
  txTail := same.txTail
  dataIn := congrArg (List.drop len.toNat) same.dataIn
  draws := congrArg₂ (fun d l => d + (len.toNat - List.length l)) same.draws same.dataIn
  slots := same.slots

theorem SameTx.queued (len : Half) (c st : Byte) : SameTx (transmitQueued s len c st) (transmitQueued r len c st) where
  cfg := same.cfg
  txTail := congrArg₂ (fun p t => nextCursor (Params.nTx p) t) same.cfg same.txTail
  dataIn := congrArg (List.drop len.toNat) same.dataIn
  draws := congrArg₂ (fun d l => d + (len.toNat - List.length l)) same.draws same.dataIn
  slots k a hk ha := by
    have slot := same.slots k a hk ha
    rw [transmitQueued, transmitQueued, same.cfg, same.txTail, same.dataIn, same.draws]
    exact cellRead_write_congr (cellRead_write_congr (cellRead_write_congr (cellRead_write_congr slot _ _) _ _) _ _) _ _

/-- TRANSMIT reads nothing but the TX pipeline, so its result and the pipeline it leaves agree. -/
theorem SameTx.transmit {s' r' : State} {len : Half} (hinv : s.Inv) (hs : s.Running) (hr : r.Running)
    (h : exec (.transmit len) s = .next s') (h' : exec (.transmit len) r = .next r') :
    r'.result = s'.result ∧ SameTx s' r' := by
  have hord := inOrder_of_inv hinv (.inl hs.1)
  obtain ⟨c, st, cmd, status⟩ := hord.tailBytes
  obtain ⟨⟨hn, -⟩, -⟩ := hord
  have cmd' := (same.tailByte hn (by decide : offTxCmd < 16)).trans cmd
  have status' : r.txStatus r.txTail.toNat = some st := (same.tailByte hn (by decide : offStatus < 16)).trans status
  have hn' : r.txTail.toNat < r.cfg.nTx := by rwa [same.cfg, same.txTail]
  by_cases fits : len.toNat ≤ s.cfg.maxTx
  · have fits' : len.toNat ≤ r.cfg.maxTx := by rwa [same.cfg]
    cases done : isDone st with
    | false =>
      cases h.symm.trans (transmitRingFull s len _ st hs fits rfl hn status done)
      cases h'.symm.trans (transmitRingFull r len _ st hr fits' rfl hn' status' done)
      exact ⟨rfl, same.refused len _⟩
    | true =>
      have hp : r.cfg.admitted = true := same.cfg ▸ hinv.1
      rw [exec_transmit_running hs, transmitBody_queued hinv.1 fits hn cmd status done] at h
      rw [exec_transmit_running hr, transmitBody_queued hp fits' hn' cmd' status' done] at h'
      cases h
      cases h'
      exact ⟨rfl, same.queued len c st⟩
  · have long := Nat.lt_of_not_le fits
    cases h.symm.trans (transmitTooLarge s len hs long)
    cases h'.symm.trans (transmitTooLarge r len hr (by rwa [same.cfg]))
    exact ⟨rfl, same.refused len _⟩

end SameTx

/-! ### The RX pipeline -/

/-- The two states agree on all of the RX pipeline: the cursor, the data-out port and the slots. -/
structure SameRx (s r : State) : Prop where
  cfg : r.cfg = s.cfg
  rxTail : r.rxTail = s.rxTail
  dataOut : r.dataOut = s.dataOut
  slots : ∀ k a, k < s.cfg.nRx → InRxSlot s.cfg k a → cellRead r.mem a = cellRead s.mem a

section SameRx

variable {s r : State} (same : SameRx s r)
include same

theorem SameRx.candidate : rxCandidate r = rxCandidate s := by rw [rxCandidate, rxCandidate, same.cfg, same.rxTail]

theorem SameRx.rxStatus {i : Nat} (hi : i < s.cfg.nRx) : r.rxStatus i = s.rxStatus i := by
  rw [State.rxStatus, State.rxStatus, same.cfg]
  exact same.slots i _ hi (rxStatus_inRxSlot i _ rfl)

theorem SameRx.rxLength {i : Nat} (hi : i < s.cfg.nRx) : r.rxLength i = s.rxLength i := by
  have low := same.slots i _ hi (inRxSlot_desc i offLength (by decide))
  have high := same.slots i _ hi (inRxSlot_desc i (offLength + 1) (by decide))
  rw [State.rxLength, State.rxLength, same.cfg, readHalf, readHalf, low, Nat.add_assoc, high]

theorem SameRx.rxBufBytes {i n : Nat} (hi : i < s.cfg.nRx) (hn : n ≤ s.cfg.rxBuf) :
    r.rxBufBytes i n = s.rxBufBytes i n := by
  rw [State.rxBufBytes, State.rxBufBytes, same.cfg, if_pos hn, if_pos hn]
  exact cellReadN_congr _ _ _ _ fun k hk => same.slots i _ hi (inRxSlot_buf i k (Nat.lt_of_lt_of_le hk hn))

theorem SameRx.taken (st : Byte) (n : Half) (bytes : List Byte) :
    SameRx (receiveTaken s st n bytes) (receiveTaken r st n bytes) where
  cfg := same.cfg
  rxTail := congrArg (BitVec.ofNat 16) same.candidate
  dataOut := congrArg (· ++ bytes) same.dataOut
  slots k a hk ha := by
    rw [receiveTaken, receiveTaken, same.cfg, same.candidate]
    exact cellRead_write_congr (same.slots k a hk ha) _ _

/-- RECEIVE reads nothing but the RX pipeline, so its result and the pipeline and lifecycle it leaves agree. -/
theorem SameRx.receive {s' r' : State} (hinv : s.Inv) (hs : s.Running) (hr : r.Running)
    (h : exec .receive s = .next s') (h' : exec .receive r = .next r') :
    r'.result = s'.result ∧ r'.life = s'.life ∧ SameRx s' r' := by
  have hp : r.cfg.admitted = true := same.cfg ▸ hinv.1
  have hc := rxCandidate_lt (nRx_pos hinv.1)
  obtain ⟨st, n, bytes, status, length, fits, buffer⟩ := (inOrder_of_inv hinv (.inl hs.1)).candidate (nRx_pos hinv.1)
  have status' : r.rxStatus (rxCandidate r) = some st := by rw [same.candidate, same.rxStatus hc, status]
  cases done : isDone st with
  | false =>
    cases h.symm.trans (receiveNoPacket s _ st hs rfl (nRx_pos hinv.1) status done)
    cases h'.symm.trans (receiveNoPacket r _ st hr rfl (nRx_pos hp) status' done)
    exact ⟨rfl, hr.1.trans hs.1.symm, same.cfg, same.rxTail, same.dataOut, same.slots⟩
  | true =>
    cases eop : isEop st with
    | false =>
      cases h.symm.trans (receiveUnsupportedFrame s _ st hs rfl (nRx_pos hinv.1) status done eop)
      cases h'.symm.trans (receiveUnsupportedFrame r _ st hr rfl (nRx_pos hp) status' done eop)
      exact ⟨rfl, rfl, same.cfg, same.rxTail, same.dataOut, same.slots⟩
    | true =>
      have length' : r.rxLength (rxCandidate r) = some n := by rw [same.candidate, same.rxLength hc, length]
      have buffer' : r.rxBufBytes (rxCandidate r) n.toNat = some bytes := by
        rw [same.candidate, same.rxBufBytes hc fits, buffer]
      have fits' : n.toNat ≤ r.cfg.rxBuf := by rwa [same.cfg]
      cases h.symm.trans (exec_receive_taken hs hinv.1 status done eop length fits buffer)
      cases h'.symm.trans (exec_receive_taken hr hp status' done eop length' fits' buffer')
      exact ⟨rfl, hr.1.trans hs.1.symm, same.taken st n bytes⟩

end SameRx

/-! ### Each command's writes stay in its own pipeline -/

theorem exec_transmit_keeps_rx {s s' : State} {len : Half} (hp : s.cfg.admitted = true) (ha : s.Attached)
    (h : exec (.transmit len) s = .next s') :
    s'.rxTail = s.rxTail ∧ s'.shadow regRDT = s.shadow regRDT ∧ s'.dataOut = s.dataOut ∧
    ∀ k a, k < s.cfg.nRx → InRxSlot s.cfg k a → cellRead s'.mem a = cellRead s.mem a := by
  obtain ⟨fields, shadow, -⟩ := exec_transmit_keeps h
  have stores := exec_memStep hp ha h
  refine ⟨by rw [fields], shadow regRDT (by decide), by rw [fields], fun k a hk ha => stores.same a fun tx => ?_⟩
  exact InTxSlotAt.not_inRxSlot tx hp hk ha

theorem exec_receive_keeps_tx {s s' : State} (hp : s.cfg.admitted = true) (ha : s.Attached)
    (h : exec .receive s = .next s') :
    s'.txTail = s.txTail ∧ s'.shadow regTDT = s.shadow regTDT ∧ s'.dataIn = s.dataIn ∧
    ∀ k a, k < s.cfg.nTx → InTxSlot s.cfg k a → cellRead s'.mem a = cellRead s.mem a := by
  obtain ⟨fields, shadow, -⟩ := exec_receive_keeps h
  have stores := exec_memStep hp ha h
  refine ⟨by rw [fields], shadow regTDT (by decide), by rw [fields], fun k a hk ha => stores.same a fun rx => ?_⟩
  exact InRxSlotAt.not_inTxSlot rx hp hk ha

/-- Settles O60: no command stores in a slot of the other ring, and each reads its own pipeline only. -/
theorem pipelinesAreIndependent : Obligations.PipelinesAreIndependent := by
  refine ⟨fun s s' len hinv hs => exec_transmit_keeps_rx hinv.1 (.inl hs.1),
    fun s s' hinv hs => exec_receive_keeps_tx hinv.1 (.inl hs.1), ?_, ?_⟩
  · intro s r s' r' len hinv _ hs hr cfg txTail dataIn draws slots h h'
    have same : SameTx s r := ⟨cfg, txTail, dataIn, draws, slots⟩
    obtain ⟨result, same'⟩ := same.transmit hinv hs hr h h'
    rw [← (exec_keepsForm h).cfg]
    exact ⟨result, same'.txTail, same'.dataIn, same'.slots⟩
  · intro s r s' r' hinv _ hs hr cfg rxTail dataOut slots h h'
    have same : SameRx s r := ⟨cfg, rxTail, dataOut, slots⟩
    obtain ⟨result, life, same'⟩ := same.receive hinv hs hr h h'
    rw [← (exec_keepsForm h).cfg]
    exact ⟨result, same'.rxTail, life, same'.dataOut, same'.slots⟩

end Sys2Proof.Proofs

/-! SUPPORT. Reset (spec/70_reset_and_hazards.md R260) and the second ATTACH (R262). -/

namespace Sys2Proof.Proofs

open Sys2Proof.Machine Sys2Proof.Laws

/-- At reset no descriptor can be read: no byte of memory holds a value (R260). -/
theorem resetWith_desc (p : Params) (i : Nat) :
    (State.resetWith p).txDesc i = none ∧ (State.resetWith p).rxDesc i = none := ⟨rfl, rfl⟩

/-- Settles O12: each value is its field's of `State.resetWith`, or a read of an empty list. -/
theorem resetValues : Obligations.ResetValues :=
  ⟨rfl, fun p => ⟨rfl, rfl, rfl, rfl, rfl, resetWith_desc p, cellRead_nil, cellRead_nil, rfl, rfl, rfl, rfl, rfl, rfl, rfl,
    rfl, rfl⟩⟩

/-- An instance at reset is not attached, so the invariant asks for canonical empty lists only (R260). -/
theorem resetWith_inv {p : Params} (hp : p.admitted = true) : (State.resetWith p).Inv :=
  ⟨hp, .nil, .nil, fun attached => absurd attached (not_attached_of_unattached rfl)⟩

theorem reference_admitted : Params.reference.admitted = true := resetThenFill_admitted

/-- Settles O14: the host's machine is the reference instance, which is admitted. -/
theorem invAtReset : Obligations.InvAtReset := ⟨resetWith_inv reference_admitted, fun _ => resetWith_inv⟩

/-- Settles O25: the lifecycle test faults ReAttach, and it is the first fault. -/
theorem secondAttachFaults : Obligations.SecondAttachFaults := by
  intro s running
  have faults := (admitAttach_faults s .reAttach).mpr ⟨running, rfl⟩
  rw [exec, execAttach, faults, runCommand, State.raise, beginCommand_fault, running.2]
  rfl

end Sys2Proof.Proofs
